-- ==== Sys2Proof/Word.lean ====
section
/-! DEFINITION. The two bit-vector types of the core: a byte is 8 bits, a word 32 bits (R10).
Counts, sizes and DMEM addresses are plain naturals, as the spec computes them (R67, R94). -/

namespace Sys2Proof

/-- A byte of DMEM, of a seed, of a message or of a digest (R10). -/
abbrev Byte := BitVec 8

/-- A register of the register space, and a word of the pseudo-random stream (R10, R28). -/
abbrev Word := BitVec 32

/-- An IEEE 754 binary64 value, as its 64 bits (R178). -/
abbrev F64 := BitVec 64

/-- The 32 bytes a sampler context is made from (R33, R172). -/
abbrev Seed := Vector Byte 32

end Sys2Proof
end

