-- ==== Sys2Proof/Syntax.lean ====
section
/-! DEFINITION. The sixteen commands of the core (R96). A command word carries no register number and no
immediate (R90): every operand is in an argument register at a position fixed by the opcode (R95), so the
constructors take no arguments. -/

namespace Sys2Proof

/-- One constructor per row of the opcode table (R96). -/
inductive Instr where
  | nop
  | modadd
  | modsub
  | modmul
  | encode
  | decode
  | rngseed
  | rngclr
  | sampleu
  | sampleg
  | randmat
  | randerr
  | keygen
  | encaps
  | decaps
  | zeroize
deriving DecidableEq, Repr

/-- How many argument registers the command's row of R96 lists; a script's pseudo-command has exactly this
many operands (R101). -/
def Instr.arity : Instr → Nat
  | .nop => 0
  | .modadd => 2
  | .modsub => 2
  | .modmul => 2
  | .encode => 4
  | .decode => 5
  | .rngseed => 2
  | .rngclr => 0
  | .sampleu => 0
  | .sampleg => 0
  | .randmat => 3
  | .randerr => 2
  | .keygen => 4
  | .encaps => 7
  | .decaps => 5
  | .zeroize => 2

end Sys2Proof
end

