-- ==== Sys2Proof/WellFormed.lean ====
section
/-! DEFINITION. What is well formed: an instruction, a value of each parameter (R7), and a pseudo-command of a
host script (R101). -/

namespace Sys2Proof

/-- A command has no operand field (R90), so every term of `Instr` is well formed. -/
def Instr.wf : Instr → Bool := fun _ => true

/-- R7 (d): `1 <= N <= 65535`. -/
def nOk (n : Nat) : Bool := decide (1 ≤ n) && decide (n ≤ 65535)

/-- R7 (a) and (b): `256 <= Q < 2^32`. -/
def qOk (q : Nat) : Bool := decide (256 ≤ q) && decide (q < 2 ^ 32)

/-- R7 (c): `SECLEN >= 1`. -/
def seclenOk (seclen : Nat) : Bool := decide (1 ≤ seclen)

/-- R7 (e): `SIGMA` is a finite binary64 value and `>= 0`. The exponent field is not all ones, and the sign bit
is clear or the value is the negative zero, which compares equal to 0. -/
def sigmaOk (sigma : F64) : Bool :=
  decide (sigma.extractLsb' 52 11 ≠ 0x7FF#11) &&
    (decide (sigma.extractLsb' 63 1 = 0#1) || decide (sigma.extractLsb' 0 63 = 0#63))

/-- R6: `DMEM_SIZE < 2^32`. -/
def dmemSizeOk (size : Nat) : Bool := decide (size < 2 ^ 32)

/-- R101: a pseudo-command has exactly as many operands as the command's row of R96 lists arguments. -/
def pseudoOk (i : Instr) (operands : List Word) : Bool := decide (operands.length = i.arity)

end Sys2Proof
end

