-- ==== Sys2Proof/Config.lean ====
section
/-! DEFINITION. What one build of the core fixes (R6, R7, R8, R38): the parameter set, the collaborator
functions, the platform's bus addresses, and the free values of the model. Every constant of this file is
`opaque` without a body: nothing in Lean can tell its value, so a claim holds whatever it is. -/

namespace Sys2Proof

/-- The parameter set (R6). The proof fields are R7's conditions, so an ill-formed set is no term of this type
(U14). The default values only show that the type is inhabited; no machine of the model uses them. -/
structure Params where
  /-- `N`, the lattice dimension. -/
  n : Nat := 1
  /-- `Q`, the modulus; no rule reads primality (R7). -/
  q : Nat := 256
  /-- `SECRET_LENGTH`, the digest size in bytes. -/
  seclen : Nat := 1
  /-- `DMEM_SIZE`, bytes of data memory. -/
  dmemSize : Nat := 0
  /-- `SIGMA`, as the bits of a binary64 value. -/
  sigma : F64 := 0
  n_ok : nOk n = true := by decide
  q_ok : qOk q = true := by decide
  seclen_ok : seclenOk seclen = true := by decide
  dmemSize_ok : dmemSizeOk dmemSize = true := by decide
  sigma_ok : sigmaOk sigma = true := by decide
deriving DecidableEq, Repr, Inhabited

/-- The collaborator functions: arguments of the model, total functions of their operands of which the machine
assumes nothing else (R8, R172, R178). -/
structure Collaborators where
  /-- `HASH` of a build with the given digest size, from byte strings to digests (R8, R320). -/
  hash : (seclen : Nat) → List Byte → Vector Byte seclen
  /-- `PRNG_WORD(seed, k)`, the `k`-th word of the stream that `seed` expands to (R172). -/
  prngWord : Seed → Nat → Word
  /-- The natural logarithm of `GAUSS_NUM`, binary64 to binary64 (R178). -/
  ln64 : F64 → F64
  /-- The cosine of `GAUSS_NUM`, binary64 to binary64 (R178). -/
  cos64 : F64 → F64
  /-- FREE VALUE (DESIGN CHOICE, log entry 5, safe): the sample, as 32 bits in two's complement, when the
  evaluation of `gauss_core` on these words and this sigma meets a NaN, for which the spec states no result. -/
  gaussNaN : Word → Word → F64 → Word
deriving Inhabited

/-- The parameter set of this build (R6); held in `State.params` (log entry 1). -/
opaque Config.params : Params

/-- The collaborator functions of this build (R38; log entry 2). -/
opaque Config.collab : Collaborators

/-- FREE VALUE (DESIGN CHOICE, log entry 7, safe): what PARAM_SECLEN reads when `SECLEN >= 2^32`, which R7 admits
and R30's 32 bits cannot hold. -/
opaque Config.wideSeclen : Nat → Word

/-- `REG_BASE`, the bus address of the register space, left to the platform (R28; log entry 9). -/
opaque Config.regBase : Nat

/-- `DMEM_BASE`, the bus address of DMEM, left to the platform (R65; log entry 9). -/
opaque Config.dmemBase : Nat

/-- What a `FragmentationError` of `reconstruct_data` names (R266, R274). -/
inductive Mismatch where
  /-- The number of fragments is not the total they share. -/
  | count
  /-- An index is missing or stands twice. -/
  | index
  /-- A digest does not match its data. -/
  | hash
deriving DecidableEq, Repr, Inhabited

/-- FREE VALUE (DESIGN CHOICE, log entry 10, safe): what `reconstruct_data` answers for an empty list of fragments,
which the source does not say (N11). -/
opaque Config.reconstructEmpty : Except Mismatch (List Byte)

/-- FREE VALUE (DESIGN CHOICE, log entry 10, safe): which of several mismatches `reconstruct_data` names, a position
modulo their number, since the source does not order its validations (N11). -/
opaque Config.whichMismatch : List Mismatch → Nat

/-- FREE VALUE (DESIGN CHOICE, log entry 14, safe): what the wire field `data_len` holds for data of `2^32` bytes or
more, which its 32 bits cannot count (R264). -/
opaque Config.wideDataLen : Nat → Word

/-- FREE VALUE (DESIGN CHOICE, log entry 15, safe): which of several failing components a fragmented operation reports,
a position modulo their number, given which components failed; the spec does not say (R271). -/
opaque Config.whichFailure : List Bool → Nat

end Sys2Proof
end

