-- ==== Sys2Proof/Decode.lean ====
section
/-! DEFINITION. Decoding and encoding of command words (R90, R91, R96, R97). The two are written separately, each
from the table of R96. -/

namespace Sys2Proof

/-- Why a word is illegal (R97). -/
inductive DecodeError where
  /-- A bit of `ZERO`, bits 31:8, is set. -/
  | reservedBits
  /-- `ZERO` is 0 and `OPC` is not in the table of R96. -/
  | unlistedOpcode
deriving DecidableEq, Repr

/-- The field `OPC`, bits 7:0 (R90). -/
def opcField (w : Word) : BitVec 8 := w.extractLsb' 0 8

/-- The field `ZERO`, bits 31:8 (R90). -/
def zeroField (w : Word) : BitVec 24 := w.extractLsb' 8 24

/-- The command of an opcode (R96). -/
def ofOpcode (opc : BitVec 8) : Option Instr :=
  match opc with
  | 0x00#8 => some .nop
  | 0x01#8 => some .modadd
  | 0x02#8 => some .modsub
  | 0x03#8 => some .modmul
  | 0x10#8 => some .encode
  | 0x11#8 => some .decode
  | 0x20#8 => some .rngseed
  | 0x21#8 => some .rngclr
  | 0x22#8 => some .sampleu
  | 0x23#8 => some .sampleg
  | 0x24#8 => some .randmat
  | 0x25#8 => some .randerr
  | 0x30#8 => some .keygen
  | 0x31#8 => some .encaps
  | 0x32#8 => some .decaps
  | 0x40#8 => some .zeroize
  | _ => none

/-- `decode(w)` of R91, total: exactly one command, or illegal for a named reason. -/
def decode (w : Word) : Except DecodeError Instr :=
  if zeroField w ≠ 0 then .error .reservedBits
  else
    match ofOpcode (opcField w) with
    | some i => .ok i
    | none => .error .unlistedOpcode

/-- The `match` word of a command (R96). -/
def encode : Instr → Word
  | .nop => 0x00000000
  | .modadd => 0x00000001
  | .modsub => 0x00000002
  | .modmul => 0x00000003
  | .encode => 0x00000010
  | .decode => 0x00000011
  | .rngseed => 0x00000020
  | .rngclr => 0x00000021
  | .sampleu => 0x00000022
  | .sampleg => 0x00000023
  | .randmat => 0x00000024
  | .randerr => 0x00000025
  | .keygen => 0x00000030
  | .encaps => 0x00000031
  | .decaps => 0x00000032
  | .zeroize => 0x00000040

/-- The instruction the decoder reads from the low `nbits` bits of `w`, numbered as the opcode table numbers them;
the bits above are 0. A command is one 32-bit word (R90), so a longer pattern with a bit set above bit 31 is none. -/
def decodeTableWord (nbits w : Nat) : Option Instr :=
  if w % 2 ^ nbits < 2 ^ 32 then
    match decode (BitVec.ofNat 32 (w % 2 ^ nbits)) with
    | .ok i => some i
    | .error _ => none
  else none

end Sys2Proof
end

