-- ==== Sys2Proof/Machine/State.lean ====
section
/-! DEFINITION. The state of one core as plain data, the reasons a step stops, and the state after reset. -/

namespace Sys2Proof.Machine

/-- DMEM: pairs of a byte address and the byte there, in one canonical form (addresses strictly rising, no byte
0x00 listed); an unlisted address reads 0x00, the value of every byte of DMEM after reset (R39; log entry 8). -/
abbrev Memory := List Host.Cell

/-- The units in which the host accesses DMEM: 1, 2 or 4 bytes (R65). -/
inductive Width where
  | one
  | two
  | four
deriving DecidableEq, Repr

/-- One move of the world: a host access, a reset, or the core's own move (R14, R72). The model holds the moves
still to come in `State.events`, so that plain data says which agent moves next (DESIGN CHOICE, log entry 3, safe:
every order of moves is some list). -/
inductive Event where
  /-- The host reads a register of the register space (R28). -/
  | regRead (i : Fin 64)
  /-- The host writes a register of the register space (R28); index 0x02 issues a command (R25). -/
  | regWrite (i : Fin 64) (v : Word)
  /-- The host reads DMEM (R65). -/
  | dmemRead (a : Nat) (w : Width)
  /-- The host writes DMEM with the low bytes of `v` (R65). -/
  | dmemWrite (a : Nat) (w : Width) (v : Word)
  /-- The reset input is asserted and released (R340). -/
  | reset
  /-- The core moves: with BUSY = 1 it takes its completion step (R93). -/
  | core
  /-- The host reads STATUS repeatedly until BUSY = 0, the script line WAIT (R100). -/
  | wait
deriving DecidableEq, Repr

/-- The state of one core (R20), the parameter set of its build (R38), and the model's own two fields. -/
structure State where
  /-- The command latch CMD (R25). -/
  cmd : Word
  /-- STATUS.BUSY (R26). -/
  busy : Bool
  /-- STATUS.DONE (R26). -/
  done : Bool
  /-- STATUS.ERR (R26). -/
  err : Bool
  /-- STATUS.ERRCODE (R26, R301). -/
  errcode : Byte
  /-- ARG0 to ARG7 (R21). -/
  args : Vector Word 8
  /-- RES0 (R22). -/
  res0 : Word
  /-- RNG_VALID (R33). -/
  rngValid : Bool
  /-- RNG_SEED (R33). -/
  rngSeed : Seed
  /-- RNG_POS (R33). -/
  rngPos : BitVec 64
  /-- DMEM (R60). -/
  dmem : Memory
  /-- The parameter set, which no step changes (R6, R38; DESIGN CHOICE, log entry 1, safe). -/
  params : Params
  /-- The model's own: the moves still to come, first to happen first (log entry 3). -/
  events : List Event
  /-- The model's own: the values the host's reads have returned, newest first (log entry 3). -/
  replies : List Word
deriving DecidableEq, Repr

/-- Reasons to stop with a fault. There are none: "No error is fatal to the process" (R300), and every error of
R301 is a completion, that is a next state (R306). -/
inductive Fault
deriving DecidableEq, Repr

/-- Reasons to give a step no meaning. -/
inductive Refusal where
  /-- Raised by an arm of `exec` for an instruction without a meaning; no arm does. Safe. -/
  | notModelled (mnemonic : String)
  /-- Raised by a host access that R71 and U1 forbid while BUSY = 1: "the model refuses the run". Safe. -/
  | hostAccessWhileBusy
  /-- Raised by a host access to DMEM outside `[0, DMEM_SIZE)`: "the model refuses it" (R65, U2). Safe. -/
  | dmemOutOfRange
deriving DecidableEq, Repr

/-- Right after reset (R39), with no move to come and nothing read. -/
def State.reset : State where
  cmd := 0x00000000
  busy := false
  done := false
  err := false
  errcode := 0x00
  args := Vector.replicate 8 0
  res0 := 0
  rngValid := false
  rngSeed := Vector.replicate 32 0
  rngPos := 0
  dmem := []
  params := Config.params
  events := []
  replies := []

end Sys2Proof.Machine
end

