-- ==== Sys2Proof/Machine/Flags.lean ====
section
/-! DEFINITION. STATUS: its fields as a word (R26), the error kinds and their codes (R301), and what the issue of
a command does to the flags (R27, R92). There are no arithmetic condition codes (R27, R159). -/

namespace Sys2Proof.Machine

/-- The error kinds of R301: the source's seven, then the spec's five (R304). -/
inductive ErrorKind where
  | invalidParameter
  | invalidKeyFormat
  | invalidCiphertextFormat
  | randomGeneration
  | encapsulation
  | decapsulation
  | fragmentationError
  | illegalCommand
  | addressRange
  | operandRange
  | encodeRange
  | rngUnseeded
deriving DecidableEq, Repr

/-- The code of an error kind (R301). -/
def ErrorKind.code : ErrorKind → Byte
  | .invalidParameter => 0x01
  | .invalidKeyFormat => 0x02
  | .invalidCiphertextFormat => 0x03
  | .randomGeneration => 0x04
  | .encapsulation => 0x05
  | .decapsulation => 0x06
  | .fragmentationError => 0x07
  | .illegalCommand => 0x10
  | .addressRange => 0x11
  | .operandRange => 0x12
  | .encodeRange => 0x13
  | .rngUnseeded => 0x14

/-- The codes some command of the core completes with: all of R301 but 0x07, which is reserved for host software
(R274). -/
def producedCodes : List Byte :=
  [0x01, 0x02, 0x03, 0x04, 0x05, 0x06, 0x10, 0x11, 0x12, 0x13, 0x14]

/-- One flag as the bit of STATUS it occupies. -/
def flagBit (b : Bool) : BitVec 1 := if b then 1#1 else 0#1

/-- STATUS as the host reads it (R26): BUSY, DONE, ERR, RNG_VALID in bits 0 to 3, ERRCODE in bits 15:8, the
reserved bits 0. -/
def State.statusWord (s : State) : Word :=
  0#16 ++ s.errcode ++ 0#4 ++ flagBit s.rngValid ++ flagBit s.err ++ flagBit s.done ++ flagBit s.busy

/-- Issue (R92): the word is latched, BUSY is set, DONE, ERR and ERRCODE are cleared, and nothing else changes. -/
def State.issue (s : State) (w : Word) : State :=
  { s with cmd := w, busy := true, done := false, err := false, errcode := 0x00 }

end Sys2Proof.Machine
end

