-- ==== Sys2Proof/Machine/Ops.lean ====
section
/-! DEFINITION. The named operations over memory and registers, and the two ways a command completes: normally
(R93) and with an error (R306, the analogue of taking an exception). There is no return from an error: the host
issues the next command (R307). -/

namespace Sys2Proof.Machine

/-! ### Bytes of DMEM (R60, R66) -/

/-- The canonical form of a memory: addresses strictly rising, and no entry equal to what an unlisted address
reads as. -/
abbrev Memory.wf (m : Memory) : Prop :=
  m.Pairwise (fun x y => x.1 < y.1) ∧ ∀ c ∈ m, c.2 ≠ 0

/-- Every listed cell exists in a DMEM of the given size (R60). -/
abbrev Memory.within (m : Memory) (size : Nat) : Prop := ∀ c ∈ m, c.1 < size

/-- The byte at an address; an unlisted address reads 0x00 (R39). -/
def Memory.read : Memory → Nat → Byte
  | [], _ => 0
  | (k, v) :: rest, a => if k = a then v else Memory.read rest a

/-- The entries of every other address. -/
def Memory.without (m : Memory) (a : Nat) : Memory := m.filter fun c => decide (c.1 ≠ a)

/-- Put an entry at its place by address. -/
def Memory.insert : Memory → Nat → Byte → Memory
  | [], a, b => [(a, b)]
  | c :: rest, a, b => if a < c.1 then (a, b) :: c :: rest else c :: Memory.insert rest a b

/-- Write one byte, keeping the canonical form: writing what an unlisted address reads as removes the entry. -/
def Memory.write (m : Memory) (a : Nat) (b : Byte) : Memory :=
  if b = 0 then m.without a else (m.without a).insert a b

/-- `MemBytes(addr, n)` (R12): the `n` bytes from an address up. -/
def Memory.readBytes (m : Memory) : Nat → Nat → List Byte
  | _, 0 => []
  | a, n + 1 => m.read a :: Memory.readBytes m (a + 1) n

/-- `MemBytes(addr, n) <- b` (R12): write a byte string from an address up. -/
def Memory.writeBytes : Memory → Nat → List Byte → Memory
  | m, _, [] => m
  | m, a, b :: rest => Memory.writeBytes (m.write a b) (a + 1) rest

/-! ### Byte order (R11, R61) -/

/-- `LE(b)`: byte 0 is the least significant (R11). -/
def leNat : List Byte → Nat
  | [] => 0
  | b :: rest => b.toNat + 256 * leNat rest

/-- `LEbytes(v, n)`: the `n`-byte string whose `LE` is `v`, for `v < 256^n` (R11). -/
def leBytes : Nat → Nat → List Byte
  | _, 0 => []
  | v, n + 1 => BitVec.ofNat 8 v :: leBytes (v / 256) n

/-- `MemRead(addr, n)` (R12). -/
def Memory.readLE (m : Memory) (a n : Nat) : Nat := leNat (m.readBytes a n)

/-- `MemWrite(addr, n, v)` (R12). -/
def Memory.writeLE (m : Memory) (a n v : Nat) : Memory := m.writeBytes a (leBytes v n)

/-! ### Registers a command writes -/

/-- `RES0 <- v` (R12, R22). -/
def State.setRes0 (s : State) (v : Word) : State := { s with res0 := v }

/-- Replace the contents of DMEM. -/
def State.setDmem (s : State) (m : Memory) : State := { s with dmem := m }

/-- Write all three fields of the RNG context (R33). -/
def State.setRng (s : State) (valid : Bool) (seed : Seed) (pos : BitVec 64) : State :=
  { s with rngValid := valid, rngSeed := seed, rngPos := pos }

/-- `RNG_POS <- RNG_POS + w` after drawing `w` words (R174). -/
def State.advance (s : State) (w : Nat) : State := { s with rngPos := s.rngPos + BitVec.ofNat 64 w }

/-! ### Completion (R93, R306) -/

/-- Completion without error: BUSY is cleared and DONE is set (R93). -/
def State.completeOk (s : State) : State := { s with busy := false, done := true }

/-- Completion with an error (R306): the four STATUS fields, and nothing else. -/
def State.completeError (s : State) (e : ErrorKind) : State :=
  { s with busy := false, done := true, err := true, errcode := e.code }

/-- The completion step for what a command's rule gives: the state with its writes made, or the error it raises,
after which no write is made (R70, R309). -/
def State.complete (s : State) : Except ErrorKind State → State
  | .ok t => t.completeOk
  | .error e => s.completeError e

/-- The outcome of a command: always a next state, since an error is a completion (R300). -/
def finish (s : State) (r : Except ErrorKind State) : Host.Outcome State Fault Refusal :=
  .next (s.complete r)

/-- The completion of an illegal word: `IllegalCommand`, changing nothing else (R91, R97). -/
def illegalCommand (s : State) : Host.Outcome State Fault Refusal :=
  finish s (.error .illegalCommand)

/-! ### Derived constants of the parameter set (R7) -/

/-- `SCALE = floor(Q / 256)` (R7, R223). -/
def scale (p : Params) : Nat := p.q / 256

/-- `PK_LEN` (R7, R130). -/
def pkLen (p : Params) : Nat := p.n * p.n * 2 + p.n * 2 + 32

/-- `SK_LEN` (R7, R131). -/
def skLen (p : Params) : Nat := p.n * 2 + 32

/-- `CT_LEN` (R7, R132). -/
def ctLen (p : Params) : Nat := p.n * 2 + 2 + p.seclen

end Sys2Proof.Machine
end

