-- ==== Sys2Proof/Machine/Operands.lean ====
section
/-! DEFINITION. Every operand form of the commands: an argument register as a natural number (R94), regions and
their check (R67, R68), seeds, element arrays (R121) and the packed format (R120). -/

namespace Sys2Proof.Machine

/-- `ARG[k]`: argument register `k` read as `zext_32` (R12, R94). -/
def State.arg (s : State) (k : Fin 8) : Nat := (s.args[k]).toNat

/-! ### Regions (R67, R68) -/

/-- A region: the DMEM bytes `addr` to `addr + len - 1`, in unbounded naturals (R67). -/
structure Region where
  addr : Nat
  len : Nat
deriving DecidableEq, Repr

/-- In range: empty, or inside DMEM (R67). -/
def Region.inRange (size : Nat) (r : Region) : Bool :=
  decide (r.len = 0) || decide (r.addr + r.len ≤ size)

/-- Two regions overlap when both are not empty and they share a byte (R67). -/
def Region.overlaps (x y : Region) : Bool :=
  decide (0 < x.len) && decide (0 < y.len) &&
    (decide (x.addr < y.addr + y.len) && decide (y.addr < x.addr + x.len))

/-- No two of the regions overlap, whichever is input or output (R68). The regions are taken by their place in the
command's list, so two operands that name the very same bytes overlap (DEDUCED, log entry 6, safe). -/
def pairwiseDisjoint : List Region → Bool
  | [] => true
  | r :: rest => rest.all (fun x => !r.overlaps x) && pairwiseDisjoint rest

/-- `RegionsOK` (R68). -/
def regionsOK (size : Nat) (rs : List Region) : Bool :=
  rs.all (Region.inRange size) && pairwiseDisjoint rs

/-! ### Byte strings of fixed size -/

/-- The 32 seed bytes at an address (R183, R213, R225). -/
def Memory.readSeed (m : Memory) (a : Nat) : Seed := Vector.ofFn fun i : Fin 32 => m.read (a + i.val)

/-! ### Element arrays: 4-byte little-endian words (R121) -/

/-- The `cnt` words of an element array. -/
def Memory.readElems (m : Memory) (a cnt : Nat) : List Nat :=
  (List.range cnt).map fun k => m.readLE (a + 4 * k) 4

/-- The bytes of an element array. -/
def elemBytes (xs : List Nat) : List Byte := xs.flatMap fun x => leBytes x 4

/-! ### Packed format: 2-byte little-endian scalars (R120) -/

/-- `pack(x)`, meant for scalars below 65536 (R120, R124). -/
def pack (xs : List Nat) : List Byte := xs.flatMap fun x => leBytes x 2

/-- The packed scalar at a byte offset of a byte string: `LE(b[off .. off+2])`. -/
def scalarAt (b : List Byte) (off : Nat) : Nat := leNat ((b.drop off).take 2)

/-- `unpack(b, cnt)` (R120). -/
def unpack (b : List Byte) (cnt : Nat) : List Nat := (List.range cnt).map fun k => scalarAt b (2 * k)

/-- A scalar that the packed format cannot hold (R124). -/
def unpackable (xs : List Nat) : Bool := xs.any fun x => decide (65536 ≤ x)

end Sys2Proof.Machine
end

