-- ==== Sys2Proof/Machine/Arithmetic.lean ====
section
/-! DEFINITION. Modular arithmetic: MODADD, MODSUB, MODMUL (R150 to R159). The architectural result of the
multiplier is the residue and nothing else (R2, R157). -/

namespace Sys2Proof.Machine

/-- `addmod` (R150). -/
def addmod (q a b : Nat) : Nat := (a + b) % q

/-- `submod` (R150): the Euclidean residue of the integer difference. -/
def submod (q a b : Nat) : Nat := (((a : Int) - (b : Int)) % (q : Int)).toNat

/-- `mulmod` (R150): the exact product, reduced. -/
def mulmod (q a b : Nat) : Nat := a * b % q

/-- The shape of R151 to R153: an operand outside `[0, Q)` raises `OperandRange` (R155), else the result of `f` goes
to RES0. -/
def modRule (f : Nat → Nat → Nat → Nat) (s : State) : Except ErrorKind State :=
  if s.params.q ≤ s.arg 0 ∨ s.params.q ≤ s.arg 1 then .error .operandRange
  else .ok (s.setRes0 (BitVec.ofNat 32 (f s.params.q (s.arg 0) (s.arg 1))))

/-- MODADD (R151). -/
def execModadd (s : State) : Host.Outcome State Fault Refusal := finish s (modRule addmod s)

/-- MODSUB (R152). -/
def execModsub (s : State) : Host.Outcome State Fault Refusal := finish s (modRule submod s)

/-- MODMUL (R153). -/
def execModmul (s : State) : Host.Outcome State Fault Refusal := finish s (modRule mulmod s)

end Sys2Proof.Machine
end

