-- ==== Sys2Proof/Machine/Codec.lean ====
section
/-! DEFINITION. The codec: ENCODE and DECODE (R120 to R129). -/

namespace Sys2Proof.Machine

/-- The pseudocode of ENCODE (R123); `AddressRange` is tested before `EncodeRange` (R305). -/
def encodeRule (s : State) : Except ErrorKind State :=
  let src := s.arg 0
  let cnt := s.arg 1 * s.arg 2
  let dst := s.arg 3
  let x := s.dmem.readElems src cnt
  if regionsOK s.params.dmemSize [⟨src, cnt * 4⟩, ⟨dst, cnt * 2⟩] = false then .error .addressRange
  else if unpackable x then .error .encodeRange
  else .ok ((s.setDmem (s.dmem.writeBytes dst (pack x))).setRes0 (BitVec.ofNat 32 (cnt * 2)))

/-- ENCODE (R123). -/
def execEncode (s : State) : Host.Outcome State Fault Refusal := finish s (encodeRule s)

/-- The pseudocode of DECODE (R126); `InvalidParameter` is tested before `AddressRange` (R305). Scalars are not
compared with Q (R127). -/
def decodeRule (s : State) : Except ErrorKind State :=
  let src := s.arg 0
  let len := s.arg 1
  let cnt := s.arg 2 * s.arg 3
  let dst := s.arg 4
  if len < cnt * 2 then .error .invalidParameter
  else if regionsOK s.params.dmemSize [⟨src, len⟩, ⟨dst, cnt * 4⟩] = false then .error .addressRange
  else
    let y := unpack (s.dmem.readBytes src (cnt * 2)) cnt
    .ok ((s.setDmem (s.dmem.writeBytes dst (elemBytes y))).setRes0 (BitVec.ofNat 32 (cnt * 2)))

/-- DECODE (R126). -/
def execDecode (s : State) : Host.Outcome State Fault Refusal := finish s (decodeRule s)

end Sys2Proof.Machine
end

