-- ==== Sys2Proof/Machine/Float64.lean ====
section
/-! DEFINITION. The binary64 operations of the Gaussian sampler (R178, G4): multiplication and square root, each
correctly rounded to nearest, ties to even, and the conversion to a 32-bit integer. Values are decoded to exact
integers, computed exactly, and rounded once. -/

namespace Sys2Proof.Machine

/-- What a binary64 word denotes: NaN, an infinity, or `(-1)^neg * m * 2^e`. -/
inductive F64Val where
  | nan
  | inf (neg : Bool)
  | fin (neg : Bool) (m : Nat) (e : Int)
deriving DecidableEq, Repr

/-- The value of a binary64 word (IEEE 754). -/
def f64Val (x : F64) : F64Val :=
  let neg := x.msb
  let ex := (x.extractLsb' 52 11).toNat
  let fr := (x.extractLsb' 0 52).toNat
  if ex = 2047 then (if fr = 0 then .inf neg else .nan)
  else if ex = 0 then .fin neg fr (-1074)
  else .fin neg (2 ^ 52 + fr) ((ex : Int) - 1075)

/-- The sign bit in place. -/
def f64Sign (neg : Bool) : Nat := if neg then 2 ^ 63 else 0

/-- The infinity of a sign. -/
def f64Inf (neg : Bool) : F64 := BitVec.ofNat 64 (f64Sign neg + 2047 * 2 ^ 52)

/-- The NaN this file's operations answer. Its payload is never seen: a NaN only leads to the free value of
`Collaborators.gaussNaN` (log entry 5). -/
def f64NaN : F64 := 0x7FF8000000000000

/-- `m / 2^k` rounded to the nearest integer, ties to even. -/
def roundShift (m k : Nat) : Nat :=
  let quo := m / 2 ^ k
  let rem := m % 2 ^ k
  if 2 * rem < 2 ^ k then quo
  else if 2 * rem = 2 ^ k then quo + quo % 2
  else quo + 1

/-- Round the exact value `(-1)^neg * m * 2^e` to binary64, to nearest, ties to even, with gradual underflow and
overflow to infinity. The exponent field and a carry out of the significand are added in one sum. -/
def roundToF64 (neg : Bool) (m : Nat) (e : Int) : F64 :=
  if m = 0 then BitVec.ofNat 64 (f64Sign neg)
  else
    let ulp : Int := max ((Nat.log2 m : Int) + e - 52) (-1074)
    let mant : Nat :=
      if ulp ≤ e then m * 2 ^ (e - ulp).toNat else roundShift m (ulp - e).toNat
    let bits : Nat := (ulp + 1074).toNat * 2 ^ 52 + mant
    if 2047 * 2 ^ 52 ≤ bits then f64Inf neg else BitVec.ofNat 64 (f64Sign neg + bits)

/-- `fmul` (R178). -/
def fmul (x y : F64) : F64 :=
  match f64Val x, f64Val y with
  | .nan, _ => f64NaN
  | .inf _, .nan => f64NaN
  | .inf a, .inf b => f64Inf (xor a b)
  | .inf a, .fin b m _ => if m = 0 then f64NaN else f64Inf (xor a b)
  | .fin _ _ _, .nan => f64NaN
  | .fin a m _, .inf b => if m = 0 then f64NaN else f64Inf (xor a b)
  | .fin a m e, .fin b m' e' => roundToF64 (xor a b) (m * m') (e + e')

/-- Bit by bit integer square root: `acc` plus the largest sum of the powers below `2^bits` whose square is at
most `n`. -/
def isqrtBits (n : Nat) : Nat → Nat → Nat
  | 0, acc => acc
  | bits + 1, acc =>
    isqrtBits n bits (if (acc + 2 ^ bits) * (acc + 2 ^ bits) ≤ n then acc + 2 ^ bits else acc)

/-- `fsqrt` (R178), correctly rounded: a root of at least 60 bits, with a last bit that says whether it is exact,
is rounded once. The square root of a negative value is NaN, of a zero that zero. -/
def fsqrt (x : F64) : F64 :=
  match f64Val x with
  | .nan => f64NaN
  | .inf neg => if neg then f64NaN else f64Inf false
  | .fin neg m e =>
    if m = 0 then x
    else if neg then f64NaN
    else
      let odd : Nat := (e % 2).toNat
      let wide := m * 2 ^ odd * 2 ^ 120
      let root := isqrtBits wide 90 0
      let sticky := if root * root = wide then 0 else 1
      roundToF64 false (2 * root + sticky) ((e - odd - 120) / 2 - 1)

/-- `2 * pi` rounded to binary64 (R178). -/
def twoPi : F64 := 0x401921FB54442D18

/-- `-2.0` in binary64. -/
def minusTwo : F64 := 0xC000000000000000

/-- `U01(w) = (w + 1/2) / 2^32`, exact in binary64 (R177). -/
def u01 (w : Word) : F64 := roundToF64 false (2 * w.toNat + 1) (-33)

/-- The nearest integer of `(-1)^neg * m * 2^e`, a tie going away from zero: `round_half_away` (R178, G3). -/
def roundHalfAway (neg : Bool) (m : Nat) (e : Int) : Int :=
  let mag : Nat :=
    if 0 ≤ e then m * 2 ^ e.toNat else (2 * m + 2 ^ (-e).toNat) / (2 * 2 ^ (-e).toNat)
  if neg then -(mag : Int) else mag

/-- `clamp(z, -2^31, 2^31 - 1)` (R178). -/
def clampI32 (z : Int) : Int := max (-2147483648) (min z 2147483647)

end Sys2Proof.Machine
end

