-- ==== Sys2Proof/Machine/Sampler.lean ====
section
/-! DEFINITION. The deterministic sampler (R170 to R190): the functions of the stream, then RNGSEED, RNGCLR,
SAMPLEU, SAMPLEG, RANDMAT and RANDERR. The collaborator functions are an argument `k`, so that the same rule serves
any generator; the commands take those of the build. -/

namespace Sys2Proof.Machine

/-! ### Functions of the stream -/

/-- `sample_uniform` at stream position `pos` (R176): one word, reduced. -/
def uniformAt (k : Collaborators) (q : Nat) (seed : Seed) (pos : Nat) : Nat :=
  (k.prngWord seed pos).toNat % q

/-- The `cnt` successive uniform elements from a position, in the row-major fill order of `random_matrix` (R181). -/
def uniforms (k : Collaborators) (q : Nat) (seed : Seed) (pos cnt : Nat) : List Nat :=
  (List.range cnt).map fun j => uniformAt k q seed (pos + j)

/-- `gauss_core` (R178). An infinity saturates like any value out of range (DEDUCED from the clamp and G3, log entry
5); a NaN gives the free value. -/
def gaussCore (k : Collaborators) (w1 w2 : Word) (sigma : F64) : Int :=
  let t := fmul minusTwo (k.ln64 (u01 w1))
  let radius := fsqrt t
  let theta := fmul twoPi (u01 w2)
  let x := fmul (fmul radius (k.cos64 theta)) sigma
  match f64Val x with
  | .nan => (k.gaussNaN w1 w2 sigma).toInt
  | .inf neg => clampI32 (if neg then -2147483648 else 2147483647)
  | .fin neg m e => clampI32 (roundHalfAway neg m e)

/-- `sample_gaussian` at stream position `pos` (R179): the first word feeds the radius, the second the angle. -/
def gaussAt (k : Collaborators) (sigma : F64) (seed : Seed) (pos : Nat) : Int :=
  gaussCore k (k.prngWord seed pos) (k.prngWord seed (pos + 1)) sigma

/-- `reduce_Q` (R182): the Euclidean residue of a signed sample. -/
def reduceQ (q : Nat) (x : Int) : Nat := (x % (q : Int)).toNat

/-- The signed samples `random_error_vector` draws from a position (R182). -/
def signedErrors (k : Collaborators) (sigma : F64) (seed : Seed) (pos n : Nat) : List Int :=
  (List.range n).map fun j => gaussAt k sigma seed (pos + 2 * j)

/-- `random_error_vector` (R182). -/
def errorVector (k : Collaborators) (p : Params) (seed : Seed) (pos n : Nat) : List Nat :=
  (signedErrors k p.sigma seed pos n).map (reduceQ p.q)

/-- R175: drawing `w` words would take RNG_POS past `2^64 - 1`. -/
def State.exhausted (s : State) (w : Nat) : Bool := decide (2 ^ 64 - 1 < s.rngPos.toNat + w)

/-! ### The commands -/

/-- The pseudocode of RNGSEED (R183). -/
def rngseedRule (s : State) : Except ErrorKind State :=
  let addr := s.arg 0
  let len := s.arg 1
  if len < 32 then .error .randomGeneration
  else if regionsOK s.params.dmemSize [⟨addr, len⟩] = false then .error .addressRange
  else .ok (s.setRng true (s.dmem.readSeed addr) 0)

/-- RNGSEED (R183). -/
def execRngseed (s : State) : Host.Outcome State Fault Refusal := finish s (rngseedRule s)

/-- RNGCLR (R184). -/
def execRngclr (s : State) : Host.Outcome State Fault Refusal :=
  finish s (.ok (s.setRng false (Vector.replicate 32 0) 0))

/-- The pseudocode of SAMPLEU (R186). -/
def sampleuRule (k : Collaborators) (s : State) : Except ErrorKind State :=
  if s.rngValid = false then .error .rngUnseeded
  else if s.exhausted 1 then .error .randomGeneration
  else
    .ok ((s.setRes0 (BitVec.ofNat 32 (uniformAt k s.params.q s.rngSeed s.rngPos.toNat))).advance 1)

/-- SAMPLEU (R186). -/
def execSampleu (s : State) : Host.Outcome State Fault Refusal := finish s (sampleuRule Config.collab s)

/-- The pseudocode of SAMPLEG (R187): the signed sample, in two's complement. -/
def samplegRule (k : Collaborators) (s : State) : Except ErrorKind State :=
  if s.rngValid = false then .error .rngUnseeded
  else if s.exhausted 2 then .error .randomGeneration
  else
    .ok ((s.setRes0 (BitVec.ofInt 32 (gaussAt k s.params.sigma s.rngSeed s.rngPos.toNat))).advance 2)

/-- SAMPLEG (R187). -/
def execSampleg (s : State) : Host.Outcome State Fault Refusal := finish s (samplegRule Config.collab s)

/-- The pseudocode of RANDMAT (R188). -/
def randmatRule (k : Collaborators) (s : State) : Except ErrorKind State :=
  let cnt := s.arg 0 * s.arg 1
  let dst := s.arg 2
  if s.rngValid = false then .error .rngUnseeded
  else if regionsOK s.params.dmemSize [⟨dst, cnt * 4⟩] = false then .error .addressRange
  else if s.exhausted cnt then .error .randomGeneration
  else
    let x := uniforms k s.params.q s.rngSeed s.rngPos.toNat cnt
    .ok ((s.setDmem (s.dmem.writeBytes dst (elemBytes x))).advance cnt)

/-- RANDMAT (R188). -/
def execRandmat (s : State) : Host.Outcome State Fault Refusal := finish s (randmatRule Config.collab s)

/-- The pseudocode of RANDERR (R189). -/
def randerrRule (k : Collaborators) (s : State) : Except ErrorKind State :=
  let n := s.arg 0
  let dst := s.arg 1
  if s.rngValid = false then .error .rngUnseeded
  else if regionsOK s.params.dmemSize [⟨dst, n * 4⟩] = false then .error .addressRange
  else if s.exhausted (2 * n) then .error .randomGeneration
  else
    let x := errorVector k s.params s.rngSeed s.rngPos.toNat n
    .ok ((s.setDmem (s.dmem.writeBytes dst (elemBytes x))).advance (2 * n))

/-- RANDERR (R189). -/
def execRanderr (s : State) : Host.Outcome State Fault Refusal := finish s (randerrRule Config.collab s)

end Sys2Proof.Machine
end

