-- ==== Sys2Proof/Machine/Engine.lean ====
section
/-! DEFINITION. The LWE engine (R210 to R232): keygen_fn, encaps_fn and decaps_fn as pure functions, then KEYGEN,
ENCAPS and DECAPS. Sums are exact, and reduced once (R156). -/

namespace Sys2Proof.Machine

/-- The exact sum `Σ_i x[i] * y[i]` (R156). -/
def dot (x y : List Nat) : Nat := (List.zipWith (· * ·) x y).sum

/-- Row `i` of an `n` by `n` matrix given in row-major order (R13). -/
def rowOf (n : Nat) (a : List Nat) (i : Nat) : List Nat := (List.range n).map fun j => a.getD (i * n + j) 0

/-- Column `j` of an `n` by `n` matrix given in row-major order (R13). -/
def columnOf (n : Nat) (a : List Nat) (j : Nat) : List Nat := (List.range n).map fun i => a.getD (i * n + j) 0

/-- `HASH(msg)`, a digest of `SECLEN` bytes (R8, R133). -/
def digest (k : Collaborators) (p : Params) (msg : List Byte) : List Byte := (k.hash p.seclen msg).toList

/-! ### Key generation (R211) -/

/-- What `keygen_fn` returns: `A` in row-major order, `b`, and the vectors `s` and `e` (R211). -/
structure KeyMaterial where
  a : List Nat
  b : List Nat
  s : List Nat
  e : List Nat
deriving DecidableEq, Repr

/-- `b[i] = (Σ_j A[i][j] * s[j] + e[i]) mod Q` for each row (R211). -/
def publicVector (p : Params) (a s e : List Nat) : List Nat :=
  (List.range p.n).map fun i => (dot (rowOf p.n a i) s + e.getD i 0) % p.q

/-- `keygen_fn(seed)` (R211): `A`, then `s`, then `e`, from one private context at position 0 (R212). -/
def keygenFn (k : Collaborators) (p : Params) (seed : Seed) : KeyMaterial :=
  let a := uniforms k p.q seed 0 (p.n * p.n)
  let s := errorVector k p seed (p.n * p.n) p.n
  let e := errorVector k p seed (p.n * p.n + 2 * p.n) p.n
  { a := a, b := publicVector p a s e, s := s, e := e }

/-- The packed public key `A ‖ b ‖ seed` (R130). -/
def publicKeyBytes (m : KeyMaterial) (seed : Seed) : List Byte := pack m.a ++ pack m.b ++ seed.toList

/-- The packed secret key `s ‖ seed` (R131). -/
def secretKeyBytes (m : KeyMaterial) (seed : Seed) : List Byte := pack m.s ++ seed.toList

/-- The pseudocode of KEYGEN (R213). -/
def keygenRule (k : Collaborators) (st : State) : Except ErrorKind State :=
  let p := st.params
  let saddr := st.arg 0
  let slen := st.arg 1
  let pkdst := st.arg 2
  let skdst := st.arg 3
  if slen < 32 then .error .randomGeneration
  else if regionsOK p.dmemSize [⟨saddr, slen⟩, ⟨pkdst, pkLen p⟩, ⟨skdst, skLen p⟩] = false then
    .error .addressRange
  else
    let seed := st.dmem.readSeed saddr
    let m := keygenFn k p seed
    if unpackable (m.a ++ m.b ++ m.s) then .error .encodeRange
    else
      .ok (st.setDmem
        ((st.dmem.writeBytes pkdst (publicKeyBytes m seed)).writeBytes skdst (secretKeyBytes m seed)))

/-- KEYGEN (R213). -/
def execKeygen (s : State) : Host.Outcome State Fault Refusal := finish s (keygenRule Config.collab s)

/-! ### Encapsulation (R220) -/

/-- A ciphertext's computed part: the `N`-vector `v` and the scalar `c` (R220). -/
structure CipherPair where
  v : List Nat
  c : Nat
deriving DecidableEq, Repr

/-- `v = r·A` and `c = r·b + encoded`, modulo Q (R220). -/
def encryptWith (p : Params) (a b r : List Nat) (encoded : Nat) : CipherPair where
  v := (List.range p.n).map fun j => dot r (columnOf p.n a j) % p.q
  c := (dot r b + encoded) % p.q

/-- `encoded = (mv * SCALE) mod Q` (R223). -/
def encodeMessage (p : Params) (mv : Nat) : Nat := mv * scale p % p.q

/-- `encaps_fn(A, b, eseed, msg)` (R220): `none` is the failure `Encapsulation` of a message that does not fit one
coefficient (R224). -/
def encapsFn (k : Collaborators) (p : Params) (a b : List Nat) (eseed : Seed) (msg : List Byte) :
    Option CipherPair :=
  if p.q ≤ leNat msg then none
  else some (encryptWith p a b (errorVector k p eseed 0 p.n) (encodeMessage p (leNat msg)))

/-- The packed ciphertext `v ‖ c ‖ message` (R132). -/
def ciphertextBytes (ct : CipherPair) (msg : List Byte) : List Byte := pack ct.v ++ leBytes ct.c 2 ++ msg

/-- The pseudocode of ENCAPS (R225). The public key's seed field is not used (R135), and its scalars are taken by
value (R231). -/
def encapsRule (k : Collaborators) (st : State) : Except ErrorKind State :=
  let p := st.params
  let pkaddr := st.arg 0
  let pklen := st.arg 1
  let esaddr := st.arg 2
  let eslen := st.arg 3
  let maddr := st.arg 4
  let ctdst := st.arg 5
  let ssdst := st.arg 6
  if pklen ≠ pkLen p then .error .invalidKeyFormat
  else if eslen < 32 then .error .randomGeneration
  else if regionsOK p.dmemSize [⟨pkaddr, pkLen p⟩, ⟨esaddr, eslen⟩, ⟨maddr, p.seclen⟩, ⟨ctdst, ctLen p⟩,
      ⟨ssdst, p.seclen⟩] = false then .error .addressRange
  else
    let pk := st.dmem.readBytes pkaddr (pkLen p)
    let a := unpack pk (p.n * p.n)
    let b := unpack (pk.drop (p.n * p.n * 2)) p.n
    let msg := st.dmem.readBytes maddr p.seclen
    match encapsFn k p a b (st.dmem.readSeed esaddr) msg with
    | none => .error .encapsulation
    | some ct =>
      if unpackable (ct.c :: ct.v) then .error .encodeRange
      else
        .ok (st.setDmem
          ((st.dmem.writeBytes ctdst (ciphertextBytes ct msg)).writeBytes ssdst (digest k p msg)))

/-- ENCAPS (R225). -/
def execEncaps (s : State) : Host.Outcome State Fault Refusal := finish s (encapsRule Config.collab s)

/-! ### Decapsulation (R226, R227) -/

/-- `recovered = floor((m' + floor(SCALE / 2)) / SCALE)` (R226). -/
def unscale (p : Params) (m' : Nat) : Nat := (m' + scale p / 2) / scale p

/-- `m' = (c - v·s) mod Q` (R227). -/
def noisyMessage (p : Params) (s v : List Nat) (c : Nat) : Nat := submod p.q c (dot v s % p.q)

/-- `recovered` of R227. -/
def recovered (p : Params) (s v : List Nat) (c : Nat) : Nat := unscale p (noisyMessage p s v c)

/-- `decaps_fn(s, v, c, msg)` (R227): `none` is the failure `Decapsulation`. -/
def decapsFn (k : Collaborators) (p : Params) (s v : List Nat) (c : Nat) (msg : List Byte) :
    Option (List Byte) :=
  let r := recovered p s v c
  if 256 ^ p.seclen ≤ r ∨ leBytes r p.seclen ≠ msg then none else some (digest k p msg)

/-- The pseudocode of DECAPS (R228). The secret key's seed field is not used (R135). -/
def decapsRule (k : Collaborators) (st : State) : Except ErrorKind State :=
  let p := st.params
  let skaddr := st.arg 0
  let sklen := st.arg 1
  let ctaddr := st.arg 2
  let ctlen := st.arg 3
  let ssdst := st.arg 4
  if sklen ≠ skLen p then .error .invalidKeyFormat
  else if ctlen ≠ ctLen p then .error .invalidCiphertextFormat
  else if regionsOK p.dmemSize [⟨skaddr, skLen p⟩, ⟨ctaddr, ctLen p⟩, ⟨ssdst, p.seclen⟩] = false then
    .error .addressRange
  else
    let sk := st.dmem.readBytes skaddr (skLen p)
    let ct := st.dmem.readBytes ctaddr (ctLen p)
    let s := unpack sk p.n
    let v := unpack ct p.n
    let c := scalarAt ct (p.n * 2)
    let msg := (ct.drop (p.n * 2 + 2)).take p.seclen
    match decapsFn k p s v c msg with
    | none => .error .decapsulation
    | some ss => .ok (st.setDmem (st.dmem.writeBytes ssdst ss))

/-- DECAPS (R228). -/
def execDecaps (s : State) : Host.Outcome State Fault Refusal := finish s (decapsRule Config.collab s)

end Sys2Proof.Machine
end

