-- ==== Sys2Proof/Machine/Housekeeping.lean ====
section
/-! DEFINITION. Housekeeping: NOP and ZEROIZE (R250 to R252). -/

namespace Sys2Proof.Machine

/-- NOP (R250): the empty rule, so only STATUS changes. -/
def execNop (s : State) : Host.Outcome State Fault Refusal := finish s (.ok s)

/-- The pseudocode of ZEROIZE (R251): real writes of 0x00, all or none. -/
def zeroizeRule (s : State) : Except ErrorKind State :=
  let addr := s.arg 0
  let len := s.arg 1
  if regionsOK s.params.dmemSize [⟨addr, len⟩] = false then .error .addressRange
  else .ok (s.setDmem (s.dmem.writeBytes addr (List.replicate len 0)))

/-- ZEROIZE (R251). -/
def execZeroize (s : State) : Host.Outcome State Fault Refusal := finish s (zeroizeRule s)

end Sys2Proof.Machine
end

