-- ==== Sys2Proof/Machine/Dispatch.lean ====
section
/-! DEFINITION. The meaning of each command: the completion step of R93 for a decoded command word. -/

namespace Sys2Proof.Machine

def exec (i : Instr) (s : State) : Host.Outcome State Fault Refusal :=
  match i with
  | .nop => Sys2Proof.Machine.execNop s
  | .modadd => Sys2Proof.Machine.execModadd s
  | .modsub => Sys2Proof.Machine.execModsub s
  | .modmul => Sys2Proof.Machine.execModmul s
  | .encode => Sys2Proof.Machine.execEncode s
  | .decode => Sys2Proof.Machine.execDecode s
  | .rngseed => Sys2Proof.Machine.execRngseed s
  | .rngclr => Sys2Proof.Machine.execRngclr s
  | .sampleu => Sys2Proof.Machine.execSampleu s
  | .sampleg => Sys2Proof.Machine.execSampleg s
  | .randmat => Sys2Proof.Machine.execRandmat s
  | .randerr => Sys2Proof.Machine.execRanderr s
  | .keygen => Sys2Proof.Machine.execKeygen s
  | .encaps => Sys2Proof.Machine.execEncaps s
  | .decaps => Sys2Proof.Machine.execDecaps s
  | .zeroize => Sys2Proof.Machine.execZeroize s

end Sys2Proof.Machine
end

