-- ==== Sys2Proof/Machine/Completion.lean ====
section
/-! DEFINITION. The core's own move: the completion step of R93. -/

namespace Sys2Proof.Machine

/-- The completion step evaluates `decode(CMD)` (R93); an illegal word completes with `IllegalCommand` (R91). -/
def completion (s : State) : Host.Outcome State Fault Refusal :=
  match decode s.cmd with
  | .ok i => exec i s
  | .error _ => illegalCommand s

/-- The core's move: a command in flight completes, an idle core stays as it is (R92, R93). -/
def coreMove (s : State) : Host.Outcome State Fault Refusal :=
  if s.busy then completion s else .next s

/-- WAIT (R100): while BUSY = 1 the core moves and the host keeps waiting; then the line is over. Every command in
flight completes (R352). -/
def hostWait (waiting ended : State) : Host.Outcome State Fault Refusal :=
  if waiting.busy then completion waiting else .next ended

end Sys2Proof.Machine
end

