-- ==== Sys2Proof/Machine/HostBus.lean ====
section
/-! DEFINITION. The host's side of the interface: the register space (R28 to R31), DMEM accesses (R65), the protocol
violations that are refused (R71, U1), reset (R340), and the bus addresses of the two spaces (R28, R65). -/

namespace Sys2Proof.Machine

/-! ### The register space (R28) -/

/-- `ID` (R29). -/
def idWord : Word := 0x5A353132

/-- `VERSION` (R29). -/
def versionWord : Word := 0x00000001

/-- PARAM_SECLEN (R30); a `SECLEN` that 32 bits cannot hold reads a free value (log entry 7). -/
def seclenWord (p : Params) : Word :=
  if p.seclen < 2 ^ 32 then BitVec.ofNat 32 p.seclen else Config.wideSeclen p.seclen

/-- RNG_POS as the host sees it: 0 while RNG_VALID = 0 (R34). -/
def State.visiblePos (s : State) : BitVec 64 := if s.rngValid then s.rngPos else 0

/-- What a host read of register index `i` returns (R28); reserved indices read 0 (R31). -/
def State.regRead (s : State) (i : Fin 64) : Word :=
  match i.val with
  | 0x00 => idWord
  | 0x01 => versionWord
  | 0x02 => s.cmd
  | 0x03 => s.statusWord
  | 0x04 => s.args[0]
  | 0x05 => s.args[1]
  | 0x06 => s.args[2]
  | 0x07 => s.args[3]
  | 0x08 => s.args[4]
  | 0x09 => s.args[5]
  | 0x0A => s.args[6]
  | 0x0B => s.args[7]
  | 0x0C => s.res0
  | 0x0E => s.visiblePos.extractLsb' 0 32
  | 0x0F => s.visiblePos.extractLsb' 32 32
  | 0x10 => BitVec.ofNat 32 s.params.n
  | 0x11 => BitVec.ofNat 32 s.params.q
  | 0x12 => seclenWord s.params
  | 0x13 => s.params.sigma.extractLsb' 0 32
  | 0x14 => s.params.sigma.extractLsb' 32 32
  | 0x15 => BitVec.ofNat 32 s.params.dmemSize
  | _ => 0

/-- The register index of argument register `k`: 0x04 to 0x0B (R28). -/
def argIndex (k : Fin 8) : Fin 64 := ⟨4 + k.val, by omega⟩

/-- A register that hidden work may be using while BUSY = 1: ARG0 to ARG7, RES0, RNGPOS_LO, RNGPOS_HI (R71, U1). -/
def guardedIndex (i : Fin 64) : Bool :=
  (decide (4 ≤ i.val) && decide (i.val ≤ 12)) || (decide (i.val = 14) || decide (i.val = 15))

/-- What a host write of a register does while BUSY = 0 (R21, R25): CMD issues, ARG0 to ARG7 are written, and every
other index, read-only or reserved, ignores the write (R22, R26, R31). -/
def State.regWrite (s : State) (i : Fin 64) (v : Word) : State :=
  if i.val = 2 then s.issue v
  else if h : 4 ≤ i.val ∧ i.val < 12 then { s with args := s.args.set (i.val - 4) v }
  else s

/-- The value of a host read joins the model's record of replies (log entry 3). -/
def State.reply (s : State) (v : Word) : State := { s with replies := v :: s.replies }

/-- A host read of a register; a read of a guarded register while BUSY = 1 is refused (R71). -/
def hostRegRead (s : State) (i : Fin 64) : Host.Outcome State Fault Refusal :=
  if s.busy && guardedIndex i then .refused .hostAccessWhileBusy else .next (s.reply (s.regRead i))

/-- A host write of a register; while BUSY = 1 a write of CMD or of a guarded register is refused (R71, U1), and a
write of any other index changes nothing (R31; DEDUCED, log entry 4, unsafe). -/
def hostRegWrite (s : State) (i : Fin 64) (v : Word) : Host.Outcome State Fault Refusal :=
  if s.busy && (decide (i.val = 2) || guardedIndex i) then .refused .hostAccessWhileBusy
  else .next (s.regWrite i v)

/-! ### Host accesses to DMEM (R65) -/

/-- The bytes of an access unit. -/
def Width.bytes : Width → Nat
  | .one => 1
  | .two => 2
  | .four => 4

/-- A host read of DMEM: refused while BUSY = 1 (R71) and outside DMEM (R65), else the little-endian composition of
the bytes. -/
def hostDmemRead (s : State) (a : Nat) (w : Width) : Host.Outcome State Fault Refusal :=
  if s.busy then .refused .hostAccessWhileBusy
  else if s.params.dmemSize < a + w.bytes then .refused .dmemOutOfRange
  else .next (s.reply (BitVec.ofNat 32 (s.dmem.readLE a w.bytes)))

/-- A host write of DMEM, with the low bytes of `v`, byte 0 first. -/
def hostDmemWrite (s : State) (a : Nat) (w : Width) (v : Word) : Host.Outcome State Fault Refusal :=
  if s.busy then .refused .hostAccessWhileBusy
  else if s.params.dmemSize < a + w.bytes then .refused .dmemOutOfRange
  else .next (s.setDmem (s.dmem.writeLE a w.bytes v.toNat))

/-! ### Reset (R340) -/

/-- Reset: every piece of the core's state takes its value of R39; a command in flight is abandoned with no write.
The parameter set stays, being configuration, and the host keeps its remaining moves and the replies it has. -/
def hostReset (s : State) : Host.Outcome State Fault Refusal :=
  .next { State.reset with params := s.params, events := s.events, replies := s.replies }

/-! ### Bus addresses (R28, R65): no other definition reads them -/

/-- The bus address of register `i`: `REG_BASE + 4*i` (R28). -/
def registerBusAddress (i : Fin 64) : Nat := Config.regBase + 4 * i.val

/-- The bus address of DMEM byte `a`: `DMEM_BASE + a` (R65; DEDUCED, log entry 9, safe). -/
def dmemBusAddress (a : Nat) : Nat := Config.dmemBase + a

end Sys2Proof.Machine
end

