-- ==== Sys2Proof/Machine/Step.lean ====
section
/-! DEFINITION. One step of the run (R72): the next move of `State.events`, or the core's own move when no move is
listed. The core has no program counter and fetches nothing (R24): what runs is the word the host wrote to CMD. -/

namespace Sys2Proof.Machine

/-- One step. The move is taken off the list, except a WAIT that is not over. -/
def step (s : State) : Host.Outcome State Fault Refusal :=
  match s.events with
  | [] => coreMove s
  | .regRead i :: rest => hostRegRead { s with events := rest } i
  | .regWrite i v :: rest => hostRegWrite { s with events := rest } i v
  | .dmemRead a w :: rest => hostDmemRead { s with events := rest } a w
  | .dmemWrite a w v :: rest => hostDmemWrite { s with events := rest } a w v
  | .reset :: rest => hostReset { s with events := rest }
  | .core :: rest => coreMove { s with events := rest }
  | .wait :: rest => hostWait s { s with events := rest }

/-- The word is issued as a host write of CMD would (R92), and the core has the next move, so that the very next
step completes it (log entry 11). -/
def State.withFetchWord (s : State) (nbits w : Nat) : State :=
  { s.issue (BitVec.ofNat 32 (w % 2 ^ nbits)) with events := .core :: s.events }

end Sys2Proof.Machine
end

