-- ==== Sys2Proof/Machine/Script.lean ====
section
/-! DEFINITION. The host-script lines of R100 to R102, as lists of moves. A script is notation for host actions and
no feature of the core. -/

namespace Sys2Proof.Machine

/-- One script line (R100), or a pseudo-command (R101). EXPECT is not a host action and has no constructor. -/
inductive ScriptLine where
  | wr (k : Fin 8) (v : Word)
  | cmd (i : Instr)
  | cmdw (w : Word)
  | waitIdle
  | rd (i : Fin 64)
  | mw (a : Nat) (bs : List Byte)
  | mr (a n : Nat)
  | pseudo (i : Instr) (operands : List Word)
deriving DecidableEq, Repr

/-- A pseudo-command has the operands of its row (R101); every other line is well formed. -/
def ScriptLine.wf : ScriptLine → Bool
  | .pseudo i operands => pseudoOk i operands
  | _ => true

/-- Writes of successive argument registers from ARG0 up. -/
def argWrites (operands : List Word) : List Event :=
  ((List.finRange 8).zip operands).map fun (k, v) => .regWrite (argIndex k) v

/-- The moves of a line (R100, R101). -/
def ScriptLine.moves : ScriptLine → List Event
  | .wr k v => [.regWrite (argIndex k) v]
  | .cmd i => [.regWrite 2 (encode i)]
  | .cmdw w => [.regWrite 2 w]
  | .waitIdle => [.wait]
  | .rd i => [.regRead i]
  | .mw a bs => bs.mapIdx fun j b => .dmemWrite (a + j) .one (b.setWidth 32)
  | .mr a n => (List.range n).map fun j => .dmemRead (a + j) .one
  | .pseudo i operands => argWrites operands ++ [.regWrite 2 (encode i), .wait]

/-- The host's moves of a script, line after line (R100). They hold no move of the core: when it completes is the
schedule's (`State.running`). -/
def scriptMoves (script : List ScriptLine) : List Event := script.flatMap ScriptLine.moves

/-- The command words of a script in issue order (R102). -/
def ScriptLine.words : ScriptLine → List Word
  | .cmd i => [encode i]
  | .cmdw w => [w]
  | .pseudo i _ => [encode i]
  | _ => []

/-- The moves of the host with moves of the core put before them: `schedule[j]` of them before host move `j`. R93 leaves
open when the core completes, and every time of completion is some schedule, because a move of an idle core changes
nothing (DESIGN CHOICE, log entry 13, safe). -/
def withCoreMoves : List Nat → List Event → List Event
  | [], es => es
  | _ :: _, [] => []
  | n :: schedule, e :: es => List.replicate n .core ++ e :: withCoreMoves schedule es

/-- The host starts a script on a core that completes by the given schedule. Where the schedule lists no move, a command
in flight completes at a WAIT or after the last line, which is the model's choice (log entry 13). -/
def State.running (s : State) (script : List ScriptLine) (schedule : List Nat) : State :=
  { s with events := s.events ++ withCoreMoves schedule (scriptMoves script) }

end Sys2Proof.Machine
end

