-- ==== Sys2Proof/Machine/HostSoftware.lean ====
section
/-! DEFINITION. The software around the block (45_host_software.md): the façade as host scripts (R260), fragments of
byte buffers (R263 to R267) and the fragmented KEM (R268 to R271), as pure functions. They bind the host; no command
of the core implements them. -/

namespace Sys2Proof.Machine

/-! ### The façade (R260, R349) -/

/-- `keygen()` on the core: write the 32-byte seed, issue KEYGEN, read both keys (R260). -/
def keygenScript (p : Params) (seed : Seed) (saddr pkaddr skaddr : Nat) : List ScriptLine :=
  [.mw saddr seed.toList,
   .pseudo .keygen [BitVec.ofNat 32 saddr, 32, BitVec.ofNat 32 pkaddr, BitVec.ofNat 32 skaddr],
   .rd 3, .mr pkaddr (pkLen p), .mr skaddr (skLen p)]

/-- `encapsulate(pk)` on the core, with the host's ephemeral seed (R261) and message (R262). -/
def encapsScript (p : Params) (pk : List Byte) (eseed : Seed) (msg : List Byte)
    (pkaddr esaddr maddr ctaddr ssaddr : Nat) : List ScriptLine :=
  [.mw pkaddr pk, .mw esaddr eseed.toList, .mw maddr msg,
   .pseudo .encaps [BitVec.ofNat 32 pkaddr, BitVec.ofNat 32 pk.length, BitVec.ofNat 32 esaddr, 32,
     BitVec.ofNat 32 maddr, BitVec.ofNat 32 ctaddr, BitVec.ofNat 32 ssaddr],
   .rd 3, .mr ctaddr (ctLen p), .mr ssaddr p.seclen]

/-- `decapsulate(sk, ct)` on the core (R260). -/
def decapsScript (p : Params) (sk ct : List Byte) (skaddr ctaddr ssaddr : Nat) : List ScriptLine :=
  [.mw skaddr sk, .mw ctaddr ct,
   .pseudo .decaps [BitVec.ofNat 32 skaddr, BitVec.ofNat 32 sk.length, BitVec.ofNat 32 ctaddr,
     BitVec.ofNat 32 ct.length, BitVec.ofNat 32 ssaddr],
   .rd 3, .mr ssaddr p.seclen]

/-- The host's duty on release (R349): erase a region, and the RNG context. -/
def releaseScript (addr len : Nat) : List ScriptLine :=
  [.pseudo .zeroize [BitVec.ofNat 32 addr, BitVec.ofNat 32 len], .pseudo .rngclr []]

/-! ### Typed containers (R260) -/

/-- "typed, length-validated Public/Secret Key and Ciphertext containers" (R260, R134): byte strings of the exact
length. -/
abbrev PublicKey (p : Params) := Vector Byte (pkLen p)

/-- The secret-key container (R260). -/
abbrev SecretKey (p : Params) := Vector Byte (skLen p)

/-- The ciphertext container (R260). -/
abbrev Ciphertext (p : Params) := Vector Byte (ctLen p)

/-- A message, a digest or a shared secret: `SECLEN` bytes (R222, R133). -/
abbrev SecretBytes (p : Params) := Vector Byte p.seclen

/-- What the host gets from one component operation: its result, or an error kind. -/
abbrev Component (α : Type) := Except ErrorKind α

/-- The length validation of a container (R134): the error is the one of the container's kind. -/
def lengthValidated (len : Nat) (wrong : ErrorKind) (bytes : List Byte) : Component (Vector Byte len) :=
  if h : bytes.length = len then .ok ⟨bytes.toArray, by simpa using h⟩ else .error wrong

/-- The host reads exactly `len` bytes of what the core wrote. -/
def readExactly (len : Nat) (bytes : List Byte) : Vector Byte len := Vector.ofFn fun i => bytes.getD i.val 0

/-- One of a list of possible answers, `e` and `es`, by a free position. -/
def chosen {α : Type} (pick : Nat) (e : α) (es : List α) : α := (e :: es).getD (pick % (es.length + 1)) e

/-! ### Fragments (R263 to R267) -/

/-- The host's fragment constants (R265), which have no value in the source (N10). A piece holds at least one byte,
and every index and total fits the u32 of R263 (DEDUCED, log entry 10, safe). -/
structure FragmentParams where
  fragmentSize : Nat
  minFragments : Nat
  maxFragments : Nat
  size_ok : 1 ≤ fragmentSize
  max_ok : maxFragments < 2 ^ 32
deriving DecidableEq, Repr

/-- A fragment (R263). -/
structure Fragment where
  index : Word
  total : Word
  data : List Byte
  hash : List Byte
deriving DecidableEq, Repr

/-- `verify()`: the Fragment invariant `hash == digest(data)` (R263, R267). -/
def Fragment.verify (k : Collaborators) (p : Params) (f : Fragment) : Bool :=
  decide (f.hash = digest k p f.data)

/-- The wire field `data_len` (R264). For data of `2^32` bytes or more, which the field cannot count and N10 does not
exclude, it is a free value (DESIGN CHOICE, log entry 14, safe). -/
def dataLenWord (len : Nat) : Word := if len < 2 ^ 32 then BitVec.ofNat 32 len else Config.wideDataLen len

/-- The wire format (R264). -/
def Fragment.wire (f : Fragment) : List Byte :=
  leBytes f.index.toNat 4 ++ leBytes f.total.toNat 4 ++ leBytes (dataLenWord f.data.length).toNat 4 ++ f.data ++ f.hash

/-- `ceil(L / FRAGMENT_SIZE)` (R265). -/
def fragmentCount (fp : FragmentParams) (len : Nat) : Nat := (len + fp.fragmentSize - 1) / fp.fragmentSize

/-- `fragment_data` (R265); `none` is `FragmentationError`. -/
def fragmentData (k : Collaborators) (p : Params) (fp : FragmentParams) (bytes : List Byte) :
    Option (List Fragment) :=
  let total := fragmentCount fp bytes.length
  if bytes = [] ∨ fp.maxFragments < total then none
  else
    some ((List.range total).map fun i =>
      let piece := (bytes.drop (i * fp.fragmentSize)).take fp.fragmentSize
      { index := BitVec.ofNat 32 i, total := BitVec.ofNat 32 total, data := piece, hash := digest k p piece })

/-- The data of the fragment with a given index, if there is one. -/
def dataAt (fs : List Fragment) (i : Nat) : List Byte :=
  match fs.find? fun f => decide (f.index.toNat = i) with
  | some f => f.data
  | none => []

/-- All share one `total`, and it is their number (R266; "fragment-count mismatch", R274). -/
def countsAgree (fs : List Fragment) : Bool := fs.all fun f => decide (f.total.toNat = fs.length)

/-- The indices are exactly `0` to `total - 1`, each once (R266). -/
def coversAll (fs : List Fragment) (total : Nat) : Bool :=
  decide (fs.length = total) &&
    (List.range total).all fun i => fs.any fun f => decide (f.index.toNat = i)

/-- The mismatches of a list of fragments (R266). With fragments too few, too many or of different totals the indices
do not cover every total either, so both are listed; which one is named is the free value's (log entry 10). -/
def mismatches (k : Collaborators) (p : Params) (fs : List Fragment) : List Mismatch :=
  (if countsAgree fs then [] else [.count]) ++
    (if fs.all fun f => coversAll fs f.total.toNat then [] else [.index]) ++
    (if fs.all (Fragment.verify k p) then [] else [.hash])

/-- `reconstruct_data` (R266): the data in index order, or a `FragmentationError` naming a mismatch. The answer for an
empty list, and which of several mismatches is named, are free values (N11, log entry 10). -/
def reconstructData (k : Collaborators) (p : Params) (fs : List Fragment) : Except Mismatch (List Byte) :=
  match fs with
  | [] => Config.reconstructEmpty
  | _ :: _ =>
    match mismatches k p fs with
    | [] => .ok ((List.range fs.length).flatMap (dataAt fs))
    | e :: es => .error (chosen (Config.whichMismatch (e :: es)) e es)

/-! ### Containers of K components (R268) -/

/-- The bounds `MIN_FRAGMENTS ≤ K ≤ MAX_FRAGMENTS` (R268). -/
def fragmentBounds (fp : FragmentParams) (count : Nat) : Bool :=
  decide (fp.minFragments ≤ count) && decide (count ≤ fp.maxFragments)

/-- An ordered sequence of K components of `len` bytes each. K out of bounds, or a component of a wrong length, makes
no term of this type: "never partially valid" (R268). -/
structure Fragmented (fp : FragmentParams) (len : Nat) where
  parts : List (Vector Byte len)
  count_ok : fragmentBounds fp parts.length = true
deriving DecidableEq, Repr

/-- `FragmentedPublicKey` (R268, R269). -/
abbrev FragmentedPublicKey (fp : FragmentParams) (p : Params) := Fragmented fp (pkLen p)

/-- `FragmentedSecretKey` (R268, R269). -/
abbrev FragmentedSecretKey (fp : FragmentParams) (p : Params) := Fragmented fp (skLen p)

/-- `FragmentedCiphertext` (R268, R270). -/
abbrev FragmentedCiphertext (fp : FragmentParams) (p : Params) := Fragmented fp (ctLen p)

/-- Construction (R268): a number of components out of bounds is "rejected at construction", the "fragment-count bound
violation" of R274. -/
def makeFragmented {len : Nat} (fp : FragmentParams) (parts : List (Vector Byte len)) : Component (Fragmented fp len) :=
  if h : fragmentBounds fp parts.length = true then .ok ⟨parts, h⟩ else .error .fragmentationError

/-! ### The fragmented KEM (R269 to R271) -/

/-- Whether a component failed. -/
def componentFailed {α : Type} : Component α → Bool
  | .ok _ => false
  | .error _ => true

/-- The results, as far as there are any. -/
def componentResults {α : Type} (rs : List (Component α)) : List α :=
  rs.filterMap fun
    | .ok x => some x
    | .error _ => none

/-- The errors, in fragment order. -/
def componentErrors {α : Type} (rs : List (Component α)) : List ErrorKind :=
  rs.filterMap fun
    | .ok _ => none
    | .error e => some e

/-- All components, or the error of one that failed: "there is no partial-success mode" (R271). The spec does not say
whose error propagates when several fail: a free value picks one of them (DESIGN CHOICE, log entry 15, safe). -/
def allComponents {α : Type} (rs : List (Component α)) : Component (List α) :=
  match componentErrors rs with
  | [] => .ok (componentResults rs)
  | e :: es => .error (chosen (Config.whichFailure (rs.map componentFailed)) e es)

/-- `keygen()` on one component (R260): the key pair the core writes for a seed, or `EncodeRange` (R213). -/
def componentKeygen (k : Collaborators) (p : Params) (seed : Seed) : Component (PublicKey p × SecretKey p) :=
  let m := keygenFn k p seed
  if unpackable (m.a ++ m.b ++ m.s) then .error .encodeRange
  else .ok (readExactly (pkLen p) (publicKeyBytes m seed), readExactly (skLen p) (secretKeyBytes m seed))

/-- `keygen(K)` (R269), with an independent seed for each component. -/
def fragmentedKeygen (k : Collaborators) (p : Params) (fp : FragmentParams) (count : Nat) (seeds : Nat → Seed) :
    Component (FragmentedPublicKey fp p × FragmentedSecretKey fp p) :=
  if fragmentBounds fp count then
    match allComponents ((List.range count).map fun j => componentKeygen k p (seeds j)) with
    | .error e => .error e
    | .ok keys =>
      match makeFragmented fp (keys.map Prod.fst), makeFragmented fp (keys.map Prod.snd) with
      | .ok fpk, .ok fsk => .ok (fpk, fsk)
      | .error e, _ => .error e
      | .ok _, .error e => .error e
  else .error .fragmentationError

/-- The combined secret: `HASH(ss_1 ‖ ... ‖ ss_K)`, concatenation in fragment order, then one hash (R270). -/
def combineSecrets (k : Collaborators) (p : Params) (secrets : List (SecretBytes p)) : SecretBytes p :=
  k.hash p.seclen (secrets.flatMap Vector.toList)

/-- `encapsulate` on one component (R260): the ciphertext and the secret the core writes, or its error (R225). The
lengths are right by type. -/
def componentEncaps (k : Collaborators) (p : Params) (pk : PublicKey p) (eseed : Seed) (msg : SecretBytes p) :
    Component (Ciphertext p × SecretBytes p) :=
  match encapsFn k p (unpack pk.toList (p.n * p.n)) (unpack (pk.toList.drop (p.n * p.n * 2)) p.n) eseed msg.toList with
  | none => .error .encapsulation
  | some ct =>
    if unpackable (ct.c :: ct.v) then .error .encodeRange
    else .ok (readExactly (ctLen p) (ciphertextBytes ct msg.toList), readExactly p.seclen (digest k p msg.toList))

/-- Fragmented `encapsulate` (R270): the ciphertexts in order, and the combined secret. `draws j` is the ephemeral seed
and the message of component `j`. -/
def fragmentedEncaps (k : Collaborators) (p : Params) (fp : FragmentParams) (fpk : FragmentedPublicKey fp p)
    (draws : Nat → Seed × SecretBytes p) : Component (FragmentedCiphertext fp p × SecretBytes p) :=
  match allComponents (fpk.parts.mapIdx fun j pk => componentEncaps k p pk (draws j).1 (draws j).2) with
  | .error e => .error e
  | .ok rs =>
    match makeFragmented fp (rs.map Prod.fst) with
    | .ok fct => .ok (fct, combineSecrets k p (rs.map Prod.snd))
    | .error e => .error e

/-- `decapsulate` on one component (R260): the secret the core recovers, or its error (R228). The lengths are right by
type. -/
def componentDecaps (k : Collaborators) (p : Params) (sk : SecretKey p) (ct : Ciphertext p) :
    Component (SecretBytes p) :=
  match decapsFn k p (unpack sk.toList p.n) (unpack ct.toList p.n) (scalarAt ct.toList (p.n * 2))
      (ct.toList.drop (p.n * 2 + 2)) with
  | none => .error .decapsulation
  | some ss => .ok (readExactly p.seclen ss)

/-- Fragmented `decapsulate` (R271): equal counts, every component succeeds, then the combined secret. -/
def fragmentedDecaps (k : Collaborators) (p : Params) (fp : FragmentParams) (fsk : FragmentedSecretKey fp p)
    (fct : FragmentedCiphertext fp p) : Component (SecretBytes p) :=
  if fsk.parts.length ≠ fct.parts.length then .error .fragmentationError
  else
    match allComponents (List.zipWith (componentDecaps k p) fsk.parts fct.parts) with
    | .error e => .error e
    | .ok secrets => .ok (combineSecrets k p secrets)

end Sys2Proof.Machine
end

