-- ==== Sys2Proof/Machine/Platform.lean ====
section
/-! DEFINITION. Several cores on one platform (R272, R322): the product of one-core machines, which share nothing. -/

namespace Sys2Proof.Machine

/-- Core `k` takes a step; the others stay as they are (R322). A platform without a core `k` has no such step and
stays as it is. -/
def platformStep (k : Nat) (cores : List State) : Host.Outcome (List State) Fault Refusal :=
  match cores[k]? with
  | none => .next cores
  | some s =>
    match step s with
    | .next t => .next (cores.set k t)
    | .fault r => .fault r
    | .refused r => .refused r

/-- A schedule of steps, by core number, until one stops. -/
def platformRun : List Nat → List State → Host.Outcome (List State) Fault Refusal
  | [], cores => .next cores
  | k :: rest, cores =>
    match platformStep k cores with
    | .next cores' => platformRun rest cores'
    | .fault r => .fault r
    | .refused r => .refused r

end Sys2Proof.Machine
end

