-- ==== Sys2Proof/Machine/Reduction.lean ====
section
/-! DEFINITION. The two reduction datapaths the block is named after (section 4 of 41_modular_arithmetic.md, G1 and
G2). They are refinements of `mulmod` and no part of the architecture (R2, R157): no command calls them. -/

namespace Sys2Proof.Machine

/-- `mu = floor(2^(2k) / Q)`. -/
def barrettMu (q k : Nat) : Nat := 2 ^ (2 * k) / q

/-- Barrett's estimate of the quotient. -/
def barrettQuotient (q k x : Nat) : Nat := x * barrettMu q k / 2 ^ (2 * k)

/-- Barrett reduction of `x`: the estimate, and at most one subtraction. -/
def barrettReduce (q k x : Nat) : Nat :=
  let r := x - barrettQuotient q k x * q
  if q ≤ r then r - q else r

/-- A multiplier that reduces by Barrett. -/
def barrettMul (q k a b : Nat) : Nat := barrettReduce q k (a * b)

/-- The constants of a Montgomery datapath for `Q`, with `R = 2^w`. -/
structure Montgomery where
  q : Nat
  w : Nat
  /-- `(-Q^(-1)) mod R`. -/
  qp : Nat
  /-- `R^2 mod Q`. -/
  r2 : Nat
deriving DecidableEq, Repr

/-- The constants are right: `Q` odd, `R > Q`, `qp * Q = -1` modulo `R`, `r2 = R^2` modulo `Q`. -/
def Montgomery.ok (m : Montgomery) : Bool :=
  decide (m.q % 2 = 1) && decide (m.q < 2 ^ m.w) && decide ((m.qp * m.q + 1) % 2 ^ m.w = 0) &&
    decide (m.r2 = 2 ^ m.w * 2 ^ m.w % m.q)

/-- `REDC(T)`: for `T < R * Q`, the residue of `T * R^(-1)`. -/
def Montgomery.redc (m : Montgomery) (t : Nat) : Nat :=
  let mm := t % 2 ^ m.w * m.qp % 2 ^ m.w
  let u := (t + mm * m.q) / 2 ^ m.w
  if m.q ≤ u then u - m.q else u

/-- A multiplier of plain residues: `REDC(REDC(a * b) * R2)`. -/
def Montgomery.mul (m : Montgomery) (a b : Nat) : Nat := m.redc (m.redc (a * b) * m.r2)

end Sys2Proof.Machine
end

