-- ==== Sys2Proof/Safety.lean ====
section
/-! DEFINITION. What counts as a safe state and a safe run, in the terms the statements use. -/

namespace Sys2Proof.Machine

/-- The invariant of the core, which holds at reset and which every step keeps. -/
structure State.Inv (s : State) : Prop where
  /-- DMEM keeps its canonical form. -/
  memWf : s.dmem.wf
  /-- No byte is held at an address DMEM does not have (R60). -/
  memWithin : s.dmem.within s.params.dmemSize
  /-- "`BUSY` and `DONE` are never both 1" (R27). -/
  notBusyAndDone : ¬(s.busy = true ∧ s.done = true)
  /-- ERR is 1 only after a completed command (R26, R27). -/
  errDone : s.err = true → s.done = true
  /-- ERRCODE is 0 unless ERR = 1 (R26). -/
  codeOfNoError : s.err = false → s.errcode = 0
  /-- ERRCODE holds a code that some command produces when ERR = 1 (R301). -/
  codeOfError : s.err = true → s.errcode ∈ producedCodes
  /-- Without a valid context no seed and no position is held (R33, R39, R184). -/
  noContext : s.rngValid = false → s.rngSeed = Vector.replicate 32 0 ∧ s.rngPos = 0

/-- The state after a command that completes without error and makes no other write: BUSY 0, DONE 1 (R93). -/
def State.afterSuccess (s : State) : State := { s with busy := false, done := true }

/-- The state after a command that completes with the error of a code (R306): BUSY 0, DONE 1, ERR 1, ERRCODE the
code, and nothing else changed. -/
def State.afterError (s : State) (code : Byte) : State :=
  { s with busy := false, done := true, err := true, errcode := code }

/-- Address `a` is one of the `len` bytes from `addr` up. -/
abbrev inBytes (addr len a : Nat) : Prop := addr ≤ a ∧ a < addr + len

/-- Every byte of memory outside the given regions reads in `t` as it does in `s`. -/
def sameOutside (rs : List Region) (s t : State) : Prop :=
  ∀ a, (∀ r ∈ rs, ¬inBytes r.addr r.len a) → t.dmem.read a = s.dmem.read a

/-- Everything but DMEM, RES0, the RNG context and STATUS is the same in both states: the command latch, the argument
registers, the parameters, the host's moves and replies. -/
def sameHostSide (s t : State) : Prop :=
  t.cmd = s.cmd ∧ t.args = s.args ∧ t.params = s.params ∧ t.events = s.events ∧ t.replies = s.replies

/-- The RNG context is the same in both states. -/
def sameRng (s t : State) : Prop :=
  t.rngValid = s.rngValid ∧ t.rngSeed = s.rngSeed ∧ t.rngPos = s.rngPos

/-! ### The values of binary64 words, for the statements about the sampler's arithmetic -/

/-- The exact value of a finite binary64 word; 0 for the others, of which nothing is said through this. -/
def F64Val.rat : F64Val → ℚ
  | .nan => 0
  | .inf _ => 0
  | .fin neg m e => (if neg then -1 else 1) * m * (2 : ℚ) ^ e

/-- Neither a NaN nor an infinity. -/
def F64Val.isFinite : F64Val → Bool
  | .nan => false
  | .inf _ => false
  | .fin _ _ _ => true

/-- `r` is `x` correctly rounded to binary64, to nearest, ties to even (R178, G4; IEEE 754). A finite `r` is at least as
near as every finite binary64 value, and where another value is as near, the last bit of `r` is 0. It is infinite
exactly when `|x|` reaches the midpoint above the largest finite value. -/
def roundsTo (x : ℝ) (r : F64) : Prop :=
  match f64Val r with
  | .nan => False
  | .inf neg => 2 ^ 1024 - 2 ^ 970 ≤ |x| ∧ (neg = true ↔ x < 0)
  | .fin neg m e =>
    |x| < 2 ^ 1024 - 2 ^ 970 ∧ ∀ z : F64, (f64Val z).isFinite = true →
      |x - ((F64Val.fin neg m e).rat : ℝ)| ≤ |x - ((f64Val z).rat : ℝ)| ∧
      (|x - ((F64Val.fin neg m e).rat : ℝ)| = |x - ((f64Val z).rat : ℝ)| →
        (f64Val z).rat = (F64Val.fin neg m e).rat ∨ r.getLsbD 0 = false)

/-- A step that goes on: neither a fault nor a refusal. -/
def State.goesOn (s : State) : Prop := ∃ t, step s = .next t

/-- States a run can reach, from reset of a core with any parameter set and any moves to come. -/
inductive State.Reachable : State → Prop
  | start (p : Params) (moves : List Event) :
      State.Reachable { State.reset with params := p, events := moves }
  | next {s t : State} : State.Reachable s → step s = .next t → State.Reachable t

end Sys2Proof.Machine
end

