-- ==== Sys2Proof/Certificates/Slice0/Obligations.lean ====
section
/-! DEFINITION. The statements for the provers, by the files of the spec. `s.arg k` is argument register `k` as a
natural number (R94); `s.afterSuccess` and `s.afterError code` are the two completions (R93, R306). -/

open Sys2Proof Sys2Proof.Machine

/-! ### Decoding, issue and completion (30_encoding.md) -/

/-- R96: the sixteen command words, written out, decode to their commands, and a few neighbours do not decode. -/
def Obligations.ListedWordsDecodeToTheirCommands : Prop :=
  (decode 0x00000000 = .ok .nop ∧ decode 0x00000001 = .ok .modadd ∧ decode 0x00000002 = .ok .modsub ∧
    decode 0x00000003 = .ok .modmul ∧ decode 0x00000010 = .ok .encode ∧ decode 0x00000011 = .ok .decode ∧
    decode 0x00000020 = .ok .rngseed ∧ decode 0x00000021 = .ok .rngclr ∧ decode 0x00000022 = .ok .sampleu ∧
    decode 0x00000023 = .ok .sampleg ∧ decode 0x00000024 = .ok .randmat ∧ decode 0x00000025 = .ok .randerr ∧
    decode 0x00000030 = .ok .keygen ∧ decode 0x00000031 = .ok .encaps ∧ decode 0x00000032 = .ok .decaps ∧
    decode 0x00000040 = .ok .zeroize) ∧
  decode 0x00000004 = .error .unlistedOpcode ∧ decode 0x00000101 = .error .reservedBits

/-- R91: a word decodes to a command exactly when it is that command's word, so no bit of a word is ignored and no
word has two meanings. -/
def Obligations.DecodeAcceptsExactlyTheCommandWords : Prop :=
  ∀ (w : Word) (i : Instr), decode w = .ok i ↔ w = encode i

/-- R97: every word with a bit of `ZERO` set, and every word of the 240 unlisted opcodes, completes with
`IllegalCommand` (code 0x10) and changes nothing else, whether the core's move is listed, is the only one left, or is
made while the host waits. The list of moves is the model's own (log entry 3). -/
def Obligations.IllegalWordsCompleteWithIllegalCommand : Prop :=
  ∀ s : State, s.busy = true →
    (0x100 ≤ s.cmd.toNat ∨ (0x04 ≤ s.cmd.toNat ∧ s.cmd.toNat ≤ 0x0F) ∨ (0x12 ≤ s.cmd.toNat ∧ s.cmd.toNat ≤ 0x1F) ∨
      (0x26 ≤ s.cmd.toNat ∧ s.cmd.toNat ≤ 0x2F) ∨ (0x33 ≤ s.cmd.toNat ∧ s.cmd.toNat ≤ 0x3F) ∨
      (0x41 ≤ s.cmd.toNat ∧ s.cmd.toNat ≤ 0xFF)) →
    (s.events = [] → step s = .next (s.afterError 0x10)) ∧
    (∀ rest, s.events = .core :: rest → step s = .next (State.afterError { s with events := rest } 0x10)) ∧
    (∀ rest, s.events = .wait :: rest → step s = .next (s.afterError 0x10))

/-- R93: with BUSY = 1 the core's move is the meaning of the decoded command, whether the move is listed, is the only
one left, or is made while the host waits; a move of an idle core changes nothing, and a WAIT on an idle core is over.
The list of moves is the model's own (log entry 3). -/
def Obligations.StepRunsTheDecodedCommand : Prop :=
  (∀ (s : State) (i : Instr), s.busy = true → decode s.cmd = .ok i →
    (s.events = [] → step s = exec i s) ∧
    (∀ rest, s.events = .core :: rest → step s = exec i { s with events := rest }) ∧
    (∀ rest, s.events = .wait :: rest → step s = exec i s)) ∧
  (∀ s : State, s.busy = false →
    (s.events = [] → step s = .next s) ∧
    (∀ rest, s.events = .core :: rest → step s = .next { s with events := rest }) ∧
    (∀ rest, s.events = .wait :: rest → step s = .next { s with events := rest }))

/-- R92: a host write of CMD while BUSY = 0 latches the word, sets BUSY, clears DONE, ERR and ERRCODE, and changes
nothing else. -/
def Obligations.IssueLatchesTheWordAndSetsBusy : Prop :=
  ∀ (s : State) (w : Word) (rest : List Event), s.busy = false → s.events = .regWrite 2 w :: rest →
    step s = .next { s with
      events := rest, cmd := w, busy := true, done := false, err := false, errcode := 0x00 }

/-! ### Registers and DMEM as the host sees them (10_state.md, 20_memory.md) -/

/-- R21: the host writes and reads ARG0 to ARG7 while BUSY = 0, and a write changes that register alone. R22: a read of
RES0 while BUSY = 0 returns it. R25, R70: a read of CMD, at any time, returns the latched word. -/
def Obligations.HostWritesAndReadsArgumentRegisters : Prop :=
  (∀ (s : State) (k : Fin 8) (rest : List Event), s.busy = false →
    (∀ v, s.events = .regWrite (argIndex k) v :: rest →
      ∃ t, step s = .next t ∧ t = { s with events := rest, args := t.args } ∧ t.args[k] = v ∧
        ∀ j : Fin 8, j ≠ k → t.args[j] = s.args[j]) ∧
    (s.events = .regRead (argIndex k) :: rest →
      step s = .next { s with events := rest, replies := s.args[k] :: s.replies }) ∧
    (s.events = .regRead 0x0C :: rest → step s = .next { s with events := rest, replies := s.res0 :: s.replies })) ∧
  ∀ (s : State) (rest : List Event), s.events = .regRead 0x02 :: rest →
    step s = .next { s with events := rest, replies := s.cmd :: s.replies }

/-- R31: a reserved index (0x0D, 0x16 to 0x3F) and a reserved bit of STATUS read 0; while BUSY = 0 a write to a
reserved or read-only index (all but CMD and ARG0 to ARG7) changes nothing. That a reserved index is also read while
BUSY = 1, which R70 and R346 do not allow the host, is the model's choice (log entry 4); of such a write while BUSY = 1
the statement says nothing. -/
def Obligations.ReservedRegistersReadZeroAndIgnoreWrites : Prop :=
  (∀ (s : State) (i : Fin 64) (rest : List Event), i.val = 0x0D ∨ 0x16 ≤ i.val → s.events = .regRead i :: rest →
    step s = .next { s with events := rest, replies := 0 :: s.replies }) ∧
  (∀ (s : State) (j : Nat), (4 ≤ j ∧ j ≤ 7) ∨ 16 ≤ j → (s.statusWord).getLsbD j = false) ∧
  (∀ (s : State) (i : Fin 64) (v : Word) (rest : List Event), s.busy = false → i.val ≠ 2 →
    ¬(4 ≤ i.val ∧ i.val ≤ 11) → s.events = .regWrite i v :: rest → step s = .next { s with events := rest })

/-- R26: a read of STATUS, at any time, returns BUSY, DONE, ERR, RNG_VALID in bits 0 to 3 and ERRCODE in bits 15:8. -/
def Obligations.StatusReadsItsFields : Prop :=
  ∀ (s : State) (rest : List Event), s.events = .regRead 3 :: rest →
    ∃ v : Word, step s = .next { s with events := rest, replies := v :: s.replies } ∧
      v.toNat = s.busy.toNat + 2 * s.done.toNat + 4 * s.err.toNat + 8 * s.rngValid.toNat + 256 * s.errcode.toNat

/-- R29: ID reads 0x5A353132 and VERSION reads 0x00000001, at any time. -/
def Obligations.IdentificationRegistersReadTheirConstants : Prop :=
  ∀ (s : State) (rest : List Event),
    (s.events = .regRead 0 :: rest →
      step s = .next { s with events := rest, replies := 0x5A353132 :: s.replies }) ∧
    (s.events = .regRead 1 :: rest →
      step s = .next { s with events := rest, replies := 0x00000001 :: s.replies })

/-- R30: the parameter registers read the parameters, at any time, also while BUSY = 1. For a `SECLEN` that 32 bits
cannot hold the read is a free value of the model (log entry 7), and this statement says nothing of it. -/
def Obligations.ParameterRegistersReadTheParameters : Prop :=
  ∀ (s : State) (i : Fin 64) (rest : List Event), s.events = .regRead i :: rest → 0x10 ≤ i.val → i.val ≤ 0x15 →
    ∃ v : Word, step s = .next { s with events := rest, replies := v :: s.replies } ∧
      (i.val = 0x10 → v.toNat = s.params.n) ∧ (i.val = 0x11 → v.toNat = s.params.q) ∧
      (i.val = 0x12 → s.params.seclen < 2 ^ 32 → v.toNat = s.params.seclen) ∧
      (i.val = 0x13 → v.toNat = s.params.sigma.toNat % 2 ^ 32) ∧
      (i.val = 0x14 → v.toNat = s.params.sigma.toNat / 2 ^ 32) ∧
      (i.val = 0x15 → v.toNat = s.params.dmemSize)

/-- R34: RNGPOS_LO and RNGPOS_HI read the halves of RNG_POS, and 0 while RNG_VALID = 0. -/
def Obligations.RngPositionReadsInTwoHalves : Prop :=
  ∀ (s : State) (rest : List Event), s.busy = false →
    (s.events = .regRead 0x0E :: rest →
      ∃ v : Word, step s = .next { s with events := rest, replies := v :: s.replies } ∧
        v.toNat = if s.rngValid then s.rngPos.toNat % 2 ^ 32 else 0) ∧
    (s.events = .regRead 0x0F :: rest →
      ∃ v : Word, step s = .next { s with events := rest, replies := v :: s.replies } ∧
        v.toNat = if s.rngValid then s.rngPos.toNat / 2 ^ 32 else 0)

/-- R71: while BUSY = 1 a write of CMD, a read or write of ARG0 to ARG7, a read of RES0, RNGPOS_LO or RNGPOS_HI, and
every access to DMEM are refused. -/
def Obligations.AccessesWhileBusyAreRefused : Prop :=
  ∀ (s : State) (rest : List Event), s.busy = true →
    (∀ w, s.events = .regWrite 2 w :: rest → step s = .refused .hostAccessWhileBusy) ∧
    (∀ (k : Fin 8) (v : Word), s.events = .regWrite (argIndex k) v :: rest → step s = .refused .hostAccessWhileBusy) ∧
    (∀ k : Fin 8, s.events = .regRead (argIndex k) :: rest → step s = .refused .hostAccessWhileBusy) ∧
    (∀ i : Fin 64, i.val = 0x0C ∨ i.val = 0x0E ∨ i.val = 0x0F → s.events = .regRead i :: rest →
      step s = .refused .hostAccessWhileBusy) ∧
    (∀ a w, s.events = .dmemRead a w :: rest → step s = .refused .hostAccessWhileBusy) ∧
    (∀ a w v, s.events = .dmemWrite a w v :: rest → step s = .refused .hostAccessWhileBusy)

/-- R65, R62: while BUSY = 0 a host access of 1, 2 or 4 bytes inside DMEM reads and writes the little-endian
composition of its bytes and touches no other byte; an access not inside DMEM is refused. -/
def Obligations.HostDmemAccessesAreLittleEndian : Prop :=
  ∀ (s : State) (a : Nat) (w : Width) (rest : List Event), s.busy = false →
    (a + w.bytes ≤ s.params.dmemSize →
      (s.events = .dmemRead a w :: rest →
        ∃ v : Word, step s = .next { s with events := rest, replies := v :: s.replies } ∧
          v.toNat = ∑ j ∈ Finset.range w.bytes, (s.dmem.read (a + j)).toNat * 256 ^ j) ∧
      (∀ v, s.events = .dmemWrite a w v :: rest →
        ∃ t, step s = .next t ∧ t = { s with events := rest, dmem := t.dmem } ∧
          (∀ j, j < w.bytes → t.dmem.read (a + j) = v.extractLsb' (8 * j) 8) ∧
          sameOutside [⟨a, w.bytes⟩] s t)) ∧
    (s.params.dmemSize < a + w.bytes →
      (s.events = .dmemRead a w :: rest → step s = .refused .dmemOutOfRange) ∧
      (∀ v, s.events = .dmemWrite a w v :: rest → step s = .refused .dmemOutOfRange))

/-- R67, R68: `RegionsOK` holds exactly when every region is empty or inside DMEM and no two regions have a byte in
common. R68 speaks of a set of regions; that they are taken by their place in a list, so that two equal regions that are
not empty overlap, is the model's reading (log entry 6). -/
def Obligations.RegionCheckMeansInsideAndDisjoint : Prop :=
  ∀ (size : Nat) (rs : List Region), regionsOK size rs = true ↔
    (∀ r ∈ rs, r.len = 0 ∨ r.addr + r.len ≤ size) ∧
      rs.Pairwise fun x y => ¬∃ a, inBytes x.addr x.len a ∧ inBytes y.addr y.len a

/-! ### Reset (10_state.md R39, 70_reset_and_hazards.md R340) -/

/-- R39: the state right after reset. -/
def Obligations.ResetStateHoldsTheResetValues : Prop :=
  State.reset.cmd = 0 ∧ State.reset.busy = false ∧ State.reset.done = false ∧ State.reset.err = false ∧
    State.reset.errcode = 0 ∧ (∀ k : Fin 8, State.reset.args[k] = 0) ∧ State.reset.res0 = 0 ∧
    State.reset.rngValid = false ∧ (∀ k : Fin 32, State.reset.rngSeed[k] = 0) ∧ State.reset.rngPos = 0 ∧
    (∀ a, State.reset.dmem.read a = 0) ∧ State.reset.regRead 0 = 0x5A353132 ∧ State.reset.regRead 1 = 0x00000001

/-- R340: a reset at any time, also with a command in flight, puts every piece of state at its reset value; the
parameters are configuration and stay. -/
def Obligations.ResetAtAnyTimeClearsEverything : Prop :=
  ∀ (s : State) (rest : List Event), s.events = .reset :: rest →
    ∃ t, step s = .next t ∧ t.cmd = 0 ∧ t.busy = false ∧ t.done = false ∧ t.err = false ∧ t.errcode = 0 ∧
      (∀ k : Fin 8, t.args[k] = 0) ∧ t.res0 = 0 ∧ t.rngValid = false ∧ (∀ k : Fin 32, t.rngSeed[k] = 0) ∧
      t.rngPos = 0 ∧ (∀ a, t.dmem.read a = 0) ∧ t.params = s.params ∧ t.events = rest ∧ t.replies = s.replies

/-! ### Invariants and whole-machine rules -/

/-- The invariant holds at reset, for the build's parameters and for any other. -/
def Obligations.InvariantHoldsAtReset : Prop :=
  State.reset.Inv ∧ ∀ (p : Params) (moves : List Event), State.Inv { State.reset with params := p, events := moves }

/-- Every step keeps the invariant: DMEM canonical and inside its size, BUSY and DONE never both 1, ERR only with
DONE, ERRCODE 0 or a code the core produces, no seed or position without a context. -/
def Obligations.EveryStepKeepsTheInvariant : Prop := ∀ s t : State, s.Inv → step s = .next t → t.Inv

/-- R6, R38: no step changes a parameter. -/
def Obligations.NoStepChangesAParameter : Prop := ∀ s t : State, step s = .next t → t.params = s.params

/-- R352, R93: every command of every state completes: BUSY is 0 and DONE is 1 afterwards. -/
def Obligations.EveryCommandCompletes : Prop :=
  ∀ (i : Instr) (s : State), ∃ t, exec i s = .next t ∧ t.busy = false ∧ t.done = true

/-- R21, R306: no command writes CMD, an argument register or a parameter, or touches the host's side. -/
def Obligations.NoCommandWritesArgumentsOrLatch : Prop :=
  ∀ (i : Instr) (s t : State), exec i s = .next t → sameHostSide s t

/-- R306, R309: a command that ends in error changes STATUS and nothing else, and its code is one R301 says a command
raises. -/
def Obligations.ErrorsChangeOnlyStatus : Prop :=
  ∀ (i : Instr) (s t : State), s.err = false → exec i s = .next t → t.err = true →
    t = s.afterError t.errcode ∧ t.errcode ∈ producedCodes ∧ t.errcode ≠ 0x10

/-- R21: argument registers a command's row does not name are ignored by it. -/
def Obligations.UnnamedArgumentsAreIgnored : Prop :=
  ∀ (i : Instr) (s t : State) (k : Fin 8) (v : Word), i.arity ≤ k.val → exec i s = .next t →
    exec i { s with args := s.args.set k v } = .next { t with args := t.args.set k v }

/-- R33, R212, R221: no command but RNGSEED, RNGCLR and the four sampling commands changes the RNG context; the
sampling commands keep its seed and valid bit. -/
def Obligations.OnlySamplerCommandsTouchTheRngContext : Prop :=
  ∀ (i : Instr) (s t : State), exec i s = .next t → i ≠ .rngseed → i ≠ .rngclr →
    t.rngValid = s.rngValid ∧ t.rngSeed = s.rngSeed ∧
      (i ≠ .sampleu → i ≠ .sampleg → i ≠ .randmat → i ≠ .randerr → t.rngPos = s.rngPos)

/-- R22: RES0 is written by MODADD, MODSUB, MODMUL, SAMPLEU, SAMPLEG, ENCODE and DECODE only. -/
def Obligations.OnlyListedCommandsWriteTheResultRegister : Prop :=
  ∀ (i : Instr) (s t : State), exec i s = .next t →
    i ≠ .modadd → i ≠ .modsub → i ≠ .modmul → i ≠ .sampleu → i ≠ .sampleg → i ≠ .encode → i ≠ .decode →
    t.res0 = s.res0

/-- The frame of the commands that store nothing (R64): every byte of DMEM reads as before, and of the other state
only STATUS, RES0 and the RNG context may differ. -/
def Obligations.CommandsWithoutStoresKeepMemory : Prop :=
  ∀ (i : Instr) (s t : State),
    i ∈ [Instr.nop, .modadd, .modsub, .modmul, .rngseed, .rngclr, .sampleu, .sampleg] → exec i s = .next t →
    (∀ a, t.dmem.read a = s.dmem.read a) ∧ sameHostSide s t ∧
      t = { s with busy := t.busy, done := t.done, err := t.err, errcode := t.errcode, res0 := t.res0,
                   rngValid := t.rngValid, rngSeed := t.rngSeed, rngPos := t.rngPos }

/-- The frame of the storing commands (R64): outside the output regions of the command every byte reads as before, and
of the other state only STATUS and what the command's rule names may differ. -/
def Obligations.StoringCommandsKeepOtherMemory : Prop :=
  (∀ s t, exec .encode s = .next t →
    sameOutside [⟨s.arg 3, s.arg 1 * s.arg 2 * 2⟩] s t ∧ sameHostSide s t ∧ sameRng s t) ∧
  (∀ s t, exec .decode s = .next t →
    sameOutside [⟨s.arg 4, s.arg 2 * s.arg 3 * 4⟩] s t ∧ sameHostSide s t ∧ sameRng s t) ∧
  (∀ s t, exec .randmat s = .next t →
    sameOutside [⟨s.arg 2, s.arg 0 * s.arg 1 * 4⟩] s t ∧ sameHostSide s t ∧ t.res0 = s.res0) ∧
  (∀ s t, exec .randerr s = .next t →
    sameOutside [⟨s.arg 1, s.arg 0 * 4⟩] s t ∧ sameHostSide s t ∧ t.res0 = s.res0) ∧
  (∀ s t, exec .zeroize s = .next t →
    sameOutside [⟨s.arg 0, s.arg 1⟩] s t ∧ sameHostSide s t ∧ sameRng s t ∧ t.res0 = s.res0) ∧
  (∀ s t, exec .keygen s = .next t →
    sameOutside [⟨s.arg 2, pkLen s.params⟩, ⟨s.arg 3, skLen s.params⟩] s t ∧ sameHostSide s t ∧ sameRng s t ∧
      t.res0 = s.res0) ∧
  (∀ s t, exec .encaps s = .next t →
    sameOutside [⟨s.arg 5, ctLen s.params⟩, ⟨s.arg 6, s.params.seclen⟩] s t ∧ sameHostSide s t ∧ sameRng s t ∧
      t.res0 = s.res0) ∧
  (∀ s t, exec .decaps s = .next t →
    sameOutside [⟨s.arg 4, s.params.seclen⟩] s t ∧ sameHostSide s t ∧ sameRng s t ∧ t.res0 = s.res0)

/-! ### Housekeeping (44_housekeeping.md) -/

/-- R250: NOP writes STATUS only, whatever the state; and issued on an idle core it leaves DONE = 1 with ERR and ERRCODE
of the command before it cleared, since issue sets BUSY and completion clears it. -/
def Obligations.NopChangesOnlyStatus : Prop :=
  decode 0x00000000 = .ok .nop ∧ (∀ s : State, exec .nop s = .next s.afterSuccess) ∧
  ∀ (s : State) (rest : List Event), s.busy = false → s.events = .regWrite 2 0x00000000 :: .core :: rest →
    ∃ t, step s = .next t ∧ t.busy = true ∧ step t = .next { s with
      events := rest, cmd := 0, busy := false, done := true, err := false, errcode := 0 }

/-- R251: ZEROIZE makes every byte of its region 0x00 and changes no other byte and no register but STATUS; a region
not in range is `AddressRange` (code 0x11) and no byte is written. -/
def Obligations.ZeroizeClearsItsRegion : Prop :=
  decode 0x00000040 = .ok .zeroize ∧
  ∀ s : State,
    (s.arg 1 = 0 ∨ s.arg 0 + s.arg 1 ≤ s.params.dmemSize →
      ∃ t, exec .zeroize s = .next t ∧ t = { s.afterSuccess with dmem := t.dmem } ∧
        (∀ a, inBytes (s.arg 0) (s.arg 1) a → t.dmem.read a = 0) ∧ sameOutside [⟨s.arg 0, s.arg 1⟩] s t) ∧
    (s.arg 1 ≠ 0 → s.params.dmemSize < s.arg 0 + s.arg 1 → exec .zeroize s = .next (s.afterError 0x11))

/-! ### Modular arithmetic (41_modular_arithmetic.md) -/

/-- R151: MODADD. -/
def Obligations.ModaddGivesTheSumModQ : Prop :=
  decode 0x00000001 = .ok .modadd ∧
  ∀ s : State,
    (s.arg 0 < s.params.q → s.arg 1 < s.params.q →
      ∃ v : Word, exec .modadd s = .next { s.afterSuccess with res0 := v } ∧
        v.toNat = (s.arg 0 + s.arg 1) % s.params.q) ∧
    (s.params.q ≤ s.arg 0 ∨ s.params.q ≤ s.arg 1 → exec .modadd s = .next (s.afterError 0x12))

/-- R152: MODSUB, `a - b` when `a >= b`, else `a - b + Q`. -/
def Obligations.ModsubGivesTheDifferenceModQ : Prop :=
  decode 0x00000002 = .ok .modsub ∧
  ∀ s : State,
    (s.arg 0 < s.params.q → s.arg 1 < s.params.q →
      ∃ v : Word, exec .modsub s = .next { s.afterSuccess with res0 := v } ∧
        v.toNat = if s.arg 1 ≤ s.arg 0 then s.arg 0 - s.arg 1 else s.arg 0 + s.params.q - s.arg 1) ∧
    (s.params.q ≤ s.arg 0 ∨ s.params.q ≤ s.arg 1 → exec .modsub s = .next (s.afterError 0x12))

/-- R153: MODMUL, the exact product reduced. -/
def Obligations.ModmulGivesTheProductModQ : Prop :=
  decode 0x00000003 = .ok .modmul ∧
  ∀ s : State,
    (s.arg 0 < s.params.q → s.arg 1 < s.params.q →
      ∃ v : Word, exec .modmul s = .next { s.afterSuccess with res0 := v } ∧
        v.toNat = s.arg 0 * s.arg 1 % s.params.q) ∧
    (s.params.q ≤ s.arg 0 ∨ s.params.q ≤ s.arg 1 → exec .modmul s = .next (s.afterError 0x12))

/-- R154: the laws of the three operations on residues that tie them together. -/
def Obligations.ModularOperationsObeyTheRingLaws : Prop :=
  ∀ q a b c : Nat, a < q → b < q → c < q →
    addmod q a b = addmod q b a ∧ mulmod q a b = mulmod q b a ∧ addmod q a 0 = a ∧
    submod q a a = 0 ∧ submod q 0 a = (if a = 0 then 0 else q - a) ∧ addmod q (submod q a b) b = a ∧
    mulmod q a (addmod q b c) = addmod q (mulmod q a b) (mulmod q a c) ∧ (1 < q → mulmod q a 1 = a) ∧
    mulmod q a 0 = 0

/-- The theorem R157 asks of a model with a Barrett datapath; the method is the spec's informative passage G1, which it
marks as general knowledge. Barrett reduction gives the residue, so a Barrett multiplier is `mulmod`. -/
def Obligations.BarrettMultiplierComputesTheResidue : Prop :=
  ∀ q k : Nat, 0 < q → q ≤ 2 ^ k →
    (∀ x, x < 2 ^ (2 * k) → barrettReduce q k x = x % q) ∧
    (∀ a b, a < q → b < q → barrettMul q k a b = mulmod q a b)

/-- The theorem R157 asks of a model with a Montgomery datapath; the method is the spec's informative passage G2, which
it marks as general knowledge. Montgomery reduction gives the residue of `T * R^(-1)`, and a Montgomery multiplier of
plain residues is `mulmod`. -/
def Obligations.MontgomeryMultiplierComputesTheResidue : Prop :=
  ∀ m : Montgomery, m.ok = true →
    (∀ t, t < 2 ^ m.w * m.q → m.redc t < m.q ∧ m.redc t * 2 ^ m.w % m.q = t % m.q) ∧
    (∀ a b, a < m.q → b < m.q → m.mul a b = mulmod m.q a b)

/-! ### Codec (40_codec.md) -/

/-- R123, R124: ENCODE packs `rows*cols` words of an element array into 2-byte scalars and returns the byte count; a
bad region is `AddressRange`, else a word `>= 65536` is `EncodeRange`, and nothing is written. -/
def Obligations.EncodePacksAnElementArray : Prop :=
  decode 0x00000010 = .ok .encode ∧
  ∀ s : State, ∀ cnt, cnt = s.arg 1 * s.arg 2 →
    (regionsOK s.params.dmemSize [⟨s.arg 0, cnt * 4⟩, ⟨s.arg 3, cnt * 2⟩] = false →
      exec .encode s = .next (s.afterError 0x11)) ∧
    (regionsOK s.params.dmemSize [⟨s.arg 0, cnt * 4⟩, ⟨s.arg 3, cnt * 2⟩] = true →
      ((∃ k, k < cnt ∧ 65536 ≤ s.dmem.readLE (s.arg 0 + 4 * k) 4) → exec .encode s = .next (s.afterError 0x13)) ∧
      ((∀ k, k < cnt → s.dmem.readLE (s.arg 0 + 4 * k) 4 < 65536) →
        ∃ t, exec .encode s = .next t ∧ t = { s.afterSuccess with dmem := t.dmem, res0 := t.res0 } ∧
          t.res0.toNat = cnt * 2 ∧
          (∀ k, k < cnt → t.dmem.readLE (s.arg 3 + 2 * k) 2 = s.dmem.readLE (s.arg 0 + 4 * k) 4) ∧
          sameOutside [⟨s.arg 3, cnt * 2⟩] s t))

/-- R126: DECODE unpacks 2-byte scalars into zero-extended words and returns the number of packed bytes used; a length
too short is `InvalidParameter`, else a bad region is `AddressRange`, and nothing is written. -/
def Obligations.DecodeUnpacksIntoAnElementArray : Prop :=
  decode 0x00000011 = .ok .decode ∧
  ∀ s : State, ∀ cnt, cnt = s.arg 2 * s.arg 3 →
    (s.arg 1 < cnt * 2 → exec .decode s = .next (s.afterError 0x01)) ∧
    (cnt * 2 ≤ s.arg 1 →
      (regionsOK s.params.dmemSize [⟨s.arg 0, s.arg 1⟩, ⟨s.arg 4, cnt * 4⟩] = false →
        exec .decode s = .next (s.afterError 0x11)) ∧
      (regionsOK s.params.dmemSize [⟨s.arg 0, s.arg 1⟩, ⟨s.arg 4, cnt * 4⟩] = true →
        ∃ t, exec .decode s = .next t ∧ t = { s.afterSuccess with dmem := t.dmem, res0 := t.res0 } ∧
          t.res0.toNat = cnt * 2 ∧
          (∀ k, k < cnt → t.dmem.readLE (s.arg 4 + 4 * k) 4 = s.dmem.readLE (s.arg 0 + 2 * k) 2) ∧
          sameOutside [⟨s.arg 4, cnt * 4⟩] s t))

/-- R125: the round-trip law of the commands. If ENCODE of an element array at `src` to `mid` completes without error,
then DECODE of those bytes into a disjoint region at `dst` completes without error and writes the same words. -/
def Obligations.DecodeAfterEncodeRestoresTheArray : Prop :=
  ∀ (s t : State) (src rows cols mid dst : Word),
    s.err = false →
    s.args.toList.take 4 = [src, rows, cols, mid] →
    exec .encode s = .next t → t.err = false →
    regionsOK s.params.dmemSize
      [⟨mid.toNat, rows.toNat * cols.toNat * 2⟩, ⟨dst.toNat, rows.toNat * cols.toNat * 4⟩] = true →
    ∃ u, exec .decode
        { t with args := #v[mid, BitVec.ofNat 32 (rows.toNat * cols.toNat * 2), rows, cols, dst, 0, 0, 0] } = .next u ∧
      u.err = false ∧
      ∀ k, k < rows.toNat * cols.toNat →
        u.dmem.readLE (dst.toNat + 4 * k) 4 = s.dmem.readLE (src.toNat + 4 * k) 4

/-! ### Sampler (42_sampler.md) -/

/-- R183: RNGSEED takes the first 32 bytes at the address as the seed and restarts the stream; a length below 32 is
`RandomGeneration`, else a region not in range is `AddressRange`, and the previous context is kept. -/
def Obligations.RngseedStartsTheStream : Prop :=
  decode 0x00000020 = .ok .rngseed ∧
  ∀ s : State,
    (s.arg 1 < 32 → exec .rngseed s = .next (s.afterError 0x04)) ∧
    (32 ≤ s.arg 1 → s.params.dmemSize < s.arg 0 + s.arg 1 → exec .rngseed s = .next (s.afterError 0x11)) ∧
    (32 ≤ s.arg 1 → s.arg 0 + s.arg 1 ≤ s.params.dmemSize →
      ∃ t, exec .rngseed s = .next t ∧
        t = { s.afterSuccess with rngValid := true, rngSeed := t.rngSeed, rngPos := 0 } ∧
        ∀ k : Fin 32, t.rngSeed[k] = s.dmem.read (s.arg 0 + k.val))

/-- R184: RNGCLR erases the RNG context, valid or not. -/
def Obligations.RngclrErasesTheContext : Prop :=
  decode 0x00000021 = .ok .rngclr ∧
  ∀ s : State, exec .rngclr s =
    .next { s.afterSuccess with rngValid := false, rngSeed := Vector.replicate 32 0, rngPos := 0 }

/-- R186: SAMPLEU returns the next word modulo Q and draws one word; without a context it is `RngUnseeded`, at the end
of the stream `RandomGeneration`. -/
def Obligations.SampleuDrawsOneResidue : Prop :=
  decode 0x00000022 = .ok .sampleu ∧
  ∀ s : State,
    (s.rngValid = false → exec .sampleu s = .next (s.afterError 0x14)) ∧
    (s.rngValid = true → 2 ^ 64 - 1 < s.rngPos.toNat + 1 → exec .sampleu s = .next (s.afterError 0x04)) ∧
    (s.rngValid = true → s.rngPos.toNat + 1 ≤ 2 ^ 64 - 1 →
      ∃ v : Word, exec .sampleu s = .next { s.afterSuccess with res0 := v, rngPos := s.rngPos + 1 } ∧
        v.toNat = (Config.collab.prngWord s.rngSeed s.rngPos.toNat).toNat % s.params.q)

/-- R187: SAMPLEG returns a signed sample of the next two words, in two's complement, and draws two words. R178: the
sample is the clamped nearest integer of the reference evaluation, a tie going away from zero, where that evaluation is
finite (elsewhere log entry 5), and lies in the range of an i32 always. -/
def Obligations.SamplegDrawsOneSignedSample : Prop :=
  decode 0x00000023 = .ok .sampleg ∧
  (∀ s : State,
    (s.rngValid = false → exec .sampleg s = .next (s.afterError 0x14)) ∧
    (s.rngValid = true → 2 ^ 64 - 1 < s.rngPos.toNat + 2 → exec .sampleg s = .next (s.afterError 0x04)) ∧
    (s.rngValid = true → s.rngPos.toNat + 2 ≤ 2 ^ 64 - 1 →
      ∃ v : Word, exec .sampleg s = .next { s.afterSuccess with res0 := v, rngPos := s.rngPos + 2 } ∧
        v.toInt = gaussCore Config.collab (Config.collab.prngWord s.rngSeed s.rngPos.toNat)
          (Config.collab.prngWord s.rngSeed (s.rngPos.toNat + 1)) s.params.sigma)) ∧
  (∀ (k : Collaborators) (w1 w2 : Word) (sigma x : F64),
    x = fmul (fmul (fsqrt (fmul minusTwo (k.ln64 (u01 w1)))) (k.cos64 (fmul twoPi (u01 w2)))) sigma →
    (∀ neg m e, f64Val x = .fin neg m e → gaussCore k w1 w2 sigma = clampI32 (roundHalfAway neg m e)) ∧
    -2147483648 ≤ gaussCore k w1 w2 sigma ∧ gaussCore k w1 w2 sigma ≤ 2147483647) ∧
  ((f64Val minusTwo).rat = -2 ∧ twoPi = 0x401921FB54442D18) ∧
  (∀ (neg : Bool) (m : Nat) (e z : Int) (v : ℚ), z = roundHalfAway neg m e → v = (F64Val.fin neg m e).rat →
    |v - z| ≤ 1 / 2 ∧ (|v - z| = 1 / 2 → |v| < |(z : ℚ)|)) ∧
  ∀ z : Int, clampI32 z =
    if z < -2147483648 then -2147483648 else if 2147483647 < z then 2147483647 else z

/-- R188: RANDMAT writes the next `rows*cols` words modulo Q as an element array and draws that many words; the errors
in test order are `RngUnseeded`, `AddressRange`, `RandomGeneration`. -/
def Obligations.RandmatWritesUniformWords : Prop :=
  decode 0x00000024 = .ok .randmat ∧
  ∀ s : State, ∀ cnt, cnt = s.arg 0 * s.arg 1 →
    (s.rngValid = false → exec .randmat s = .next (s.afterError 0x14)) ∧
    (s.rngValid = true →
      (cnt ≠ 0 → s.params.dmemSize < s.arg 2 + cnt * 4 → exec .randmat s = .next (s.afterError 0x11)) ∧
      (cnt = 0 ∨ s.arg 2 + cnt * 4 ≤ s.params.dmemSize →
        (2 ^ 64 - 1 < s.rngPos.toNat + cnt → exec .randmat s = .next (s.afterError 0x04)) ∧
        (s.rngPos.toNat + cnt ≤ 2 ^ 64 - 1 →
          ∃ t, exec .randmat s = .next t ∧ t = { s.afterSuccess with dmem := t.dmem, rngPos := t.rngPos } ∧
            t.rngPos.toNat = s.rngPos.toNat + cnt ∧
            (∀ k, k < cnt → t.dmem.readLE (s.arg 2 + 4 * k) 4 =
              (Config.collab.prngWord s.rngSeed (s.rngPos.toNat + k)).toNat % s.params.q) ∧
            sameOutside [⟨s.arg 2, cnt * 4⟩] s t)))

/-- R189: RANDERR writes `n` Gaussian samples reduced into `[0, Q)` as an element array and draws `2n` words; the errors
in test order are `RngUnseeded`, `AddressRange`, `RandomGeneration`. -/
def Obligations.RanderrWritesReducedSamples : Prop :=
  decode 0x00000025 = .ok .randerr ∧
  ∀ s : State, ∀ n, n = s.arg 0 →
    (s.rngValid = false → exec .randerr s = .next (s.afterError 0x14)) ∧
    (s.rngValid = true →
      (n ≠ 0 → s.params.dmemSize < s.arg 1 + n * 4 → exec .randerr s = .next (s.afterError 0x11)) ∧
      (n = 0 ∨ s.arg 1 + n * 4 ≤ s.params.dmemSize →
        (2 ^ 64 - 1 < s.rngPos.toNat + 2 * n → exec .randerr s = .next (s.afterError 0x04)) ∧
        (s.rngPos.toNat + 2 * n ≤ 2 ^ 64 - 1 →
          ∃ t, exec .randerr s = .next t ∧ t = { s.afterSuccess with dmem := t.dmem, rngPos := t.rngPos } ∧
            t.rngPos.toNat = s.rngPos.toNat + 2 * n ∧
            (∀ k, k < n → (t.dmem.readLE (s.arg 1 + 4 * k) 4 : Int) =
              gaussCore Config.collab (Config.collab.prngWord s.rngSeed (s.rngPos.toNat + 2 * k))
                (Config.collab.prngWord s.rngSeed (s.rngPos.toNat + 2 * k + 1)) s.params.sigma % s.params.q) ∧
            sameOutside [⟨s.arg 1, n * 4⟩] s t)))

/-- R188: a RANDMAT writes the words that as many SAMPLEU commands would return. Stated for the `k`-th: from the state
with the position advanced by `k`, SAMPLEU returns word `k` of the array. -/
def Obligations.RandmatAgreesWithRepeatedSampleu : Prop :=
  ∀ (s t : State) (k : Nat), s.err = false → exec .randmat s = .next t → t.err = false → k < s.arg 0 * s.arg 1 →
    ∃ u, exec .sampleu { s with rngPos := s.rngPos + BitVec.ofNat 64 k } = .next u ∧
      u.res0.toNat = t.dmem.readLE (s.arg 2 + 4 * k) 4

/-- R182: the source's formula `((x mod Q) + Q) mod Q` gives the Euclidean residue, whether its inner `mod` truncates
or floors, and the residue lies in `[0, Q)`. -/
def Obligations.ReductionOfSignedSamplesIsTheResidue : Prop :=
  ∀ (q : Nat) (x : Int), 0 < q →
    (reduceQ q x : Int) = (x.tmod q + q).tmod q ∧ (reduceQ q x : Int) = (x.fmod q + q).tmod q ∧ reduceQ q x < q

/-- R177, R178, G4: the arithmetic of the sampler. `U01(w)` is exactly `(2w + 1) * 2^(-33)`, a binary64 value; `fmul`
and `fsqrt` are correctly rounded, with the sign IEEE 754 gives and its results for infinities and NaNs. -/
def Obligations.SamplerArithmeticIsCorrectlyRounded : Prop :=
  (∀ w : Word, ∃ (m : Nat) (e : Int), f64Val (u01 w) = .fin false m e ∧
    (m : ℚ) * (2 : ℚ) ^ e = (2 * w.toNat + 1 : ℚ) / 2 ^ 33) ∧
  (∀ x y : F64,
    ((f64Val x).isFinite = true → (f64Val y).isFinite = true →
      roundsTo ((f64Val x).rat * (f64Val y).rat) (fmul x y) ∧ (fmul x y).msb = xor x.msb y.msb) ∧
    (f64Val x = .nan ∨ f64Val y = .nan → f64Val (fmul x y) = .nan) ∧
    (∀ a b, f64Val x = .inf a → f64Val y = .inf b → f64Val (fmul x y) = .inf (xor a b)) ∧
    (∀ a, f64Val x = .inf a → (f64Val y).isFinite = true →
      f64Val (fmul x y) = (if (f64Val y).rat = 0 then .nan else .inf (xor a y.msb)) ∧
      f64Val (fmul y x) = (if (f64Val y).rat = 0 then .nan else .inf (xor y.msb a)))) ∧
  (∀ x : F64,
    ((f64Val x).isFinite = true → 0 ≤ (f64Val x).rat →
      roundsTo (Real.sqrt (f64Val x).rat) (fsqrt x) ∧ (fsqrt x).msb = x.msb) ∧
    ((f64Val x).rat < 0 ∨ f64Val x = .nan ∨ f64Val x = .inf true → f64Val (fsqrt x) = .nan) ∧
    (f64Val x = .inf false → f64Val (fsqrt x) = .inf false))

/-! ### LWE engine (43_lwe_engine.md) -/

/-- R211: what `keygen_fn` computes. -/
def Obligations.KeyMaterialFollowsTheFormula : Prop :=
  ∀ (k : Collaborators) (p : Params) (seed : Seed) (m : KeyMaterial), m = keygenFn k p seed →
    (∀ i j, i < p.n → j < p.n → m.a.getD (i * p.n + j) 0 = (k.prngWord seed (i * p.n + j)).toNat % p.q) ∧
    (∀ j, j < p.n → (m.s.getD j 0 : Int) = gaussCore k (k.prngWord seed (p.n * p.n + 2 * j))
      (k.prngWord seed (p.n * p.n + 2 * j + 1)) p.sigma % p.q) ∧
    (∀ i, i < p.n → (m.e.getD i 0 : Int) = gaussCore k (k.prngWord seed (p.n * p.n + 2 * p.n + 2 * i))
      (k.prngWord seed (p.n * p.n + 2 * p.n + 2 * i + 1)) p.sigma % p.q) ∧
    (∀ i, i < p.n → m.b.getD i 0 =
      (∑ j ∈ Finset.range p.n, m.a.getD (i * p.n + j) 0 * m.s.getD j 0 + m.e.getD i 0) % p.q) ∧
    m.a.length = p.n * p.n ∧ m.b.length = p.n ∧ m.s.length = p.n ∧ m.e.length = p.n

/-- R213: KEYGEN writes `pack(A) ‖ pack(b) ‖ seed` and `pack(s) ‖ seed` and nothing else; the errors in test order are
`RandomGeneration`, `AddressRange`, `EncodeRange`. With `Q <= 65536` every element fits. The `EncodeRange` clause is
stated for every set of collaborators, since whether an element reaches 65536 depends on the generator. -/
def Obligations.KeygenWritesTheKeyPair : Prop :=
  decode 0x00000030 = .ok .keygen ∧
  (∀ s : State, ∀ rs, rs = [⟨s.arg 0, s.arg 1⟩, ⟨s.arg 2, pkLen s.params⟩, ⟨s.arg 3, skLen s.params⟩] →
    (s.arg 1 < 32 → exec .keygen s = .next (s.afterError 0x04)) ∧
    (32 ≤ s.arg 1 → regionsOK s.params.dmemSize rs = false → exec .keygen s = .next (s.afterError 0x11)) ∧
    (32 ≤ s.arg 1 → regionsOK s.params.dmemSize rs = true → ∀ seed m, seed = s.dmem.readSeed (s.arg 0) →
      m = keygenFn Config.collab s.params seed →
      (s.params.q ≤ 65536 ∨ ∀ x ∈ m.a ++ m.b ++ m.s, x < 65536) →
      ∃ t, exec .keygen s = .next t ∧ t = { s.afterSuccess with dmem := t.dmem } ∧
        t.dmem.readBytes (s.arg 2) (pkLen s.params) = pack m.a ++ pack m.b ++ seed.toList ∧
        t.dmem.readBytes (s.arg 3) (skLen s.params) = pack m.s ++ seed.toList ∧
        sameOutside [⟨s.arg 2, pkLen s.params⟩, ⟨s.arg 3, skLen s.params⟩] s t)) ∧
  (∀ (k : Collaborators) (s : State), 32 ≤ s.arg 1 →
    regionsOK s.params.dmemSize [⟨s.arg 0, s.arg 1⟩, ⟨s.arg 2, pkLen s.params⟩, ⟨s.arg 3, skLen s.params⟩] = true →
    (∃ m, m = keygenFn k s.params (s.dmem.readSeed (s.arg 0)) ∧ ∃ x ∈ m.a ++ m.b ++ m.s, 65536 ≤ x) →
    finish s (keygenRule k s) = .next (s.afterError 0x13)) ∧
  (∀ s : State, exec .keygen s = finish s (keygenRule Config.collab s))

/-- R215: two KEYGEN commands whose seed regions hold the same first 32 bytes write byte-identical keys, whatever else
differs in the two states of the same parameter set. -/
def Obligations.KeygenIsDeterminedByItsSeed : Prop :=
  ∀ s s' t t' : State, s.params = s'.params → s.err = false → s'.err = false →
    (∀ j, j < 32 → s.dmem.read (s.arg 0 + j) = s'.dmem.read (s'.arg 0 + j)) →
    exec .keygen s = .next t → exec .keygen s' = .next t' → t.err = false → t'.err = false →
    t.dmem.readBytes (s.arg 2) (pkLen s.params) = t'.dmem.readBytes (s'.arg 2) (pkLen s.params) ∧
    t.dmem.readBytes (s.arg 3) (skLen s.params) = t'.dmem.readBytes (s'.arg 3) (skLen s.params)

/-- R220, R223, R224: what `encaps_fn` computes, and that it fails exactly when the message does not fit one
coefficient. -/
def Obligations.EncapsulationFollowsTheFormula : Prop :=
  ∀ (k : Collaborators) (p : Params) (a b : List Nat) (eseed : Seed) (msg : List Byte),
    a.length = p.n * p.n → b.length = p.n →
    (p.q ≤ leNat msg → encapsFn k p a b eseed msg = none) ∧
    (leNat msg < p.q → ∃ ct r, encapsFn k p a b eseed msg = some ct ∧ r = errorVector k p eseed 0 p.n ∧
      ct.v.length = p.n ∧
      (∀ j, j < p.n → ct.v.getD j 0 =
        (∑ i ∈ Finset.range p.n, r.getD i 0 * a.getD (i * p.n + j) 0) % p.q) ∧
      ct.c = (∑ i ∈ Finset.range p.n, r.getD i 0 * b.getD i 0 + leNat msg * (p.q / 256) % p.q) % p.q)

/-- R225: ENCAPS writes `pack(v) ‖ c ‖ msg` and `HASH(msg)` and nothing else; the errors in test order are
`InvalidKeyFormat`, `RandomGeneration`, `AddressRange`, `Encapsulation`, `EncodeRange`. With `Q <= 65536` every scalar
fits. The `EncodeRange` clause is stated for every set of collaborators. -/
def Obligations.EncapsWritesCiphertextAndSecret : Prop :=
  decode 0x00000031 = .ok .encaps ∧
  (∀ (k : Collaborators) (s : State) (p : Params), p = s.params →
    ∀ (rs : List Region) (pk msg : List Byte) (r : Option CipherPair),
    rs = [⟨s.arg 0, pkLen p⟩, ⟨s.arg 2, s.arg 3⟩, ⟨s.arg 4, p.seclen⟩, ⟨s.arg 5, ctLen p⟩, ⟨s.arg 6, p.seclen⟩] →
    pk = s.dmem.readBytes (s.arg 0) (pkLen p) → msg = s.dmem.readBytes (s.arg 4) p.seclen →
    r = encapsFn k p (unpack pk (p.n * p.n)) (unpack (pk.drop (p.n * p.n * 2)) p.n) (s.dmem.readSeed (s.arg 2)) msg →
    (s.arg 1 ≠ pkLen p → exec .encaps s = .next (s.afterError 0x02)) ∧
    (s.arg 1 = pkLen p → s.arg 3 < 32 → exec .encaps s = .next (s.afterError 0x04)) ∧
    (s.arg 1 = pkLen p → 32 ≤ s.arg 3 → regionsOK p.dmemSize rs = false →
      exec .encaps s = .next (s.afterError 0x11)) ∧
    (s.arg 1 = pkLen p → 32 ≤ s.arg 3 → regionsOK p.dmemSize rs = true →
      (p.q ≤ leNat msg → exec .encaps s = .next (s.afterError 0x05)) ∧
      (∀ ct, r = some ct → (∃ x ∈ ct.c :: ct.v, 65536 ≤ x) →
        finish s (encapsRule k s) = .next (s.afterError 0x13)) ∧
      (∀ ct, r = some ct → (p.q ≤ 65536 ∨ ∀ x ∈ ct.c :: ct.v, x < 65536) → k = Config.collab →
        ∃ t, exec .encaps s = .next t ∧ t = { s.afterSuccess with dmem := t.dmem } ∧
          t.dmem.readBytes (s.arg 5) (ctLen p) = pack ct.v ++ leBytes ct.c 2 ++ msg ∧
          t.dmem.readBytes (s.arg 6) p.seclen = (Config.collab.hash p.seclen msg).toList ∧
          sameOutside [⟨s.arg 5, ctLen p⟩, ⟨s.arg 6, p.seclen⟩] s t))) ∧
  (∀ s : State, exec .encaps s = finish s (encapsRule Config.collab s))

/-- R135: ENCAPS never reads the seed field of the public key: two states that differ in those 32 bytes only give the
same ciphertext, shared secret and status. -/
def Obligations.EncapsIgnoresThePublicKeySeed : Prop :=
  ∀ (s t : State) (m : Memory),
    (∀ a, ¬inBytes (s.arg 0 + s.params.n * s.params.n * 2 + s.params.n * 2) 32 a → m.read a = s.dmem.read a) →
    exec .encaps s = .next t →
    ∃ u, exec .encaps { s with dmem := m } = .next u ∧ u.err = t.err ∧ u.errcode = t.errcode ∧
      (s.err = false → t.err = false →
        u.dmem.readBytes (s.arg 5) (ctLen s.params) = t.dmem.readBytes (s.arg 5) (ctLen s.params) ∧
        u.dmem.readBytes (s.arg 6) s.params.seclen = t.dmem.readBytes (s.arg 6) s.params.seclen)

/-- R226, R227: what `decaps_fn` computes: it succeeds exactly when the unscaled message is the value of the message
bytes, and then returns `HASH(msg)`. -/
def Obligations.DecapsulationFollowsTheFormula : Prop :=
  ∀ (k : Collaborators) (p : Params) (s v : List Nat) (c : Nat) (msg : List Byte) (m' : Nat),
    s.length = p.n → v.length = p.n → msg.length = p.seclen →
    (m' : Int) = ((c : Int) - (∑ i ∈ Finset.range p.n, v.getD i 0 * s.getD i 0 : Nat)) % p.q →
    ((m' + p.q / 256 / 2) / (p.q / 256) = leNat msg →
      decapsFn k p s v c msg = some (k.hash p.seclen msg).toList) ∧
    ((m' + p.q / 256 / 2) / (p.q / 256) ≠ leNat msg → decapsFn k p s v c msg = none)

/-- R228: DECAPS writes the shared secret and nothing else; the errors in test order are `InvalidKeyFormat`,
`InvalidCiphertextFormat`, `AddressRange`, `Decapsulation`. -/
def Obligations.DecapsWritesTheSharedSecret : Prop :=
  decode 0x00000032 = .ok .decaps ∧
  ∀ (s : State) (p : Params), p = s.params → ∀ (rs : List Region) (sk ct msg : List Byte) (rec : Nat),
    rs = [⟨s.arg 0, skLen p⟩, ⟨s.arg 2, ctLen p⟩, ⟨s.arg 4, p.seclen⟩] →
    sk = s.dmem.readBytes (s.arg 0) (skLen p) → ct = s.dmem.readBytes (s.arg 2) (ctLen p) →
    msg = s.dmem.readBytes (s.arg 2 + p.n * 2 + 2) p.seclen →
    rec = recovered p (unpack sk p.n) (unpack ct p.n) (s.dmem.readLE (s.arg 2 + p.n * 2) 2) →
    (s.arg 1 ≠ skLen p → exec .decaps s = .next (s.afterError 0x02)) ∧
    (s.arg 1 = skLen p → s.arg 3 ≠ ctLen p → exec .decaps s = .next (s.afterError 0x03)) ∧
    (s.arg 1 = skLen p → s.arg 3 = ctLen p → regionsOK p.dmemSize rs = false →
      exec .decaps s = .next (s.afterError 0x11)) ∧
    (s.arg 1 = skLen p → s.arg 3 = ctLen p → regionsOK p.dmemSize rs = true →
      (rec ≠ leNat msg → exec .decaps s = .next (s.afterError 0x06)) ∧
      (rec = leNat msg →
        ∃ t, exec .decaps s = .next t ∧ t = { s.afterSuccess with dmem := t.dmem } ∧
          t.dmem.readBytes (s.arg 4) p.seclen = (Config.collab.hash p.seclen msg).toList ∧
          sameOutside [⟨s.arg 4, p.seclen⟩] s t))

/-- R230: the honest run. With keys from `keygen_fn` and a ciphertext from `encaps_fn`, decapsulation succeeds and
returns the hash of the message whenever the noise `delta = Σ_i rs[i] * es[i]` of the signed samples stays inside the
rounding window and nothing wraps around Q. -/
def Obligations.HonestDecapsulationRecoversTheSecret : Prop :=
  ∀ (k : Collaborators) (p : Params) (seed eseed : Seed) (msg : List Byte) (m : KeyMaterial) (ct : CipherPair)
    (es rs : List Int) (delta : Int),
    msg.length = p.seclen → m = keygenFn k p seed → encapsFn k p m.a m.b eseed msg = some ct →
    es = signedErrors k p.sigma seed (p.n * p.n + 2 * p.n) p.n → rs = signedErrors k p.sigma eseed 0 p.n →
    delta = (List.zipWith (· * ·) rs es).sum →
    leNat msg * scale p < p.q → -((scale p / 2 : Nat) : Int) ≤ delta →
    delta ≤ (scale p : Int) - ((scale p / 2 : Nat) : Int) - 1 →
    0 ≤ (leNat msg * scale p : Nat) + delta → (leNat msg * scale p : Nat) + delta < p.q →
    decapsFn k p m.s ct.v ct.c msg = some (k.hash p.seclen msg).toList

/-! ### Software around the block (45_host_software.md) and several cores (60_exceptions.md) -/

/-- R267: reconstruction after fragmentation gives the bytes back, for every non-empty byte string within bounds, and
fragmentation fails exactly outside them. The fragment constants hold a piece of at least one byte and fewer than `2^32`
fragments, which is the model's reading of R263 (log entry 10). -/
def Obligations.ReconstructAfterFragmentRestoresTheBytes : Prop :=
  ∀ (k : Collaborators) (p : Params) (fp : FragmentParams) (bytes : List Byte),
    (bytes ≠ [] → fragmentCount fp bytes.length ≤ fp.maxFragments →
      ∃ fs, fragmentData k p fp bytes = some fs ∧ reconstructData k p fs = .ok bytes) ∧
    (bytes = [] ∨ fp.maxFragments < fragmentCount fp bytes.length → fragmentData k p fp bytes = none)

/-- R267, R263, R266: changing the data of one fragment, so that its digest changes, makes `verify` and
`reconstruct_data` fail; of fragments that were right the error names the digest. Fragments reconstruct exactly when they
are as many as each total says, hold every index, and match their digests. An error names a mismatch there is; which of
several is a free value (log entry 10), so a name is forced where only the index or only the digest is wrong. -/
def Obligations.TamperedFragmentsAreRejected : Prop :=
  (∀ (k : Collaborators) (p : Params) (fs : List Fragment) (j : Fin fs.length) (data : List Byte),
    (fs[j]).verify k p = true → k.hash p.seclen data ≠ k.hash p.seclen (fs[j]).data →
    ({ fs[j] with data := data } : Fragment).verify k p = false ∧
      (∃ e, reconstructData k p (fs.set j { fs[j] with data := data }) = .error e) ∧
      (∀ bytes, reconstructData k p fs = .ok bytes →
        reconstructData k p (fs.set j { fs[j] with data := data }) = .error .hash)) ∧
  ∀ (k : Collaborators) (p : Params) (fs : List Fragment) (counts indices digests : Prop), fs ≠ [] →
    (counts ↔ ∀ f ∈ fs, f.total.toNat = fs.length) → (indices ↔ ∀ i, i < fs.length → ∃ f ∈ fs, f.index.toNat = i) →
    (digests ↔ ∀ f ∈ fs, f.verify k p = true) →
    ((counts ∧ indices ∧ digests) ↔ ∃ bytes, reconstructData k p fs = .ok bytes) ∧
    (reconstructData k p fs = .error .count → ¬counts) ∧
    (reconstructData k p fs = .error .index → ¬(counts ∧ indices)) ∧
    (reconstructData k p fs = .error .hash → ¬digests) ∧
    (counts → indices → ¬digests → reconstructData k p fs = .error .hash) ∧
    (counts → ¬indices → digests → reconstructData k p fs = .error .index)

/-- R271: when every component pair decapsulates to the secret its encapsulation gave, the fragmented KEM agrees on
the combined secret; unequal counts are `FragmentationError`. R268, R269: a number of components out of bounds makes no
container and no key generation. -/
def Obligations.FragmentedKemAgreesOnTheSecret : Prop :=
  ∀ (k : Collaborators) (p : Params) (fp : FragmentParams),
    (∀ (fpk : FragmentedPublicKey fp p) (draws : Nat → Seed × SecretBytes p) (fsk : FragmentedSecretKey fp p)
        (fct : FragmentedCiphertext fp p) (secret : SecretBytes p),
      fragmentedEncaps k p fp fpk draws = .ok (fct, secret) → fsk.parts.length = fpk.parts.length →
      (∀ (j : Nat) (pk : PublicKey p) (sk : SecretKey p) (ct : Ciphertext p) (ss : SecretBytes p),
        fpk.parts[j]? = some pk → fsk.parts[j]? = some sk →
        componentEncaps k p pk (draws j).1 (draws j).2 = .ok (ct, ss) → componentDecaps k p sk ct = .ok ss) →
      fragmentedDecaps k p fp fsk fct = .ok secret) ∧
    (∀ (fsk : FragmentedSecretKey fp p) (fct : FragmentedCiphertext fp p), fsk.parts.length ≠ fct.parts.length →
      fragmentedDecaps k p fp fsk fct = .error .fragmentationError) ∧
    (∀ count, count < fp.minFragments ∨ fp.maxFragments < count →
      (∀ seeds, fragmentedKeygen k p fp count seeds = .error .fragmentationError) ∧
      ∀ (len : Nat) (parts : List (Vector Byte len)), parts.length = count →
        makeFragmented fp parts = .error .fragmentationError)

/-- R322: steps of two different cores of a platform commute, so every interleaving gives the same per-core results. -/
def Obligations.StepsOfDifferentCoresCommute : Prop :=
  ∀ (cores : List State) (i j : Nat) (s s' : State), i ≠ j →
    (∃ x, cores[i]? = some x ∧ step x = .next s) → (∃ y, cores[j]? = some y ∧ step y = .next s') →
    platformRun [i, j] cores = .next ((cores.set i s).set j s') ∧
      platformRun [j, i] cores = .next ((cores.set i s).set j s')
end

