-- ==== Sys2Proof/Laws/Memory.lean ====
section
/-! SUPPORT. The laws of DMEM: a read after a write, the canonical form, byte strings, and byte order. -/

namespace Sys2Proof.Machine

/-! ### One byte -/

theorem Memory.read_without (m : Memory) (a a' : Nat) :
    (m.without a).read a' = if a' = a then 0 else m.read a' := by
  induction m with
  | nil => simp [Memory.without, Memory.read]
  | cons c rest ih =>
    obtain ⟨k, v⟩ := c
    simp only [Memory.without] at ih ⊢
    by_cases hk : k = a
    · subst hk
      simp only [List.filter_cons, ne_eq, not_true, decide_false, Bool.false_eq_true, if_false, ih, Memory.read]
      by_cases h : a' = k
      · simp [h]
      · simp [h, Ne.symm h]
    · simp only [List.filter_cons, ne_eq, hk, not_false_eq_true, decide_true, if_true, Memory.read, ih]
      by_cases h : k = a'
      · subst h; simp [hk]
      · simp [h]

theorem Memory.read_insert (m : Memory) (a a' : Nat) (b : Byte) (h : m.read a = 0 → ∀ c ∈ m, c.1 ≠ a)
    (hm : m.read a = 0) : (m.insert a b).read a' = if a' = a then b else m.read a' := by
  have hne := h hm
  clear h hm
  induction m with
  | nil => simp [Memory.insert, Memory.read, eq_comm]
  | cons c rest ih =>
    obtain ⟨k, v⟩ := c
    have hk : k ≠ a := hne _ (List.mem_cons_self ..)
    have ih' := ih fun c hc => hne c (List.mem_cons_of_mem _ hc)
    simp only [Memory.insert]
    split
    · by_cases h : a' = a
      · simp [Memory.read, h]
      · simp [Memory.read, h, Ne.symm h]
    · simp only [Memory.read, ih']
      by_cases h : k = a'
      · subst h; simp [hk]
      · simp [h]

theorem Memory.not_mem_without (m : Memory) (a : Nat) : ∀ c ∈ m.without a, c.1 ≠ a := by
  intro c hc
  simpa [Memory.without] using (List.mem_filter.mp hc).2

/-- A read after a write: the byte written at its address, every other byte as before. -/
theorem Memory.read_write (m : Memory) (a a' : Nat) (b : Byte) :
    (m.write a b).read a' = if a' = a then b else m.read a' := by
  unfold Memory.write
  split
  · next h => rw [Memory.read_without, h]
  · rw [Memory.read_insert _ _ _ _ (fun _ => Memory.not_mem_without m a) (by simp [Memory.read_without]),
      Memory.read_without]
    split <;> simp_all

@[simp] theorem Memory.read_write_same (m : Memory) (a : Nat) (b : Byte) : (m.write a b).read a = b := by
  simp [Memory.read_write]

theorem Memory.read_write_of_ne (m : Memory) {a a' : Nat} (b : Byte) (h : a' ≠ a) :
    (m.write a b).read a' = m.read a' := by simp [Memory.read_write, h]

/-! ### The canonical form -/

theorem Memory.wf_nil : Memory.wf [] := by simp [Memory.wf]

theorem Memory.wf_without {m : Memory} (h : m.wf) (a : Nat) : (m.without a).wf :=
  ⟨h.1.filter _, fun c hc => h.2 c (List.mem_filter.mp hc).1⟩

theorem Memory.mem_insert {m : Memory} {a : Nat} {b : Byte} {c : Host.Cell} :
    c ∈ m.insert a b ↔ c = (a, b) ∨ c ∈ m := by
  induction m with
  | nil => simp [Memory.insert]
  | cons d rest ih =>
    simp only [Memory.insert]
    split <;> simp [ih, or_left_comm]

theorem Memory.wf_insert {m : Memory} (h : m.wf) {a : Nat} {b : Byte} (hb : b ≠ 0) (ha : ∀ c ∈ m, c.1 ≠ a) :
    (m.insert a b).wf := by
  refine ⟨?_, fun c hc => ?_⟩
  · have hs := h.1
    clear h
    induction m with
    | nil => simp [Memory.insert]
    | cons d rest ih =>
      rw [List.pairwise_cons] at hs
      simp only [Memory.insert]
      split
      · next hlt =>
        refine List.pairwise_cons.mpr ⟨fun x hx => ?_, List.pairwise_cons.mpr hs⟩
        rcases List.mem_cons.mp hx with rfl | hx
        · exact hlt
        · exact lt_trans hlt (hs.1 x hx)
      · next hge =>
        have hd : d.1 ≠ a := ha d (List.mem_cons_self ..)
        refine List.pairwise_cons.mpr
          ⟨fun x hx => ?_, ih (fun c hc => ha c (List.mem_cons_of_mem _ hc)) hs.2⟩
        rcases Memory.mem_insert.mp hx with rfl | hx
        · show d.1 < a; omega
        · exact hs.1 x hx
  · rcases Memory.mem_insert.mp hc with rfl | hc
    · exact hb
    · exact h.2 c hc

/-- Every write keeps the canonical form. -/
theorem Memory.wf_write {m : Memory} (h : m.wf) (a : Nat) (b : Byte) : (m.write a b).wf := by
  unfold Memory.write
  split
  · exact Memory.wf_without h a
  · next hb => exact Memory.wf_insert (Memory.wf_without h a) hb (Memory.not_mem_without m a)

theorem Memory.wf_writeBytes {m : Memory} (h : m.wf) (a : Nat) (bs : List Byte) : (m.writeBytes a bs).wf := by
  induction bs generalizing m a with
  | nil => exact h
  | cons b rest ih => exact ih (Memory.wf_write h a b) (a + 1)

theorem Memory.wf_writeLE {m : Memory} (h : m.wf) (a n v : Nat) : (m.writeLE a n v).wf :=
  Memory.wf_writeBytes h a _

/-- A write inside DMEM holds no cell outside it. -/
theorem Memory.within_write {m : Memory} {size a : Nat} (h : m.within size) (ha : a < size) (b : Byte) :
    (m.write a b).within size := by
  have hw : (m.without a).within size := fun c hc => h c (List.mem_filter.mp hc).1
  unfold Memory.write
  split
  · exact hw
  · intro c hc
    rcases Memory.mem_insert.mp hc with rfl | hc
    · exact ha
    · exact hw c hc

theorem Memory.within_writeBytes {m : Memory} {size a : Nat} (h : m.within size) (bs : List Byte)
    (ha : bs = [] ∨ a + bs.length ≤ size) : (m.writeBytes a bs).within size := by
  induction bs generalizing m a with
  | nil => exact h
  | cons b rest ih =>
    have hl : a + (rest.length + 1) ≤ size := by simpa using ha
    exact ih (Memory.within_write h (by omega) b) (Or.inr (by omega))

/-! ### Byte strings -/

@[simp] theorem Memory.length_readBytes (m : Memory) (a n : Nat) : (m.readBytes a n).length = n := by
  induction n generalizing a with
  | zero => rfl
  | succ n ih => simp [Memory.readBytes, ih]

theorem Memory.getElem_readBytes (m : Memory) (a n j : Nat) (h : j < (m.readBytes a n).length) :
    (m.readBytes a n)[j] = m.read (a + j) := by
  induction n generalizing a j with
  | zero => simp at h
  | succ n ih =>
    cases j with
    | zero => rfl
    | succ j =>
      simp only [Memory.readBytes, List.getElem_cons_succ]
      rw [ih (a + 1) j (by simpa [Memory.readBytes] using h)]
      congr 1; omega

theorem Memory.readBytes_congr {m m' : Memory} {a a' n : Nat} (h : ∀ j, j < n → m.read (a + j) = m'.read (a' + j)) :
    m.readBytes a n = m'.readBytes a' n := by
  apply List.ext_getElem (by simp)
  intro j h1 h2
  rw [Memory.getElem_readBytes, Memory.getElem_readBytes, h j (by simpa using h1)]

/-- What a byte string's write does: its own bytes, and every other byte as before. -/
theorem Memory.read_writeBytes (m : Memory) (a a' : Nat) (bs : List Byte) :
    (m.writeBytes a bs).read a' = if a ≤ a' ∧ a' < a + bs.length then bs.getD (a' - a) 0 else m.read a' := by
  induction bs generalizing m a with
  | nil => simp [Memory.writeBytes]
  | cons b rest ih =>
    rw [Memory.writeBytes, ih]
    by_cases h : a' = a
    · subst h; simp
    · by_cases h2 : a + 1 ≤ a' ∧ a' < a + 1 + rest.length
      · rw [if_pos h2, if_pos (by simp; omega)]
        obtain ⟨d, hd⟩ : ∃ d, a' - a = d + 1 := ⟨a' - a - 1, by omega⟩
        rw [hd, List.getD_cons_succ]
        congr 1; omega
      · rw [if_neg h2, if_neg (by simp; omega), Memory.read_write_of_ne _ _ h]

theorem Memory.read_writeBytes_outside (m : Memory) {a a' : Nat} (bs : List Byte)
    (h : ¬(a ≤ a' ∧ a' < a + bs.length)) : (m.writeBytes a bs).read a' = m.read a' := by
  rw [Memory.read_writeBytes, if_neg h]

/-- A byte string reads back. -/
theorem Memory.readBytes_writeBytes (m : Memory) (a : Nat) (bs : List Byte) :
    (m.writeBytes a bs).readBytes a bs.length = bs := by
  apply List.ext_getElem (by simp)
  intro j h1 h2
  rw [Memory.getElem_readBytes, Memory.read_writeBytes, if_pos (by omega)]
  simp [h2]

/-- A byte string that shares no byte with a later write reads as before. -/
theorem Memory.readBytes_writeBytes_disjoint (m : Memory) (a a' n : Nat) (bs : List Byte)
    (h : ∀ j, j < n → ¬(a' ≤ a + j ∧ a + j < a' + bs.length)) :
    (m.writeBytes a' bs).readBytes a n = m.readBytes a n :=
  Memory.readBytes_congr fun j hj => Memory.read_writeBytes_outside m bs (h j hj)

theorem Memory.readBytes_append (m : Memory) (a n n' : Nat) :
    m.readBytes a (n + n') = m.readBytes a n ++ m.readBytes (a + n) n' := by
  induction n generalizing a with
  | zero => simp [Memory.readBytes]
  | succ n ih =>
    rw [Nat.succ_add, Memory.readBytes, ih (a + 1), Memory.readBytes]
    simp [Nat.add_comm, Nat.add_left_comm]

theorem Memory.drop_take_readBytes (m : Memory) (a n off len : Nat) (h : off + len ≤ n) :
    ((m.readBytes a n).drop off).take len = m.readBytes (a + off) len := by
  apply List.ext_getElem (by simp; omega)
  intro j h1 h2
  simp only [List.getElem_take, List.getElem_drop, Memory.getElem_readBytes, Nat.add_assoc]

/-! ### Byte order -/

@[simp] theorem length_leBytes (v n : Nat) : (leBytes v n).length = n := by
  induction n generalizing v with
  | zero => rfl
  | succ n ih => simp [leBytes, ih]

theorem leNat_lt (bs : List Byte) : leNat bs < 256 ^ bs.length := by
  induction bs with
  | nil => simp [leNat]
  | cons b rest ih =>
    have hb : b.toNat < 256 := b.isLt
    simp only [leNat, List.length_cons, pow_succ]
    omega

/-- `LE(LEbytes(v, n)) = v` for `v < 256^n` (R11). -/
theorem leNat_leBytes (v n : Nat) : leNat (leBytes v n) = v % 256 ^ n := by
  induction n generalizing v with
  | zero => simp [leBytes, leNat, Nat.mod_one]
  | succ n ih =>
    simp only [leBytes, leNat, ih, BitVec.toNat_ofNat]
    rw [show 256 ^ (n + 1) = 256 * 256 ^ n by ring, Nat.mod_mul]

theorem leNat_leBytes_of_lt {v n : Nat} (h : v < 256 ^ n) : leNat (leBytes v n) = v := by
  rw [leNat_leBytes, Nat.mod_eq_of_lt h]

/-- `LEbytes(LE(b), len(b)) = b` (R11). -/
theorem leBytes_leNat (bs : List Byte) : leBytes (leNat bs) bs.length = bs := by
  induction bs with
  | nil => rfl
  | cons b rest ih =>
    have hb : b.toNat < 256 := b.isLt
    simp only [leNat, List.length_cons, leBytes]
    rw [show (b.toNat + 256 * leNat rest) / 256 = leNat rest by omega, ih]
    congr 1
    apply BitVec.eq_of_toNat_eq
    simp only [BitVec.toNat_ofNat]
    omega

theorem Memory.readLE_congr {m m' : Memory} {a a' n : Nat} (h : ∀ j, j < n → m.read (a + j) = m'.read (a' + j)) :
    m.readLE a n = m'.readLE a' n := by
  rw [Memory.readLE, Memory.readLE, Memory.readBytes_congr h]

theorem Memory.readLE_lt (m : Memory) (a n : Nat) : m.readLE a n < 256 ^ n := by
  simpa [Memory.readLE] using leNat_lt (m.readBytes a n)

end Sys2Proof.Machine
end

