-- ==== Sys2Proof/Laws/Operands.lean ====
section
/-! SUPPORT. The laws of regions, of the packed format and of element arrays. -/

namespace Sys2Proof.Machine

/-! ### Regions -/

theorem regionsOK_inRange {size : Nat} {rs : List Region} (h : regionsOK size rs = true) {r : Region} (hr : r ∈ rs) :
    r.len = 0 ∨ r.addr + r.len ≤ size := by
  simp only [regionsOK, Bool.and_eq_true, List.all_eq_true] at h
  simpa [Region.inRange] using h.1 r hr

theorem Region.overlaps_eq_false {x y : Region} : x.overlaps y = false ↔
    x.len = 0 ∨ y.len = 0 ∨ x.addr + x.len ≤ y.addr ∨ y.addr + y.len ≤ x.addr := by
  simp only [Region.overlaps, Bool.and_eq_false_iff, decide_eq_false_iff_not]
  omega

theorem pairwiseDisjoint_iff {rs : List Region} :
    pairwiseDisjoint rs = true ↔ rs.Pairwise fun x y => x.overlaps y = false := by
  induction rs with
  | nil => simp [pairwiseDisjoint]
  | cons r rest ih => simp [pairwiseDisjoint, ih]

theorem regionsOK_pairwise {size : Nat} {rs : List Region} (h : regionsOK size rs = true) :
    rs.Pairwise fun x y => x.overlaps y = false := by
  simp only [regionsOK, Bool.and_eq_true] at h
  exact pairwiseDisjoint_iff.mp h.2

theorem regionsOK_single {size : Nat} {r : Region} :
    regionsOK size [r] = true ↔ r.len = 0 ∨ r.addr + r.len ≤ size := by
  simp [regionsOK, pairwiseDisjoint, Region.inRange]

/-! ### Scalars of a fixed width, one after the other -/

theorem length_scalars (w : Nat) (xs : List Nat) : (xs.flatMap fun x => leBytes x w).length = xs.length * w := by
  induction xs with
  | nil => simp
  | cons x rest ih => simp [ih, Nat.add_mul, Nat.add_comm]

@[simp] theorem length_pack (xs : List Nat) : (pack xs).length = xs.length * 2 := length_scalars 2 xs

@[simp] theorem length_elemBytes (xs : List Nat) : (elemBytes xs).length = xs.length * 4 := length_scalars 4 xs

@[simp] theorem length_readElems (m : Memory) (a cnt : Nat) : (m.readElems a cnt).length = cnt := by
  simp [Memory.readElems]

@[simp] theorem length_unpack (b : List Byte) (cnt : Nat) : (unpack b cnt).length = cnt := by simp [unpack]

theorem getElem_readElems (m : Memory) (a cnt k : Nat) (h : k < (m.readElems a cnt).length) :
    (m.readElems a cnt)[k] = m.readLE (a + 4 * k) 4 := by simp [Memory.readElems]

theorem getElem_unpack (b : List Byte) (cnt k : Nat) (h : k < (unpack b cnt).length) :
    (unpack b cnt)[k] = scalarAt b (2 * k) := by simp [unpack]

/-- Scalar `k` of a string of scalars stands at byte `w * k`. -/
theorem drop_take_scalars (w : Nat) (xs : List Nat) (k : Nat) (h : k < xs.length) :
    ((xs.flatMap fun x => leBytes x w).drop (w * k)).take w = leBytes xs[k] w := by
  induction xs generalizing k with
  | nil => simp at h
  | cons x rest ih =>
    cases k with
    | zero => simp
    | succ k =>
      rw [List.flatMap_cons, Nat.mul_succ, Nat.add_comm, ← List.drop_drop]
      rw [List.drop_left' (length_leBytes x w)]
      simpa using ih k (by simpa using h)

/-- A string of scalars, once written, reads back scalar by scalar. -/
theorem Memory.readLE_writeBytes_scalars (m : Memory) (a w : Nat) (xs : List Nat) (k : Nat) (h : k < xs.length)
    (hx : xs[k] < 256 ^ w) :
    (m.writeBytes a (xs.flatMap fun x => leBytes x w)).readLE (a + w * k) w = xs[k] := by
  have hb : w * k + w ≤ (xs.flatMap fun x => leBytes x w).length := by
    rw [length_scalars]; nlinarith
  rw [Memory.readLE, ← Memory.drop_take_readBytes _ a _ (w * k) w hb, Memory.readBytes_writeBytes,
    drop_take_scalars w xs k h, leNat_leBytes_of_lt hx]

/-- A scalar of a byte string read from memory is the scalar in memory. -/
theorem scalarAt_readBytes (m : Memory) (a n off : Nat) (h : off + 2 ≤ n) :
    scalarAt (m.readBytes a n) off = m.readLE (a + off) 2 := by
  rw [scalarAt, Memory.drop_take_readBytes m a n off 2 h, Memory.readLE]

/-- A packed scalar is below 65536 (R120). -/
theorem scalarAt_lt (b : List Byte) (off : Nat) : scalarAt b off < 65536 := by
  have h := leNat_lt ((b.drop off).take 2)
  have hl : ((b.drop off).take 2).length ≤ 2 := by simp
  calc scalarAt b off < 256 ^ ((b.drop off).take 2).length := h
    _ ≤ 256 ^ 2 := Nat.pow_le_pow_right (by norm_num) hl

/-- `unpack(pack(x), cnt) = x` for scalars below 65536 (R125). -/
theorem unpack_pack (xs : List Nat) (h : ∀ x ∈ xs, x < 65536) : unpack (pack xs) xs.length = xs := by
  apply List.ext_getElem (by simp)
  intro k h1 h2
  rw [getElem_unpack, scalarAt, pack, drop_take_scalars 2 xs k h2,
    leNat_leBytes_of_lt (by simpa using h _ (List.getElem_mem h2))]

theorem unpackable_eq_false {xs : List Nat} : unpackable xs = false ↔ ∀ x ∈ xs, x < 65536 := by
  simp [unpackable]

theorem unpackable_eq_true {xs : List Nat} : unpackable xs = true ↔ ∃ x ∈ xs, 65536 ≤ x := by
  simp [unpackable]

@[simp] theorem Memory.getElem_readSeed (m : Memory) (a k : Nat) (h : k < 32) : (m.readSeed a)[k] = m.read (a + k) := by
  simp [Memory.readSeed]

/-- The 32 seed bytes as a byte string. -/
theorem Memory.toList_readSeed (m : Memory) (a : Nat) : (m.readSeed a).toList = m.readBytes a 32 := by
  apply List.ext_getElem (by simp)
  intro k h1 h2
  rw [Memory.getElem_readBytes, Vector.getElem_toList, Memory.getElem_readSeed]

theorem Memory.readSeed_congr {m m' : Memory} {a a' : Nat} (h : ∀ j, j < 32 → m.read (a + j) = m'.read (a' + j)) :
    m.readSeed a = m'.readSeed a' := by
  apply Vector.ext
  intro k hk
  simp [h k hk]

end Sys2Proof.Machine
end

