-- ==== Sys2Proof/Laws/State.lean ====
section
/-! SUPPORT. One lemma per field per named update of State, so that no proof unfolds a record update. -/

namespace Sys2Proof.Machine

@[simp] theorem State.issue_cmd (s : State) (w : Word) : (s.issue w).cmd = w := rfl
@[simp] theorem State.issue_busy (s : State) (w : Word) : (s.issue w).busy = true := rfl
@[simp] theorem State.issue_done (s : State) (w : Word) : (s.issue w).done = false := rfl
@[simp] theorem State.issue_err (s : State) (w : Word) : (s.issue w).err = false := rfl
@[simp] theorem State.issue_errcode (s : State) (w : Word) : (s.issue w).errcode = 0x00 := rfl
@[simp] theorem State.issue_args (s : State) (w : Word) : (s.issue w).args = s.args := rfl
@[simp] theorem State.issue_res0 (s : State) (w : Word) : (s.issue w).res0 = s.res0 := rfl
@[simp] theorem State.issue_rngValid (s : State) (w : Word) : (s.issue w).rngValid = s.rngValid := rfl
@[simp] theorem State.issue_rngSeed (s : State) (w : Word) : (s.issue w).rngSeed = s.rngSeed := rfl
@[simp] theorem State.issue_rngPos (s : State) (w : Word) : (s.issue w).rngPos = s.rngPos := rfl
@[simp] theorem State.issue_dmem (s : State) (w : Word) : (s.issue w).dmem = s.dmem := rfl
@[simp] theorem State.issue_params (s : State) (w : Word) : (s.issue w).params = s.params := rfl
@[simp] theorem State.issue_events (s : State) (w : Word) : (s.issue w).events = s.events := rfl
@[simp] theorem State.issue_replies (s : State) (w : Word) : (s.issue w).replies = s.replies := rfl

@[simp] theorem State.setRes0_cmd (s : State) (v : Word) : (s.setRes0 v).cmd = s.cmd := rfl
@[simp] theorem State.setRes0_busy (s : State) (v : Word) : (s.setRes0 v).busy = s.busy := rfl
@[simp] theorem State.setRes0_done (s : State) (v : Word) : (s.setRes0 v).done = s.done := rfl
@[simp] theorem State.setRes0_err (s : State) (v : Word) : (s.setRes0 v).err = s.err := rfl
@[simp] theorem State.setRes0_errcode (s : State) (v : Word) : (s.setRes0 v).errcode = s.errcode := rfl
@[simp] theorem State.setRes0_args (s : State) (v : Word) : (s.setRes0 v).args = s.args := rfl
@[simp] theorem State.setRes0_res0 (s : State) (v : Word) : (s.setRes0 v).res0 = v := rfl
@[simp] theorem State.setRes0_rngValid (s : State) (v : Word) : (s.setRes0 v).rngValid = s.rngValid := rfl
@[simp] theorem State.setRes0_rngSeed (s : State) (v : Word) : (s.setRes0 v).rngSeed = s.rngSeed := rfl
@[simp] theorem State.setRes0_rngPos (s : State) (v : Word) : (s.setRes0 v).rngPos = s.rngPos := rfl
@[simp] theorem State.setRes0_dmem (s : State) (v : Word) : (s.setRes0 v).dmem = s.dmem := rfl
@[simp] theorem State.setRes0_params (s : State) (v : Word) : (s.setRes0 v).params = s.params := rfl
@[simp] theorem State.setRes0_events (s : State) (v : Word) : (s.setRes0 v).events = s.events := rfl
@[simp] theorem State.setRes0_replies (s : State) (v : Word) : (s.setRes0 v).replies = s.replies := rfl

@[simp] theorem State.setDmem_cmd (s : State) (m : Memory) : (s.setDmem m).cmd = s.cmd := rfl
@[simp] theorem State.setDmem_busy (s : State) (m : Memory) : (s.setDmem m).busy = s.busy := rfl
@[simp] theorem State.setDmem_done (s : State) (m : Memory) : (s.setDmem m).done = s.done := rfl
@[simp] theorem State.setDmem_err (s : State) (m : Memory) : (s.setDmem m).err = s.err := rfl
@[simp] theorem State.setDmem_errcode (s : State) (m : Memory) : (s.setDmem m).errcode = s.errcode := rfl
@[simp] theorem State.setDmem_args (s : State) (m : Memory) : (s.setDmem m).args = s.args := rfl
@[simp] theorem State.setDmem_res0 (s : State) (m : Memory) : (s.setDmem m).res0 = s.res0 := rfl
@[simp] theorem State.setDmem_rngValid (s : State) (m : Memory) : (s.setDmem m).rngValid = s.rngValid := rfl
@[simp] theorem State.setDmem_rngSeed (s : State) (m : Memory) : (s.setDmem m).rngSeed = s.rngSeed := rfl
@[simp] theorem State.setDmem_rngPos (s : State) (m : Memory) : (s.setDmem m).rngPos = s.rngPos := rfl
@[simp] theorem State.setDmem_dmem (s : State) (m : Memory) : (s.setDmem m).dmem = m := rfl
@[simp] theorem State.setDmem_params (s : State) (m : Memory) : (s.setDmem m).params = s.params := rfl
@[simp] theorem State.setDmem_events (s : State) (m : Memory) : (s.setDmem m).events = s.events := rfl
@[simp] theorem State.setDmem_replies (s : State) (m : Memory) : (s.setDmem m).replies = s.replies := rfl

@[simp] theorem State.setRng_cmd (s : State) (v : Bool) (sd : Seed) (p : BitVec 64) : (s.setRng v sd p).cmd = s.cmd := rfl
@[simp] theorem State.setRng_busy (s : State) (v : Bool) (sd : Seed) (p : BitVec 64) : (s.setRng v sd p).busy = s.busy := rfl
@[simp] theorem State.setRng_done (s : State) (v : Bool) (sd : Seed) (p : BitVec 64) : (s.setRng v sd p).done = s.done := rfl
@[simp] theorem State.setRng_err (s : State) (v : Bool) (sd : Seed) (p : BitVec 64) : (s.setRng v sd p).err = s.err := rfl
@[simp] theorem State.setRng_errcode (s : State) (v : Bool) (sd : Seed) (p : BitVec 64) : (s.setRng v sd p).errcode = s.errcode := rfl
@[simp] theorem State.setRng_args (s : State) (v : Bool) (sd : Seed) (p : BitVec 64) : (s.setRng v sd p).args = s.args := rfl
@[simp] theorem State.setRng_res0 (s : State) (v : Bool) (sd : Seed) (p : BitVec 64) : (s.setRng v sd p).res0 = s.res0 := rfl
@[simp] theorem State.setRng_rngValid (s : State) (v : Bool) (sd : Seed) (p : BitVec 64) : (s.setRng v sd p).rngValid = v := rfl
@[simp] theorem State.setRng_rngSeed (s : State) (v : Bool) (sd : Seed) (p : BitVec 64) : (s.setRng v sd p).rngSeed = sd := rfl
@[simp] theorem State.setRng_rngPos (s : State) (v : Bool) (sd : Seed) (p : BitVec 64) : (s.setRng v sd p).rngPos = p := rfl
@[simp] theorem State.setRng_dmem (s : State) (v : Bool) (sd : Seed) (p : BitVec 64) : (s.setRng v sd p).dmem = s.dmem := rfl
@[simp] theorem State.setRng_params (s : State) (v : Bool) (sd : Seed) (p : BitVec 64) : (s.setRng v sd p).params = s.params := rfl
@[simp] theorem State.setRng_events (s : State) (v : Bool) (sd : Seed) (p : BitVec 64) : (s.setRng v sd p).events = s.events := rfl
@[simp] theorem State.setRng_replies (s : State) (v : Bool) (sd : Seed) (p : BitVec 64) : (s.setRng v sd p).replies = s.replies := rfl

@[simp] theorem State.advance_cmd (s : State) (w : Nat) : (s.advance w).cmd = s.cmd := rfl
@[simp] theorem State.advance_busy (s : State) (w : Nat) : (s.advance w).busy = s.busy := rfl
@[simp] theorem State.advance_done (s : State) (w : Nat) : (s.advance w).done = s.done := rfl
@[simp] theorem State.advance_err (s : State) (w : Nat) : (s.advance w).err = s.err := rfl
@[simp] theorem State.advance_errcode (s : State) (w : Nat) : (s.advance w).errcode = s.errcode := rfl
@[simp] theorem State.advance_args (s : State) (w : Nat) : (s.advance w).args = s.args := rfl
@[simp] theorem State.advance_res0 (s : State) (w : Nat) : (s.advance w).res0 = s.res0 := rfl
@[simp] theorem State.advance_rngValid (s : State) (w : Nat) : (s.advance w).rngValid = s.rngValid := rfl
@[simp] theorem State.advance_rngSeed (s : State) (w : Nat) : (s.advance w).rngSeed = s.rngSeed := rfl
@[simp] theorem State.advance_rngPos (s : State) (w : Nat) : (s.advance w).rngPos = s.rngPos + BitVec.ofNat 64 w := rfl
@[simp] theorem State.advance_dmem (s : State) (w : Nat) : (s.advance w).dmem = s.dmem := rfl
@[simp] theorem State.advance_params (s : State) (w : Nat) : (s.advance w).params = s.params := rfl
@[simp] theorem State.advance_events (s : State) (w : Nat) : (s.advance w).events = s.events := rfl
@[simp] theorem State.advance_replies (s : State) (w : Nat) : (s.advance w).replies = s.replies := rfl

@[simp] theorem State.reply_cmd (s : State) (v : Word) : (s.reply v).cmd = s.cmd := rfl
@[simp] theorem State.reply_busy (s : State) (v : Word) : (s.reply v).busy = s.busy := rfl
@[simp] theorem State.reply_done (s : State) (v : Word) : (s.reply v).done = s.done := rfl
@[simp] theorem State.reply_err (s : State) (v : Word) : (s.reply v).err = s.err := rfl
@[simp] theorem State.reply_errcode (s : State) (v : Word) : (s.reply v).errcode = s.errcode := rfl
@[simp] theorem State.reply_args (s : State) (v : Word) : (s.reply v).args = s.args := rfl
@[simp] theorem State.reply_res0 (s : State) (v : Word) : (s.reply v).res0 = s.res0 := rfl
@[simp] theorem State.reply_rngValid (s : State) (v : Word) : (s.reply v).rngValid = s.rngValid := rfl
@[simp] theorem State.reply_rngSeed (s : State) (v : Word) : (s.reply v).rngSeed = s.rngSeed := rfl
@[simp] theorem State.reply_rngPos (s : State) (v : Word) : (s.reply v).rngPos = s.rngPos := rfl
@[simp] theorem State.reply_dmem (s : State) (v : Word) : (s.reply v).dmem = s.dmem := rfl
@[simp] theorem State.reply_params (s : State) (v : Word) : (s.reply v).params = s.params := rfl
@[simp] theorem State.reply_events (s : State) (v : Word) : (s.reply v).events = s.events := rfl
@[simp] theorem State.reply_replies (s : State) (v : Word) : (s.reply v).replies = v :: s.replies := rfl

@[simp] theorem State.completeOk_cmd (s : State) : (s.completeOk).cmd = s.cmd := rfl
@[simp] theorem State.completeOk_busy (s : State) : (s.completeOk).busy = false := rfl
@[simp] theorem State.completeOk_done (s : State) : (s.completeOk).done = true := rfl
@[simp] theorem State.completeOk_err (s : State) : (s.completeOk).err = s.err := rfl
@[simp] theorem State.completeOk_errcode (s : State) : (s.completeOk).errcode = s.errcode := rfl
@[simp] theorem State.completeOk_args (s : State) : (s.completeOk).args = s.args := rfl
@[simp] theorem State.completeOk_res0 (s : State) : (s.completeOk).res0 = s.res0 := rfl
@[simp] theorem State.completeOk_rngValid (s : State) : (s.completeOk).rngValid = s.rngValid := rfl
@[simp] theorem State.completeOk_rngSeed (s : State) : (s.completeOk).rngSeed = s.rngSeed := rfl
@[simp] theorem State.completeOk_rngPos (s : State) : (s.completeOk).rngPos = s.rngPos := rfl
@[simp] theorem State.completeOk_dmem (s : State) : (s.completeOk).dmem = s.dmem := rfl
@[simp] theorem State.completeOk_params (s : State) : (s.completeOk).params = s.params := rfl
@[simp] theorem State.completeOk_events (s : State) : (s.completeOk).events = s.events := rfl
@[simp] theorem State.completeOk_replies (s : State) : (s.completeOk).replies = s.replies := rfl

@[simp] theorem State.completeError_cmd (s : State) (e : ErrorKind) : (s.completeError e).cmd = s.cmd := rfl
@[simp] theorem State.completeError_busy (s : State) (e : ErrorKind) : (s.completeError e).busy = false := rfl
@[simp] theorem State.completeError_done (s : State) (e : ErrorKind) : (s.completeError e).done = true := rfl
@[simp] theorem State.completeError_err (s : State) (e : ErrorKind) : (s.completeError e).err = true := rfl
@[simp] theorem State.completeError_errcode (s : State) (e : ErrorKind) : (s.completeError e).errcode = e.code := rfl
@[simp] theorem State.completeError_args (s : State) (e : ErrorKind) : (s.completeError e).args = s.args := rfl
@[simp] theorem State.completeError_res0 (s : State) (e : ErrorKind) : (s.completeError e).res0 = s.res0 := rfl
@[simp] theorem State.completeError_rngValid (s : State) (e : ErrorKind) : (s.completeError e).rngValid = s.rngValid := rfl
@[simp] theorem State.completeError_rngSeed (s : State) (e : ErrorKind) : (s.completeError e).rngSeed = s.rngSeed := rfl
@[simp] theorem State.completeError_rngPos (s : State) (e : ErrorKind) : (s.completeError e).rngPos = s.rngPos := rfl
@[simp] theorem State.completeError_dmem (s : State) (e : ErrorKind) : (s.completeError e).dmem = s.dmem := rfl
@[simp] theorem State.completeError_params (s : State) (e : ErrorKind) : (s.completeError e).params = s.params := rfl
@[simp] theorem State.completeError_events (s : State) (e : ErrorKind) : (s.completeError e).events = s.events := rfl
@[simp] theorem State.completeError_replies (s : State) (e : ErrorKind) : (s.completeError e).replies = s.replies := rfl

@[simp] theorem State.afterSuccess_cmd (s : State) : (s.afterSuccess).cmd = s.cmd := rfl
@[simp] theorem State.afterSuccess_busy (s : State) : (s.afterSuccess).busy = false := rfl
@[simp] theorem State.afterSuccess_done (s : State) : (s.afterSuccess).done = true := rfl
@[simp] theorem State.afterSuccess_err (s : State) : (s.afterSuccess).err = s.err := rfl
@[simp] theorem State.afterSuccess_errcode (s : State) : (s.afterSuccess).errcode = s.errcode := rfl
@[simp] theorem State.afterSuccess_args (s : State) : (s.afterSuccess).args = s.args := rfl
@[simp] theorem State.afterSuccess_res0 (s : State) : (s.afterSuccess).res0 = s.res0 := rfl
@[simp] theorem State.afterSuccess_rngValid (s : State) : (s.afterSuccess).rngValid = s.rngValid := rfl
@[simp] theorem State.afterSuccess_rngSeed (s : State) : (s.afterSuccess).rngSeed = s.rngSeed := rfl
@[simp] theorem State.afterSuccess_rngPos (s : State) : (s.afterSuccess).rngPos = s.rngPos := rfl
@[simp] theorem State.afterSuccess_dmem (s : State) : (s.afterSuccess).dmem = s.dmem := rfl
@[simp] theorem State.afterSuccess_params (s : State) : (s.afterSuccess).params = s.params := rfl
@[simp] theorem State.afterSuccess_events (s : State) : (s.afterSuccess).events = s.events := rfl
@[simp] theorem State.afterSuccess_replies (s : State) : (s.afterSuccess).replies = s.replies := rfl

@[simp] theorem State.afterError_cmd (s : State) (c : Byte) : (s.afterError c).cmd = s.cmd := rfl
@[simp] theorem State.afterError_busy (s : State) (c : Byte) : (s.afterError c).busy = false := rfl
@[simp] theorem State.afterError_done (s : State) (c : Byte) : (s.afterError c).done = true := rfl
@[simp] theorem State.afterError_err (s : State) (c : Byte) : (s.afterError c).err = true := rfl
@[simp] theorem State.afterError_errcode (s : State) (c : Byte) : (s.afterError c).errcode = c := rfl
@[simp] theorem State.afterError_args (s : State) (c : Byte) : (s.afterError c).args = s.args := rfl
@[simp] theorem State.afterError_res0 (s : State) (c : Byte) : (s.afterError c).res0 = s.res0 := rfl
@[simp] theorem State.afterError_rngValid (s : State) (c : Byte) : (s.afterError c).rngValid = s.rngValid := rfl
@[simp] theorem State.afterError_rngSeed (s : State) (c : Byte) : (s.afterError c).rngSeed = s.rngSeed := rfl
@[simp] theorem State.afterError_rngPos (s : State) (c : Byte) : (s.afterError c).rngPos = s.rngPos := rfl
@[simp] theorem State.afterError_dmem (s : State) (c : Byte) : (s.afterError c).dmem = s.dmem := rfl
@[simp] theorem State.afterError_params (s : State) (c : Byte) : (s.afterError c).params = s.params := rfl
@[simp] theorem State.afterError_events (s : State) (c : Byte) : (s.afterError c).events = s.events := rfl
@[simp] theorem State.afterError_replies (s : State) (c : Byte) : (s.afterError c).replies = s.replies := rfl

/-- An argument register is read through every update but a host write. -/
theorem State.arg_congr {s t : State} (h : t.args = s.args) (k : Fin 8) : t.arg k = s.arg k := by
  simp [State.arg, h]

/-- An argument register holds a natural number below `2^32` (R94). -/
theorem State.arg_lt (s : State) (k : Fin 8) : s.arg k < 2 ^ 32 := (s.args[k]).isLt

@[simp] theorem State.complete_ok (s t : State) : s.complete (.ok t) = t.completeOk := rfl
@[simp] theorem State.complete_error (s : State) (e : ErrorKind) : s.complete (.error e) = s.completeError e := rfl

/-- Completion with an error is the error state of its code (R306). -/
theorem State.completeError_eq (s : State) (e : ErrorKind) : s.completeError e = s.afterError e.code := rfl

/-- Completion without error is the success state (R93). -/
theorem State.completeOk_eq (s : State) : s.completeOk = s.afterSuccess := rfl

end Sys2Proof.Machine
end

