-- ==== Sys2Proof/Laws/Commands.lean ====
section
/-! SUPPORT. What each command's rule can do, said once: when it ends without error and with which state, and which
errors it raises. Callers cite these and do not unfold the rules. -/

namespace Sys2Proof.Machine

/-- The rule behind each meaning: `exec i s` is the completion of `ruleOf i s`. -/
def ruleOf (i : Instr) (s : State) : Except ErrorKind State :=
  match i with
  | .nop => .ok s
  | .modadd => modRule addmod s
  | .modsub => modRule submod s
  | .modmul => modRule mulmod s
  | .encode => encodeRule s
  | .decode => decodeRule s
  | .rngseed => rngseedRule s
  | .rngclr => .ok (s.setRng false (Vector.replicate 32 0) 0)
  | .sampleu => sampleuRule Config.collab s
  | .sampleg => samplegRule Config.collab s
  | .randmat => randmatRule Config.collab s
  | .randerr => randerrRule Config.collab s
  | .keygen => keygenRule Config.collab s
  | .encaps => encapsRule Config.collab s
  | .decaps => decapsRule Config.collab s
  | .zeroize => zeroizeRule s

/-- Every command answers a next state, the completion of its rule (R93). -/
theorem exec_eq (i : Instr) (s : State) : exec i s = .next (s.complete (ruleOf i s)) := by cases i <;> rfl

theorem exec_next_iff {i : Instr} {s t : State} : exec i s = .next t ↔ t = s.complete (ruleOf i s) := by
  rw [exec_eq]
  constructor
  · intro h; injection h with h; exact h.symm
  · rintro rfl; rfl

theorem exec_of_ok {i : Instr} {s t : State} (h : ruleOf i s = .ok t) : exec i s = .next t.afterSuccess := by
  rw [exec_eq, h]; rfl

theorem exec_of_error {i : Instr} {s : State} {e : ErrorKind} (h : ruleOf i s = .error e) :
    exec i s = .next (s.afterError e.code) := by
  rw [exec_eq, h]; rfl

/-- A command that answers `t` either ended its rule without error, or raised one and changed STATUS alone (R306). -/
theorem exec_cases {i : Instr} {s t : State} (h : exec i s = .next t) :
    (∃ u, ruleOf i s = .ok u ∧ t = u.afterSuccess) ∨ ∃ e, ruleOf i s = .error e ∧ t = s.afterError e.code := by
  rw [exec_next_iff] at h
  cases hr : ruleOf i s with
  | ok u => exact .inl ⟨u, rfl, by rw [h, hr]; rfl⟩
  | error e => exact .inr ⟨e, rfl, by rw [h, hr]; rfl⟩

/-! ### The rules one by one -/

theorem modRule_ok_iff {f : Nat → Nat → Nat → Nat} {s t : State} : modRule f s = .ok t ↔
    s.arg 0 < s.params.q ∧ s.arg 1 < s.params.q ∧
      t = s.setRes0 (BitVec.ofNat 32 (f s.params.q (s.arg 0) (s.arg 1))) := by
  unfold modRule
  split
  · next h => constructor
              · intro h'; cases h'
              · rintro ⟨h0, h1, -⟩; omega
  · next h =>
    push Not at h
    simp [h.1, h.2, eq_comm]

theorem modRule_error {f : Nat → Nat → Nat → Nat} {s : State} {e : ErrorKind} (h : modRule f s = .error e) :
    e = .operandRange ∧ (s.params.q ≤ s.arg 0 ∨ s.params.q ≤ s.arg 1) := by
  unfold modRule at h
  split at h <;> simp_all

theorem encodeRule_ok {s t : State} (h : encodeRule s = .ok t) :
    regionsOK s.params.dmemSize
      [⟨s.arg 0, s.arg 1 * s.arg 2 * 4⟩, ⟨s.arg 3, s.arg 1 * s.arg 2 * 2⟩] = true ∧
    unpackable (s.dmem.readElems (s.arg 0) (s.arg 1 * s.arg 2)) = false ∧
    t = (s.setDmem (s.dmem.writeBytes (s.arg 3) (pack (s.dmem.readElems (s.arg 0) (s.arg 1 * s.arg 2))))).setRes0
      (BitVec.ofNat 32 (s.arg 1 * s.arg 2 * 2)) := by
  simp only [encodeRule] at h
  split at h
  · cases h
  · split at h
    · cases h
    · simp_all

theorem encodeRule_error {s : State} {e : ErrorKind} (h : encodeRule s = .error e) :
    e = .addressRange ∨ e = .encodeRange := by
  simp only [encodeRule] at h
  split at h
  · simp_all
  · split at h <;> simp_all

theorem decodeRule_ok {s t : State} (h : decodeRule s = .ok t) :
    s.arg 2 * s.arg 3 * 2 ≤ s.arg 1 ∧
    regionsOK s.params.dmemSize [⟨s.arg 0, s.arg 1⟩, ⟨s.arg 4, s.arg 2 * s.arg 3 * 4⟩] = true ∧
    t = (s.setDmem (s.dmem.writeBytes (s.arg 4)
      (elemBytes (unpack (s.dmem.readBytes (s.arg 0) (s.arg 2 * s.arg 3 * 2)) (s.arg 2 * s.arg 3))))).setRes0
      (BitVec.ofNat 32 (s.arg 2 * s.arg 3 * 2)) := by
  simp only [decodeRule] at h
  split at h
  · cases h
  · split at h
    · cases h
    · simp_all

theorem decodeRule_error {s : State} {e : ErrorKind} (h : decodeRule s = .error e) :
    e = .invalidParameter ∨ e = .addressRange := by
  simp only [decodeRule] at h
  split at h
  · simp_all
  · split at h <;> simp_all

theorem zeroizeRule_ok {s t : State} (h : zeroizeRule s = .ok t) :
    regionsOK s.params.dmemSize [⟨s.arg 0, s.arg 1⟩] = true ∧
    t = s.setDmem (s.dmem.writeBytes (s.arg 0) (List.replicate (s.arg 1) 0)) := by
  simp only [zeroizeRule] at h
  split at h <;> simp_all

theorem zeroizeRule_error {s : State} {e : ErrorKind} (h : zeroizeRule s = .error e) : e = .addressRange := by
  simp only [zeroizeRule] at h
  split at h <;> simp_all

theorem rngseedRule_ok {s t : State} (h : rngseedRule s = .ok t) :
    32 ≤ s.arg 1 ∧ regionsOK s.params.dmemSize [⟨s.arg 0, s.arg 1⟩] = true ∧
    t = s.setRng true (s.dmem.readSeed (s.arg 0)) 0 := by
  simp only [rngseedRule] at h
  split at h
  · cases h
  · split at h <;> simp_all

theorem rngseedRule_error {s : State} {e : ErrorKind} (h : rngseedRule s = .error e) :
    e = .randomGeneration ∨ e = .addressRange := by
  simp only [rngseedRule] at h
  split at h
  · simp_all
  · split at h <;> simp_all

theorem sampleuRule_ok {k : Collaborators} {s t : State} (h : sampleuRule k s = .ok t) :
    s.rngValid = true ∧ s.exhausted 1 = false ∧
    t = (s.setRes0 (BitVec.ofNat 32 (uniformAt k s.params.q s.rngSeed s.rngPos.toNat))).advance 1 := by
  simp only [sampleuRule] at h
  split at h
  · cases h
  · split at h <;> simp_all

theorem sampleuRule_error {k : Collaborators} {s : State} {e : ErrorKind} (h : sampleuRule k s = .error e) :
    e = .rngUnseeded ∨ e = .randomGeneration := by
  simp only [sampleuRule] at h
  split at h
  · simp_all
  · split at h <;> simp_all

theorem samplegRule_ok {k : Collaborators} {s t : State} (h : samplegRule k s = .ok t) :
    s.rngValid = true ∧ s.exhausted 2 = false ∧
    t = (s.setRes0 (BitVec.ofInt 32 (gaussAt k s.params.sigma s.rngSeed s.rngPos.toNat))).advance 2 := by
  simp only [samplegRule] at h
  split at h
  · cases h
  · split at h <;> simp_all

theorem samplegRule_error {k : Collaborators} {s : State} {e : ErrorKind} (h : samplegRule k s = .error e) :
    e = .rngUnseeded ∨ e = .randomGeneration := by
  simp only [samplegRule] at h
  split at h
  · simp_all
  · split at h <;> simp_all

theorem randmatRule_ok {k : Collaborators} {s t : State} (h : randmatRule k s = .ok t) :
    s.rngValid = true ∧ regionsOK s.params.dmemSize [⟨s.arg 2, s.arg 0 * s.arg 1 * 4⟩] = true ∧
    s.exhausted (s.arg 0 * s.arg 1) = false ∧
    t = (s.setDmem (s.dmem.writeBytes (s.arg 2)
      (elemBytes (uniforms k s.params.q s.rngSeed s.rngPos.toNat (s.arg 0 * s.arg 1))))).advance
      (s.arg 0 * s.arg 1) := by
  simp only [randmatRule] at h
  split at h
  · cases h
  · split at h
    · cases h
    · split at h <;> simp_all

theorem randmatRule_error {k : Collaborators} {s : State} {e : ErrorKind} (h : randmatRule k s = .error e) :
    e = .rngUnseeded ∨ e = .addressRange ∨ e = .randomGeneration := by
  simp only [randmatRule] at h
  split at h
  · simp_all
  · split at h
    · simp_all
    · split at h <;> simp_all

theorem randerrRule_ok {k : Collaborators} {s t : State} (h : randerrRule k s = .ok t) :
    s.rngValid = true ∧ regionsOK s.params.dmemSize [⟨s.arg 1, s.arg 0 * 4⟩] = true ∧
    s.exhausted (2 * s.arg 0) = false ∧
    t = (s.setDmem (s.dmem.writeBytes (s.arg 1)
      (elemBytes (errorVector k s.params s.rngSeed s.rngPos.toNat (s.arg 0))))).advance (2 * s.arg 0) := by
  simp only [randerrRule] at h
  split at h
  · cases h
  · split at h
    · cases h
    · split at h <;> simp_all

theorem randerrRule_error {k : Collaborators} {s : State} {e : ErrorKind} (h : randerrRule k s = .error e) :
    e = .rngUnseeded ∨ e = .addressRange ∨ e = .randomGeneration := by
  simp only [randerrRule] at h
  split at h
  · simp_all
  · split at h
    · simp_all
    · split at h <;> simp_all

theorem keygenRule_ok {k : Collaborators} {s t : State} (h : keygenRule k s = .ok t) :
    32 ≤ s.arg 1 ∧
    regionsOK s.params.dmemSize
      [⟨s.arg 0, s.arg 1⟩, ⟨s.arg 2, pkLen s.params⟩, ⟨s.arg 3, skLen s.params⟩] = true ∧
    ∃ m, m = keygenFn k s.params (s.dmem.readSeed (s.arg 0)) ∧ unpackable (m.a ++ m.b ++ m.s) = false ∧
      t = s.setDmem ((s.dmem.writeBytes (s.arg 2) (publicKeyBytes m (s.dmem.readSeed (s.arg 0)))).writeBytes
        (s.arg 3) (secretKeyBytes m (s.dmem.readSeed (s.arg 0)))) := by
  simp only [keygenRule] at h
  split at h
  · cases h
  · split at h
    · cases h
    · split at h <;> simp_all

theorem keygenRule_error {k : Collaborators} {s : State} {e : ErrorKind} (h : keygenRule k s = .error e) :
    e = .randomGeneration ∨ e = .addressRange ∨ e = .encodeRange := by
  simp only [keygenRule] at h
  split at h
  · simp_all
  · split at h
    · simp_all
    · split at h <;> simp_all

/-- What ENCAPS computes from memory, before its last test: the pair `(v, c)`, if the message fits. -/
def encapsPair (k : Collaborators) (s : State) : Option CipherPair :=
  encapsFn k s.params
    (unpack (s.dmem.readBytes (s.arg 0) (pkLen s.params)) (s.params.n * s.params.n))
    (unpack ((s.dmem.readBytes (s.arg 0) (pkLen s.params)).drop (s.params.n * s.params.n * 2)) s.params.n)
    (s.dmem.readSeed (s.arg 2)) (s.dmem.readBytes (s.arg 4) s.params.seclen)

theorem encapsRule_ok {k : Collaborators} {s t : State} (h : encapsRule k s = .ok t) :
    s.arg 1 = pkLen s.params ∧ 32 ≤ s.arg 3 ∧
    regionsOK s.params.dmemSize [⟨s.arg 0, pkLen s.params⟩, ⟨s.arg 2, s.arg 3⟩, ⟨s.arg 4, s.params.seclen⟩,
      ⟨s.arg 5, ctLen s.params⟩, ⟨s.arg 6, s.params.seclen⟩] = true ∧
    ∃ ct, encapsPair k s = some ct ∧ unpackable (ct.c :: ct.v) = false ∧
      t = s.setDmem ((s.dmem.writeBytes (s.arg 5)
        (ciphertextBytes ct (s.dmem.readBytes (s.arg 4) s.params.seclen))).writeBytes (s.arg 6)
        (digest k s.params (s.dmem.readBytes (s.arg 4) s.params.seclen))) := by
  simp only [encapsRule] at h
  split at h
  · cases h
  · split at h
    · cases h
    · split at h
      · cases h
      · split at h
        · cases h
        · next ct hct =>
          split at h
          · cases h
          · refine ⟨by simp_all, by simp_all, by simp_all, ct, hct, by simp_all, by simp_all⟩

theorem encapsRule_error {k : Collaborators} {s : State} {e : ErrorKind} (h : encapsRule k s = .error e) :
    e = .invalidKeyFormat ∨ e = .randomGeneration ∨ e = .addressRange ∨ e = .encapsulation ∨ e = .encodeRange := by
  simp only [encapsRule] at h
  split at h
  · simp_all
  · split at h
    · simp_all
    · split at h
      · simp_all
      · split at h
        · simp_all
        · split at h <;> simp_all

theorem decapsFn_some {k : Collaborators} {p : Params} {s v : List Nat} {c : Nat} {msg ss : List Byte}
    (h : decapsFn k p s v c msg = some ss) : ss = digest k p msg := by
  simp only [decapsFn] at h
  split at h <;> simp_all

/-- What DECAPS computes from memory: the shared secret, if the message is recovered. -/
def decapsSecret (k : Collaborators) (s : State) : Option (List Byte) :=
  decapsFn k s.params (unpack (s.dmem.readBytes (s.arg 0) (skLen s.params)) s.params.n)
    (unpack (s.dmem.readBytes (s.arg 2) (ctLen s.params)) s.params.n)
    (scalarAt (s.dmem.readBytes (s.arg 2) (ctLen s.params)) (s.params.n * 2))
    (((s.dmem.readBytes (s.arg 2) (ctLen s.params)).drop (s.params.n * 2 + 2)).take s.params.seclen)

theorem decapsRule_ok {k : Collaborators} {s t : State} (h : decapsRule k s = .ok t) :
    s.arg 1 = skLen s.params ∧ s.arg 3 = ctLen s.params ∧
    regionsOK s.params.dmemSize
      [⟨s.arg 0, skLen s.params⟩, ⟨s.arg 2, ctLen s.params⟩, ⟨s.arg 4, s.params.seclen⟩] = true ∧
    ∃ ss, decapsSecret k s = some ss ∧ ss.length = s.params.seclen ∧
      t = s.setDmem (s.dmem.writeBytes (s.arg 4) ss) := by
  simp only [decapsRule] at h
  split at h
  · cases h
  · split at h
    · cases h
    · split at h
      · cases h
      · split at h
        · cases h
        · next ss hss =>
          refine ⟨by simp_all, by simp_all, by simp_all, ss, hss, ?_, ?_⟩
          · rw [decapsFn_some hss]; simp [digest]
          · injection h with h; exact h.symm

theorem decapsRule_error {k : Collaborators} {s : State} {e : ErrorKind} (h : decapsRule k s = .error e) :
    e = .invalidKeyFormat ∨ e = .invalidCiphertextFormat ∨ e = .addressRange ∨ e = .decapsulation := by
  simp only [decapsRule] at h
  split at h
  · simp_all
  · split at h
    · simp_all
    · split at h
      · simp_all
      · split at h <;> simp_all

/-! ### All rules together -/

/-- A rule that ends without error writes DMEM, RES0 and the RNG context at most. -/
theorem ruleOf_writes {i : Instr} {s t : State} (h : ruleOf i s = .ok t) :
    t = { s with dmem := t.dmem, res0 := t.res0, rngValid := t.rngValid, rngSeed := t.rngSeed, rngPos := t.rngPos } := by
  cases i with
  | nop => cases h; rfl
  | modadd | modsub | modmul => obtain ⟨-, -, rfl⟩ := modRule_ok_iff.mp h; rfl
  | encode => obtain ⟨-, -, rfl⟩ := encodeRule_ok h; rfl
  | decode => obtain ⟨-, -, rfl⟩ := decodeRule_ok h; rfl
  | rngseed => obtain ⟨-, -, rfl⟩ := rngseedRule_ok h; rfl
  | rngclr => cases h; rfl
  | sampleu => obtain ⟨-, -, rfl⟩ := sampleuRule_ok h; rfl
  | sampleg => obtain ⟨-, -, rfl⟩ := samplegRule_ok h; rfl
  | randmat => obtain ⟨-, -, -, rfl⟩ := randmatRule_ok h; rfl
  | randerr => obtain ⟨-, -, -, rfl⟩ := randerrRule_ok h; rfl
  | keygen => obtain ⟨-, -, m, -, -, rfl⟩ := keygenRule_ok h; rfl
  | encaps => obtain ⟨-, -, -, ct, -, -, rfl⟩ := encapsRule_ok h; rfl
  | decaps => obtain ⟨-, -, -, ss, -, -, rfl⟩ := decapsRule_ok h; rfl
  | zeroize => obtain ⟨-, rfl⟩ := zeroizeRule_ok h; rfl

/-- The kinds a command raises: never `FragmentationError` (R274), and `IllegalCommand` only for a word that is no
command (R301). -/
theorem ruleOf_error {i : Instr} {s : State} {e : ErrorKind} (h : ruleOf i s = .error e) :
    e ≠ .fragmentationError ∧ e ≠ .illegalCommand := by
  cases i with
  | nop => cases h
  | modadd | modsub | modmul => rw [(modRule_error h).1]; decide
  | encode => rcases encodeRule_error h with rfl | rfl <;> decide
  | decode => rcases decodeRule_error h with rfl | rfl <;> decide
  | rngseed => rcases rngseedRule_error h with rfl | rfl <;> decide
  | rngclr => cases h
  | sampleu => rcases sampleuRule_error h with rfl | rfl <;> decide
  | sampleg => rcases samplegRule_error h with rfl | rfl <;> decide
  | randmat => rcases randmatRule_error h with rfl | rfl | rfl <;> decide
  | randerr => rcases randerrRule_error h with rfl | rfl | rfl <;> decide
  | keygen => rcases keygenRule_error h with rfl | rfl | rfl <;> decide
  | encaps => rcases encapsRule_error h with rfl | rfl | rfl | rfl | rfl <;> decide
  | decaps => rcases decapsRule_error h with rfl | rfl | rfl | rfl <;> decide
  | zeroize => rw [zeroizeRule_error h]; decide

end Sys2Proof.Machine
end

