-- ==== Sys2Proof/Laws/Engine.lean ====
section
/-! SUPPORT. Sizes and ranges of what the sampler and the engine compute. -/

namespace Sys2Proof

/-! ### The parameter set (R7) -/

theorem Params.n_bounds (p : Params) : 1 ≤ p.n ∧ p.n ≤ 65535 := by simpa [nOk] using p.n_ok
theorem Params.q_bounds (p : Params) : 256 ≤ p.q ∧ p.q < 2 ^ 32 := by simpa [qOk] using p.q_ok
theorem Params.seclen_pos (p : Params) : 1 ≤ p.seclen := by simpa [seclenOk] using p.seclen_ok
theorem Params.dmemSize_lt (p : Params) : p.dmemSize < 2 ^ 32 := by simpa [dmemSizeOk] using p.dmemSize_ok
theorem Params.q_pos (p : Params) : 0 < p.q := by have := p.q_bounds; omega

end Sys2Proof

namespace Sys2Proof.Machine

theorem scale_pos (p : Params) : 1 ≤ scale p := by have := p.q_bounds; unfold scale; omega

/-! ### The sampler -/

@[simp] theorem length_uniforms (k : Collaborators) (q : Nat) (seed : Seed) (pos cnt : Nat) :
    (uniforms k q seed pos cnt).length = cnt := by simp [uniforms]

@[simp] theorem length_signedErrors (k : Collaborators) (sigma : F64) (seed : Seed) (pos n : Nat) :
    (signedErrors k sigma seed pos n).length = n := by simp [signedErrors]

@[simp] theorem length_errorVector (k : Collaborators) (p : Params) (seed : Seed) (pos n : Nat) :
    (errorVector k p seed pos n).length = n := by simp [errorVector]

theorem getElem_uniforms (k : Collaborators) (q : Nat) (seed : Seed) (pos cnt j : Nat)
    (h : j < (uniforms k q seed pos cnt).length) :
    (uniforms k q seed pos cnt)[j] = uniformAt k q seed (pos + j) := by simp [uniforms]

theorem getElem_errorVector (k : Collaborators) (p : Params) (seed : Seed) (pos n j : Nat)
    (h : j < (errorVector k p seed pos n).length) :
    (errorVector k p seed pos n)[j] = reduceQ p.q (gaussAt k p.sigma seed (pos + 2 * j)) := by
  simp [errorVector, signedErrors]

/-- A uniform element is a residue (R176). -/
theorem uniformAt_lt (k : Collaborators) (p : Params) (seed : Seed) (pos : Nat) : uniformAt k p.q seed pos < p.q :=
  Nat.mod_lt _ p.q_pos

/-- A reduced sample is a residue, and as an integer the Euclidean one (R182). -/
theorem reduceQ_cast {q : Nat} (h : 0 < q) (x : Int) : (reduceQ q x : Int) = x % q :=
  Int.toNat_of_nonneg (Int.emod_nonneg _ (by omega))

theorem reduceQ_lt {q : Nat} (h : 0 < q) (x : Int) : reduceQ q x < q := by
  have h1 := reduceQ_cast h x
  have h2 := Int.emod_lt_of_pos x (show (0 : Int) < q by omega)
  omega

theorem uniforms_lt {k : Collaborators} {p : Params} {seed : Seed} {pos cnt x : Nat}
    (h : x ∈ uniforms k p.q seed pos cnt) : x < p.q := by
  simp only [uniforms, List.mem_map] at h
  obtain ⟨j, -, rfl⟩ := h
  exact uniformAt_lt k p seed _

theorem errorVector_lt {k : Collaborators} {p : Params} {seed : Seed} {pos n x : Nat}
    (h : x ∈ errorVector k p seed pos n) : x < p.q := by
  simp only [errorVector, List.mem_map] at h
  obtain ⟨j, -, rfl⟩ := h
  exact reduceQ_lt p.q_pos _

/-- Position arithmetic of a command that is not exhausted (R175). -/
theorem advance_toNat {s : State} {w : Nat} (h : s.exhausted w = false) :
    (s.rngPos + BitVec.ofNat 64 w).toNat = s.rngPos.toNat + w := by
  simp only [State.exhausted, decide_eq_false_iff_not] at h
  rw [BitVec.toNat_add, BitVec.toNat_ofNat]
  omega

/-! ### Sums and vectors -/

/-- The exact sum of R156, as a sum over indices. -/
theorem dot_eq_sum (n : Nat) (x y : List Nat) (hx : x.length = n) (hy : y.length = n) :
    dot x y = ∑ i ∈ Finset.range n, x.getD i 0 * y.getD i 0 := by
  induction n generalizing x y with
  | zero => simp [List.length_eq_zero_iff.mp hx, dot]
  | succ n ih =>
    obtain ⟨a, x, rfl⟩ := List.exists_cons_of_length_eq_add_one hx
    obtain ⟨b, y, rfl⟩ := List.exists_cons_of_length_eq_add_one hy
    rw [Finset.sum_range_succ']
    simp only [List.getD_cons_succ, List.getD_cons_zero]
    rw [← ih x y (by simpa using hx) (by simpa using hy)]
    simp [dot, Nat.add_comm]

@[simp] theorem length_rowOf (n : Nat) (a : List Nat) (i : Nat) : (rowOf n a i).length = n := by simp [rowOf]
@[simp] theorem length_columnOf (n : Nat) (a : List Nat) (j : Nat) : (columnOf n a j).length = n := by simp [columnOf]

theorem getD_rowOf {n : Nat} (a : List Nat) (i : Nat) {j : Nat} (h : j < n) :
    (rowOf n a i).getD j 0 = a.getD (i * n + j) 0 := by simp [rowOf, List.getD, h]

theorem getD_columnOf {n : Nat} (a : List Nat) {i : Nat} (j : Nat) (h : i < n) :
    (columnOf n a j).getD i 0 = a.getD (i * n + j) 0 := by simp [columnOf, List.getD, h]

/-! ### Keys and ciphertexts -/

@[simp] theorem length_publicVector (p : Params) (a s e : List Nat) : (publicVector p a s e).length = p.n := by
  simp [publicVector]

theorem publicVector_lt {p : Params} {a s e : List Nat} {x : Nat} (h : x ∈ publicVector p a s e) : x < p.q := by
  simp only [publicVector, List.mem_map] at h
  obtain ⟨j, -, rfl⟩ := h
  exact Nat.mod_lt _ p.q_pos

theorem length_publicKeyBytes (k : Collaborators) (p : Params) (seed seed' : Seed) :
    (publicKeyBytes (keygenFn k p seed) seed').length = pkLen p := by
  simp [publicKeyBytes, keygenFn, pkLen, Nat.add_assoc]

theorem length_secretKeyBytes (k : Collaborators) (p : Params) (seed seed' : Seed) :
    (secretKeyBytes (keygenFn k p seed) seed').length = skLen p := by
  simp [secretKeyBytes, keygenFn, skLen]

/-- Every element of a key pair is a residue, so a codec-safe build never meets `EncodeRange` on it (R124). -/
theorem keygenFn_lt {k : Collaborators} {p : Params} {seed : Seed} {m : KeyMaterial} (hm : m = keygenFn k p seed)
    {x : Nat} (h : x ∈ m.a ++ m.b ++ m.s) : x < p.q := by
  subst hm
  simp only [keygenFn, List.mem_append] at h
  rcases h with (h | h) | h
  · exact uniforms_lt h
  · exact publicVector_lt h
  · exact errorVector_lt h

/-- `encaps_fn` fails exactly when the message does not fit one coefficient (R224). -/
theorem encapsFn_eq_none {k : Collaborators} {p : Params} {a b : List Nat} {eseed : Seed} {msg : List Byte} :
    encapsFn k p a b eseed msg = none ↔ p.q ≤ leNat msg := by
  unfold encapsFn
  split <;> simp_all

theorem encapsPair_eq_none {k : Collaborators} {s : State} :
    encapsPair k s = none ↔ s.params.q ≤ leNat (s.dmem.readBytes (s.arg 4) s.params.seclen) := encapsFn_eq_none

theorem encapsFn_some {k : Collaborators} {p : Params} {a b : List Nat} {eseed : Seed} {msg : List Byte}
    {ct : CipherPair} (h : encapsFn k p a b eseed msg = some ct) :
    leNat msg < p.q ∧ ct = encryptWith p a b (errorVector k p eseed 0 p.n) (encodeMessage p (leNat msg)) := by
  unfold encapsFn at h
  split at h
  · cases h
  · next hlt =>
    injection h with h
    exact ⟨by omega, h.symm⟩

theorem encryptWith_lt {p : Params} {a b r : List Nat} {m x : Nat}
    (h : x ∈ (encryptWith p a b r m).c :: (encryptWith p a b r m).v) : x < p.q := by
  simp only [encryptWith, List.mem_cons, List.mem_map] at h
  rcases h with rfl | ⟨j, -, rfl⟩ <;> exact Nat.mod_lt _ p.q_pos

@[simp] theorem length_encryptWith (p : Params) (a b r : List Nat) (m : Nat) : (encryptWith p a b r m).v.length = p.n := by
  simp [encryptWith]

theorem length_ciphertextBytes {k : Collaborators} {p : Params} {a b : List Nat} {eseed : Seed} {msg : List Byte}
    {ct : CipherPair} (h : encapsFn k p a b eseed msg = some ct) (msg' : List Byte) (hm : msg'.length = p.seclen) :
    (ciphertextBytes ct msg').length = ctLen p := by
  obtain ⟨-, rfl⟩ := encapsFn_some h
  simp [ciphertextBytes, ctLen, hm, Nat.add_assoc]

@[simp] theorem length_digest (k : Collaborators) (p : Params) (msg : List Byte) :
    (digest k p msg).length = p.seclen := by simp [digest]

end Sys2Proof.Machine
end

