-- ==== Sys2Proof/Laws/Float64.lean ====
section
/-! SUPPORT. The laws of the sampler's binary64 operations: what a word of a magnitude denotes, that `roundToF64` rounds
correctly, and that `isqrtBits` is the integer square root. -/

namespace Sys2Proof.Machine

/-! ### Words and values -/

/-- The factor of a sign. -/
def signFactor (neg : Bool) : ℝ := if neg then -1 else 1

theorem abs_signFactor_mul (neg : Bool) (x : ℝ) : |signFactor neg * x| = |x| := by
  cases neg <;> simp [signFactor]

/-- Multiplying by a sign keeps distances. -/
theorem abs_signFactor_sub (neg : Bool) (x w : ℝ) : |signFactor neg * x - w| = |x - signFactor neg * w| := by
  cases neg
  · simp [signFactor]
  · rw [← abs_neg]; congr 1; simp [signFactor]; ring

theorem rat_fin (neg : Bool) (m : Nat) (e : Int) :
    ((F64Val.fin neg m e).rat : ℝ) = signFactor neg * ((m : ℝ) * (2 : ℝ) ^ e) := by
  cases neg <;> simp [F64Val.rat, signFactor]

theorem f64Sign_cases (neg : Bool) : f64Sign neg = if neg then 2 ^ 63 else 0 := rfl

/-- The fields of a word given by its sign and its magnitude below `2^63`. -/
theorem fields_of_magnitude (neg : Bool) (b : Nat) (h : b < 2 ^ 63) :
    (BitVec.ofNat 64 (f64Sign neg + b)).msb = neg ∧
      ((BitVec.ofNat 64 (f64Sign neg + b)).extractLsb' 52 11).toNat = b / 2 ^ 52 ∧
      ((BitVec.ofNat 64 (f64Sign neg + b)).extractLsb' 0 52).toNat = b % 2 ^ 52 ∧
      (BitVec.ofNat 64 (f64Sign neg + b)).getLsbD 0 = decide (b % 2 = 1) := by
  have hn : (BitVec.ofNat 64 (f64Sign neg + b)).toNat = f64Sign neg + b := by
    rw [BitVec.toNat_ofNat]; apply Nat.mod_eq_of_lt; cases neg <;> simp [f64Sign] <;> omega
  refine ⟨?_, ?_, ?_, ?_⟩
  · rw [BitVec.msb_eq_decide, hn]; cases neg <;> (simp [f64Sign]; try omega)
  · rw [BitVec.extractLsb'_toNat, hn, Nat.shiftRight_eq_div_pow]; cases neg <;> (simp [f64Sign]; omega)
  · rw [BitVec.extractLsb'_toNat, hn, Nat.shiftRight_eq_div_pow]; cases neg <;> (simp [f64Sign]; try omega)
  · rw [BitVec.getLsbD, hn, Nat.testBit_zero]; cases neg <;> simp [f64Sign, Nat.add_mod]

/-- What a word of a finite magnitude denotes. -/
theorem f64Val_magnitude (neg : Bool) (b : Nat) (h : b < 2047 * 2 ^ 52) :
    f64Val (BitVec.ofNat 64 (f64Sign neg + b)) =
      if b < 2 ^ 52 then .fin neg b (-1074) else .fin neg (2 ^ 52 + b % 2 ^ 52) ((b / 2 ^ 52 : Nat) - 1075) := by
  obtain ⟨hs, he, hf, -⟩ := fields_of_magnitude neg b (by omega)
  simp only [f64Val, hs, he, hf]
  rw [if_neg (by omega)]
  by_cases hb : b < 2 ^ 52
  · rw [if_pos (by omega), if_pos hb, Nat.mod_eq_of_lt hb]
  · rw [if_neg (by omega), if_neg hb]

theorem f64Val_inf (neg : Bool) : f64Val (f64Inf neg) = .inf neg := by cases neg <;> rfl

theorem msb_f64Inf (neg : Bool) : (f64Inf neg).msb = neg := by cases neg <;> rfl

theorem f64Val_nan : f64Val f64NaN = .nan := rfl

/-- A finite value has a significand below `2^53` and an exponent of at least -1074, and the sign of its word. -/
theorem f64Val_fin_bounds {x : F64} {neg : Bool} {m : Nat} {e : Int} (h : f64Val x = .fin neg m e) :
    neg = x.msb ∧ m < 2 ^ 53 ∧ -1074 ≤ e := by
  have hf : (x.extractLsb' 0 52).toNat < 2 ^ 52 := (x.extractLsb' 0 52).isLt
  simp only [f64Val] at h
  split at h
  · split at h <;> cases h
  · split at h <;> (injection h with h1 h2 h3; subst h1 h2 h3; refine ⟨rfl, by omega, by omega⟩)

/-! ### Rounding -/

/-- A significand `mant` at exponent `U`, between the normal bounds or at the smallest exponent, as bits. -/
theorem rat_of_significand (neg : Bool) (u mant : Nat) (hm : u = 0 ∨ 2 ^ 52 ≤ mant) (hm' : mant ≤ 2 ^ 53)
    (hb : u * 2 ^ 52 + mant < 2047 * 2 ^ 52) :
    ∃ m e, f64Val (BitVec.ofNat 64 (f64Sign neg + (u * 2 ^ 52 + mant))) = .fin neg m e ∧
      (m : ℝ) * (2 : ℝ) ^ e = mant * (2 : ℝ) ^ ((u : Int) - 1074) := by
  rw [f64Val_magnitude neg _ hb]
  by_cases h1 : mant < 2 ^ 52
  · obtain rfl : u = 0 := by omega
    refine ⟨mant, -1074, by rw [if_pos (by omega)]; simp, by simp⟩
  · rw [if_neg (by omega)]
    refine ⟨_, _, rfl, ?_⟩
    by_cases h2 : mant = 2 ^ 53
    · subst h2
      have hd : (u * 2 ^ 52 + 2 ^ 53) / 2 ^ 52 = u + 2 := by omega
      have hr : (u * 2 ^ 52 + 2 ^ 53) % 2 ^ 52 = 0 := by omega
      rw [hd, hr, show ((u + 2 : Nat) : Int) - 1075 = ((u : Int) - 1074) + 1 by push_cast; ring,
        zpow_add_one₀ (by norm_num)]
      push_cast; ring
    · have hd : (u * 2 ^ 52 + mant) / 2 ^ 52 = u + 1 := by omega
      have hr : 2 ^ 52 + (u * 2 ^ 52 + mant) % 2 ^ 52 = mant := by omega
      rw [hd, hr, show ((u + 1 : Nat) : Int) - 1075 = (u : Int) - 1074 by push_cast; ring]

/-- A nearest natural number is at least as near as every integer, and as near as another one only at a tie. -/
theorem nearest_integer {t : ℝ} {mant : Nat} (h : |t - mant| ≤ 1 / 2) (k : ℤ) :
    (mant : ℤ) = k ∨ (|t - mant| ≤ |t - k| ∧ (|t - mant| = |t - k| → |t - mant| = 1 / 2)) := by
  rcases eq_or_ne (mant : ℤ) k with hk | hk
  · exact .inl hk
  · refine .inr ?_
    have h1 : (1 : ℝ) ≤ |(mant : ℝ) - k| := by
      have : (1 : ℤ) ≤ |(mant : ℤ) - k| := Int.one_le_abs (sub_ne_zero.mpr hk)
      exact_mod_cast this
    have h2 : |(mant : ℝ) - k| ≤ |t - mant| + |t - k| := by
      rw [← abs_neg (t - mant)]
      calc |(mant : ℝ) - k| = |-(t - mant) + (t - k)| := by congr 1; ring
        _ ≤ _ := abs_add_le _ _
    exact ⟨by linarith, fun h3 => by linarith⟩

/-- The four comparisons with the overflow threshold, in units of `B`. -/
theorem threshold {B t : ℝ} (hB : 0 < B) :
    ((2 : ℝ) ^ 53 - 1 / 2 ≤ t → 2 ^ 54 * B - B ≤ t * (2 * B)) ∧
      (t < (2 : ℝ) ^ 53 - 1 / 2 → t * (2 * B) < 2 ^ 54 * B - B) ∧
      (2 : ℝ) ^ 54 * B - B ≤ 2 ^ 52 * (4 * B) ∧ (2 : ℝ) ^ 53 * B < 2 ^ 54 * B - B := by
  refine ⟨fun h => ?_, fun h => ?_, by linarith, by linarith⟩
  · have := mul_le_mul_of_nonneg_right h (by positivity : (0 : ℝ) ≤ 2 * B)
    linarith
  · have := mul_lt_mul_of_pos_right h (by positivity : (0 : ℝ) < 2 * B)
    linarith

/-- The bits `roundToF64` builds from a nearest significand are the correctly rounded value. -/
theorem roundsTo_of_nearest (neg : Bool) (t : ℝ) (u mant : Nat) (hlo : u = 0 ∨ 2 ^ 52 ≤ t) (h0 : 0 ≤ t)
    (hhi : t < 2 ^ 53) (hnear : |t - mant| ≤ 1 / 2) (heven : |t - mant| = 1 / 2 → mant % 2 = 0) :
    roundsTo (signFactor neg * (t * (2 : ℝ) ^ ((u : Int) - 1074)))
      (if 2047 * 2 ^ 52 ≤ u * 2 ^ 52 + mant then f64Inf neg
        else BitVec.ofNat 64 (f64Sign neg + (u * 2 ^ 52 + mant))) := by
  have hn := abs_le.mp hnear
  have hmhi : mant ≤ 2 ^ 53 := by
    have : (mant : ℝ) < 2 ^ 53 + 1 := by linarith
    have : mant < 2 ^ 53 + 1 := by exact_mod_cast this
    omega
  have hmlo : u = 0 ∨ 2 ^ 52 ≤ mant := by
    rcases hlo with h | h
    · exact .inl h
    · refine .inr ?_
      have : (2 : ℝ) ^ 52 < mant + 1 := by linarith
      have : 2 ^ 52 < mant + 1 := by exact_mod_cast this
      omega
  have hp : (0 : ℝ) < (2 : ℝ) ^ ((u : Int) - 1074) := zpow_pos (by norm_num) _
  have habs : |signFactor neg * (t * (2 : ℝ) ^ ((u : Int) - 1074))| = t * (2 : ℝ) ^ ((u : Int) - 1074) := by
    rw [abs_signFactor_mul, abs_of_nonneg (by positivity)]
  -- the overflow threshold in units of `B = 2^970`
  obtain ⟨B, h970⟩ : ∃ B : ℝ, (2 : ℝ) ^ 970 = B := ⟨_, rfl⟩
  have hB : 0 < B := by rw [← h970]; positivity
  have z970 : (2 : ℝ) ^ (970 : Int) = B := by rw [← h970]; exact zpow_natCast 2 970
  have h1024 : (2 : ℝ) ^ 1024 = 2 ^ 54 * B := by rw [← h970, ← pow_add]
  have h971 : (2 : ℝ) ^ (((2045 : Nat) : Int) - 1074) = 2 * B := by
    rw [show ((2045 : Nat) : Int) - 1074 = (970 : Int) + 1 by norm_num, zpow_add_one₀ (by norm_num), z970]
    ring
  have hmono : ∀ {a b : Int}, a ≤ b → (2 : ℝ) ^ a ≤ (2 : ℝ) ^ b := fun h => zpow_le_zpow_right₀ (by norm_num) h
  by_cases hb : 2047 * 2 ^ 52 ≤ u * 2 ^ 52 + mant
  · have ht : (2 : ℝ) ^ 52 ≤ t := by
      rcases hlo with h | h
      · omega
      · exact h
    rw [if_pos hb, roundsTo, f64Val_inf, h1024, h970]
    constructor
    · rw [habs]
      by_cases hu : u = 2045
      · subst hu
        have h53 : mant = 2 ^ 53 := by omega
        have h1 : (2 : ℝ) ^ 53 - 1 / 2 ≤ t := by rw [h53] at hn; push_cast at hn; linarith
        rw [h971]
        exact (threshold hB).1 h1
      · have h1 : (2 : ℝ) ^ (972 : Int) ≤ (2 : ℝ) ^ ((u : Int) - 1074) := hmono (by omega)
        have e1 : (2 : ℝ) ^ (972 : Int) = 4 * B := by
          rw [show (972 : Int) = (970 : Int) + 1 + 1 by norm_num, zpow_add_one₀ (by norm_num),
            zpow_add_one₀ (by norm_num), z970]
          ring
        calc (2 : ℝ) ^ 54 * B - B ≤ 2 ^ 52 * (4 * B) := (threshold (t := 0) hB).2.2.1
          _ = 2 ^ 52 * (2 : ℝ) ^ (972 : Int) := by rw [e1]
          _ ≤ t * (2 : ℝ) ^ ((u : Int) - 1074) := by gcongr
    · have : (0 : ℝ) < t * (2 : ℝ) ^ ((u : Int) - 1074) := mul_pos (by linarith [show (0 : ℝ) < 2 ^ 52 by norm_num]) hp
      cases neg
      · simp [signFactor]; exact this.le
      · simp [signFactor]; exact this
  · rw [if_neg hb]
    obtain ⟨m, e, hv, hval⟩ := rat_of_significand neg u mant hmlo hmhi (by omega)
    have hlsb := (fields_of_magnitude neg (u * 2 ^ 52 + mant) (by omega)).2.2.2
    generalize BitVec.ofNat 64 (f64Sign neg + (u * 2 ^ 52 + mant)) = r at hv hlsb ⊢
    rw [roundsTo, hv, h1024, h970]
    have hr : ((F64Val.fin neg m e).rat : ℝ) = signFactor neg * (mant * (2 : ℝ) ^ ((u : Int) - 1074)) := by
      rw [rat_fin, hval]
    constructor
    · rw [habs]
      by_cases hu : u ≤ 2044
      · have h1 : (2 : ℝ) ^ ((u : Int) - 1074) ≤ (2 : ℝ) ^ (970 : Int) := hmono (by omega)
        calc t * (2 : ℝ) ^ ((u : Int) - 1074) ≤ 2 ^ 53 * B := by rw [← z970]; gcongr
          _ < 2 ^ 54 * B - B := (threshold (t := 0) hB).2.2.2
      · have hu' : u = 2045 := by
          rcases hmlo with h | h <;> omega
        subst hu'
        have h53 : mant ≤ 2 ^ 53 - 1 := by omega
        have h53' : (mant : ℝ) ≤ 2 ^ 53 - 1 := by
          have : ((mant : Nat) : ℝ) ≤ ((2 ^ 53 - 1 : Nat) : ℝ) := by exact_mod_cast h53
          push_cast at this; norm_num at this ⊢; exact this
        have h1 : t < (2 : ℝ) ^ 53 - 1 / 2 := by
          rcases lt_or_eq_of_le (show t ≤ (2 : ℝ) ^ 53 - 1 / 2 by linarith) with h | h
          · exact h
          · exfalso
            have e2 : (mant : ℝ) = 2 ^ 53 - 1 := by linarith
            have e3 : mant = 2 ^ 53 - 1 := by
              have : ((mant : Nat) : ℝ) = ((2 ^ 53 - 1 : Nat) : ℝ) := by rw [e2]; norm_num
              exact_mod_cast this
            have := heven (by rw [h, e2]; norm_num)
            omega
        rw [h971]
        exact (threshold hB).2.1 h1
    · intro z hz
      obtain ⟨nz, mz, ez, hzv⟩ : ∃ nz mz ez, f64Val z = .fin nz mz ez := by
        cases h : f64Val z with
        | nan => rw [h] at hz; cases hz
        | inf _ => rw [h] at hz; cases hz
        | fin a b c => exact ⟨a, b, c, rfl⟩
      obtain ⟨-, hmz, hez⟩ := f64Val_fin_bounds hzv
      set P := (2 : ℝ) ^ ((u : Int) - 1074) with hP
      -- the distances, in units of P
      have d1 : |signFactor neg * (t * P) - ((F64Val.fin neg m e).rat : ℝ)| = |t - mant| * P := by
        rw [hr, ← mul_sub, abs_signFactor_mul, ← sub_mul, abs_mul, abs_of_pos hp]
      rw [hzv]
      by_cases hge : (u : Int) - 1074 ≤ ez
      · -- the other value is a multiple of P
        obtain ⟨k, hk⟩ : ∃ k : ℤ, signFactor neg * ((F64Val.fin nz mz ez).rat : ℝ) = k * P := by
          obtain ⟨d, hd⟩ : ∃ d : Nat, ez = (u : Int) - 1074 + d := ⟨(ez - ((u : Int) - 1074)).toNat, by omega⟩
          rw [rat_fin, hd, zpow_add₀ (by norm_num), zpow_natCast, ← hP]
          refine ⟨(if neg then -1 else 1) * ((if nz then -1 else 1) * (mz * 2 ^ d)), ?_⟩
          cases neg <;> cases nz <;> simp [signFactor] <;> ring
        have d2 : |signFactor neg * (t * P) - ((F64Val.fin nz mz ez).rat : ℝ)| = |t - k| * P := by
          rw [abs_signFactor_sub, hk, ← sub_mul, abs_mul, abs_of_pos hp]
        rw [d1, d2]
        rcases nearest_integer hnear k with h | ⟨h1, h2⟩
        · have hkm : (k : ℝ) = mant := by rw [← h]; simp
          rw [hkm]
          refine ⟨le_rfl, fun _ => .inl ?_⟩
          have hs : signFactor neg * signFactor neg = 1 := by cases neg <;> simp [signFactor]
          have h5 : ((F64Val.fin nz mz ez).rat : ℝ) = ((F64Val.fin neg m e).rat : ℝ) := by
            calc ((F64Val.fin nz mz ez).rat : ℝ)
                = signFactor neg * (signFactor neg * ((F64Val.fin nz mz ez).rat : ℝ)) := by rw [← mul_assoc, hs, one_mul]
              _ = _ := by rw [hk, hr, hkm]
          exact_mod_cast h5
        · refine ⟨by gcongr, fun h3 => .inr ?_⟩
          have := heven (h2 (mul_right_cancel₀ hp.ne' h3))
          rw [hlsb]
          simp only [decide_eq_false_iff_not]
          omega
      · -- the other value is smaller than every value at this exponent
        have ht : (2 : ℝ) ^ 52 ≤ t := by
          rcases hlo with h | h
          · omega
          · exact h
        have hw : |signFactor neg * ((F64Val.fin nz mz ez).rat : ℝ)| < 2 ^ 52 * P := by
          rw [abs_signFactor_mul, rat_fin, abs_signFactor_mul, abs_of_nonneg (by positivity)]
          have h1 : (2 : ℝ) ^ ez ≤ (2 : ℝ) ^ ((u : Int) - 1074 - 1) := hmono (by omega)
          have h2 : (mz : ℝ) < 2 ^ 53 := by exact_mod_cast hmz
          have h3 : (2 : ℝ) ^ ((u : Int) - 1074 - 1) = P / 2 := by rw [zpow_sub_one₀ (by norm_num), ← hP]; ring
          calc (mz : ℝ) * (2 : ℝ) ^ ez ≤ mz * (P / 2) := by rw [← h3]; gcongr
            _ < 2 ^ 53 * (P / 2) := by gcongr
            _ = 2 ^ 52 * P := by ring
        have d2 : |t - mant| * P < |signFactor neg * (t * P) - ((F64Val.fin nz mz ez).rat : ℝ)| := by
          rw [abs_signFactor_sub]
          have h1 : |t - mant| ≤ t - 2 ^ 52 := by
            rcases nearest_integer hnear (2 ^ 52 : ℤ) with h | ⟨h, -⟩
            · have h' : (mant : ℝ) = 2 ^ 52 := by exact_mod_cast h
              rw [h', abs_of_nonneg (by linarith)]
            · rwa [show ((2 ^ 52 : ℤ) : ℝ) = 2 ^ 52 by norm_num, abs_of_nonneg (a := t - 2 ^ 52) (by linarith)] at h
          have h2 := (abs_lt.mp hw).2
          calc |t - mant| * P ≤ (t - 2 ^ 52) * P := by gcongr
            _ = t * P - 2 ^ 52 * P := by ring
            _ < t * P - signFactor neg * ((F64Val.fin nz mz ez).rat : ℝ) := by linarith
            _ ≤ _ := le_abs_self _
        rw [d1]
        exact ⟨d2.le, fun h => absurd h d2.ne⟩

/-- `roundShift` answers the nearest integer of `y / 2^k`, even at a tie, where `y` is `m` itself or, for an odd `m` and
`k` of at least 2, any value strictly between the neighbours of `m`. -/
theorem roundShift_nearest {m k : Nat} {y : ℝ}
    (hy : y = m ∨ (m % 2 = 1 ∧ 2 ≤ k ∧ (m : ℝ) - 1 < y ∧ y < m + 1)) :
    |y / 2 ^ k - roundShift m k| ≤ 1 / 2 ∧ (|y / 2 ^ k - roundShift m k| = 1 / 2 → roundShift m k % 2 = 0) := by
  have hM : (0 : ℝ) < 2 ^ k := by positivity
  have hdm : (m : ℝ) = 2 ^ k * (m / 2 ^ k : Nat) + (m % 2 ^ k : Nat) := by
    exact_mod_cast (Nat.div_add_mod m (2 ^ k)).symm
  have hlt : m % 2 ^ k < 2 ^ k := Nat.mod_lt _ (by positivity)
  have hodd : m % 2 = 1 → 2 ≤ k → m % 2 ^ k % 2 = 1 ∧ 2 ^ k % 4 = 0 := by
    intro h1 h2
    obtain ⟨d, rfl⟩ := Nat.exists_eq_add_of_le h2
    rw [pow_add]
    refine ⟨?_, by omega⟩
    rw [Nat.mod_mod_of_dvd _ (Dvd.dvd.mul_right (by norm_num) _), h1]
  unfold roundShift
  generalize m / 2 ^ k = quo at hdm ⊢
  generalize hr : m % 2 ^ k = rem at hdm hlt hodd ⊢
  -- the distance in units of `2^k`
  have key : ∀ r : Nat, (|y - 2 ^ k * r| ≤ 2 ^ k / 2 ∧ (|y - 2 ^ k * r| = 2 ^ k / 2 → r % 2 = 0)) →
      |y / 2 ^ k - r| ≤ 1 / 2 ∧ (|y / 2 ^ k - r| = 1 / 2 → r % 2 = 0) := by
    intro r hr
    have e : |y - 2 ^ k * r| = |y / 2 ^ k - r| * 2 ^ k := by
      rw [← abs_of_pos hM, ← abs_mul, abs_of_pos hM]; congr 1; field_simp
    rw [e] at hr
    exact ⟨by nlinarith [hr.1], fun h => hr.2 (by rw [h]; ring)⟩
  have hlt' : (rem : ℝ) < 2 ^ k := by exact_mod_cast hlt
  have h0 : (0 : ℝ) ≤ rem := Nat.cast_nonneg _
  rcases hy with hy | ⟨hm, hk, hlo, hhi⟩
  · rw [hy, hdm] at key
    rw [hy, hdm]
    dsimp only
    split_ifs with c1 c2
    · have c1' : 2 * (rem : ℝ) < 2 ^ k := by exact_mod_cast c1
      apply key
      rw [show 2 ^ k * (quo : ℝ) + rem - 2 ^ k * quo = rem by ring, abs_of_nonneg h0]
      exact ⟨by linarith, fun h => by linarith⟩
    · have c2' : 2 * (rem : ℝ) = 2 ^ k := by exact_mod_cast c2
      apply key
      refine ⟨?_, fun _ => by omega⟩
      rcases Nat.mod_two_eq_zero_or_one quo with h | h <;> rw [h]
      · rw [add_zero, show 2 ^ k * (quo : ℝ) + rem - 2 ^ k * quo = rem by ring, abs_of_nonneg h0]; linarith
      · push_cast
        rw [show 2 ^ k * (quo : ℝ) + rem - 2 ^ k * (quo + 1) = rem - 2 ^ k by ring, abs_of_neg (by linarith)]
        linarith
    · have c3 : (2 : ℝ) ^ k < 2 * rem := by
        have : 2 ^ k < 2 * rem := by omega
        exact_mod_cast this
      apply key
      push_cast
      rw [show 2 ^ k * (quo : ℝ) + rem - 2 ^ k * (quo + 1) = rem - 2 ^ k by ring, abs_of_neg (by linarith)]
      exact ⟨by linarith, fun h => by linarith⟩
  · obtain ⟨o1, o2⟩ := hodd hm hk
    dsimp only
    split_ifs with c1 c2
    · have c1' : 2 * ((rem : ℝ) + 1) ≤ 2 ^ k := by
        have : 2 * (rem + 1) ≤ 2 ^ k := by omega
        exact_mod_cast this
      have h1 : (1 : ℝ) ≤ rem := by
        have : 1 ≤ rem := by omega
        exact_mod_cast this
      apply key
      rw [abs_of_nonneg (by linarith)]
      exact ⟨by linarith, fun h => by linarith⟩
    · omega
    · have c3 : (2 : ℝ) ^ k + 2 ≤ 2 * rem := by
        have : 2 ^ k + 2 ≤ 2 * rem := by omega
        exact_mod_cast this
      have h1 : (rem : ℝ) + 1 ≤ 2 ^ k := by exact_mod_cast hlt
      apply key
      push_cast
      rw [abs_of_nonpos (by linarith)]
      exact ⟨by linarith, fun h => by linarith⟩

/-- `roundToF64` rounds correctly, with the sign given: the exact value, or any value strictly between the neighbours of
an odd significand of more than 60 bits. -/
theorem roundToF64_rounds (neg : Bool) {m : Nat} (e : Int) {y : ℝ} (hm : m ≠ 0)
    (hy : y = m ∨ (m % 2 = 1 ∧ 2 ^ 60 ≤ m ∧ (m : ℝ) - 1 < y ∧ y < m + 1)) :
    roundsTo (signFactor neg * (y * (2 : ℝ) ^ e)) (roundToF64 neg m e) ∧ (roundToF64 neg m e).msb = neg := by
  obtain ⟨L, hL⟩ : ∃ L, Nat.log2 m = L := ⟨_, rfl⟩
  have hL1 : 2 ^ L ≤ m := by rw [← hL]; exact Nat.log2_self_le hm
  have hL2 : m < 2 ^ (L + 1) := by rw [← hL]; exact Nat.lt_log2_self
  have hsticky : 2 ^ 60 ≤ m → 60 ≤ L := fun h => by
    have := (Nat.pow_lt_pow_iff_right (by norm_num : 1 < 2)).mp (lt_of_le_of_lt h hL2)
    omega
  -- the value lies in the same binade as its significand
  have hy1 : (2 : ℝ) ^ L ≤ y := by
    rcases hy with h | ⟨h1, h2, h3, -⟩
    · rw [h]; exact_mod_cast hL1
    · have : 2 ^ L + 1 ≤ m := by
        obtain ⟨d, hd⟩ := Nat.exists_eq_add_of_le (hsticky h2)
        have : 2 ^ L = 2 * 2 ^ (59 + d) := by rw [hd, ← pow_succ']; congr 1; omega
        omega
      have : (2 : ℝ) ^ L + 1 ≤ m := by exact_mod_cast this
      linarith
  have hy2 : y < (2 : ℝ) ^ (L + 1) := by
    rcases hy with h | ⟨-, -, -, h4⟩
    · rw [h]; exact_mod_cast hL2
    · have : (m : ℝ) + 1 ≤ 2 ^ (L + 1) := by exact_mod_cast hL2
      linarith
  obtain ⟨u, hu⟩ : ∃ u : Nat, max ((L : Int) + e - 52) (-1074) = (u : Int) - 1074 :=
    ⟨(max ((L : Int) + e - 52) (-1074) + 1074).toNat, by omega⟩
  obtain ⟨mant, hmant⟩ : ∃ mant, (if (u : Int) - 1074 ≤ e then m * 2 ^ (e - ((u : Int) - 1074)).toNat
      else roundShift m ((u : Int) - 1074 - e).toNat) = mant := ⟨_, rfl⟩
  have hform : roundToF64 neg m e = if 2047 * 2 ^ 52 ≤ u * 2 ^ 52 + mant then f64Inf neg
      else BitVec.ofNat 64 (f64Sign neg + (u * 2 ^ 52 + mant)) := by
    unfold roundToF64
    rw [if_neg hm, hL]
    simp only [hu, hmant, show ((u : Int) - 1074 + 1074).toNat = u by omega]
  constructor
  · have hz : (2 : ℝ) ^ e = (2 : ℝ) ^ (e - ((u : Int) - 1074)) * (2 : ℝ) ^ ((u : Int) - 1074) := by
      rw [← zpow_add₀ (by norm_num)]; congr 1; ring
    rw [hform, hz, ← mul_assoc y]
    have hmono : ∀ {a b : Int}, a ≤ b → (2 : ℝ) ^ a ≤ (2 : ℝ) ^ b := fun h => zpow_le_zpow_right₀ (by norm_num) h
    have hp : (0 : ℝ) < (2 : ℝ) ^ (e - ((u : Int) - 1074)) := zpow_pos (by norm_num) _
    have h0 : (0 : ℝ) ≤ y := le_trans (by positivity) hy1
    have hbin : ∀ (j : Nat) (d : Int), (2 : ℝ) ^ j * (2 : ℝ) ^ d = (2 : ℝ) ^ ((j : Int) + d) := fun j d => by
      rw [zpow_add₀ (by norm_num), zpow_natCast]
    have hnear : |y * (2 : ℝ) ^ (e - ((u : Int) - 1074)) - mant| ≤ 1 / 2 ∧
        (|y * (2 : ℝ) ^ (e - ((u : Int) - 1074)) - mant| = 1 / 2 → mant % 2 = 0) := by
      by_cases hge : (u : Int) - 1074 ≤ e
      · rcases hy with h | ⟨-, h2, -, -⟩
        · obtain ⟨d, hd⟩ : ∃ d : Nat, e - ((u : Int) - 1074) = d := ⟨(e - ((u : Int) - 1074)).toNat, by omega⟩
          rw [if_pos hge, hd, Int.toNat_natCast] at hmant
          rw [h, hd, zpow_natCast, ← hmant]
          push_cast
          rw [sub_self, abs_zero]
          norm_num
        · have := hsticky h2
          omega
      · obtain ⟨d, hd⟩ : ∃ d : Nat, (u : Int) - 1074 - e = d := ⟨((u : Int) - 1074 - e).toNat, by omega⟩
        rw [if_neg hge, hd, Int.toNat_natCast] at hmant
        rw [show e - ((u : Int) - 1074) = -(d : Int) by omega, zpow_neg, zpow_natCast, ← div_eq_mul_inv, ← hmant]
        refine roundShift_nearest (hy.imp id fun ⟨h1, h2, h3, h4⟩ => ⟨h1, ?_, h3, h4⟩)
        have := hsticky h2
        omega
    refine roundsTo_of_nearest neg _ u mant ?_ (mul_nonneg h0 hp.le) ?_ hnear.1 hnear.2
    · by_cases h : u = 0
      · exact .inl h
      · refine .inr ?_
        calc (2 : ℝ) ^ 52 = (2 : ℝ) ^ L * (2 : ℝ) ^ (e - ((u : Int) - 1074)) := by
              rw [hbin, show (L : Int) + (e - ((u : Int) - 1074)) = (52 : Nat) by omega, zpow_natCast]
          _ ≤ _ := by gcongr
    · calc y * (2 : ℝ) ^ (e - ((u : Int) - 1074)) < (2 : ℝ) ^ (L + 1) * (2 : ℝ) ^ (e - ((u : Int) - 1074)) := by gcongr
        _ = (2 : ℝ) ^ (((L + 1 : Nat) : Int) + (e - ((u : Int) - 1074))) := hbin _ _
        _ ≤ (2 : ℝ) ^ ((53 : Nat) : Int) := hmono (by omega)
        _ = 2 ^ 53 := zpow_natCast 2 53
  · rw [hform]
    split_ifs with h
    · exact msb_f64Inf neg
    · exact (fields_of_magnitude neg _ (by omega)).1

/-- A zero of either sign rounds zero. -/
theorem roundsTo_zero {r : F64} {neg : Bool} {e : Int} (h : f64Val r = .fin neg 0 e) : roundsTo 0 r := by
  rw [roundsTo, h]
  have hr : (F64Val.fin neg 0 e).rat = 0 := by simp [F64Val.rat]
  refine ⟨?_, fun z _ => ?_⟩
  · rw [abs_zero]
    exact sub_pos.mpr (pow_lt_pow_right₀ (by norm_num) (by norm_num))
  · rw [hr]
    simp only [Rat.cast_zero, sub_zero, abs_zero, zero_sub, abs_neg]
    exact ⟨abs_nonneg _, fun h => .inl (by exact_mod_cast abs_eq_zero.mp h.symm)⟩

/-! ### The square root -/

/-- `isqrtBits` is the integer square root of `n`, when it lies within `2^bits` of the start. -/
theorem isqrtBits_spec (n : Nat) : ∀ (bits acc : Nat), acc * acc ≤ n → n < (acc + 2 ^ bits) * (acc + 2 ^ bits) →
    isqrtBits n bits acc * isqrtBits n bits acc ≤ n ∧ n < (isqrtBits n bits acc + 1) * (isqrtBits n bits acc + 1)
  | 0, acc, h1, h2 => ⟨h1, h2⟩
  | bits + 1, acc, h1, h2 => by
    rw [isqrtBits]
    split_ifs with h
    · exact isqrtBits_spec n bits _ h (by rwa [add_assoc, ← two_mul, ← pow_succ'])
    · exact isqrtBits_spec n bits _ h1 (by omega)

/-- The square root of a positive value is correctly rounded. -/
theorem fsqrt_rounds {x : F64} {m : Nat} {e : Int} (h : f64Val x = .fin false m e) (hm : m ≠ 0) :
    roundsTo (Real.sqrt (m * (2 : ℝ) ^ e)) (fsqrt x) ∧ (fsqrt x).msb = false := by
  obtain ⟨-, hm53, -⟩ := f64Val_fin_bounds h
  obtain ⟨odd, hodd⟩ : ∃ odd : Nat, (e % 2).toNat = odd := ⟨_, rfl⟩
  obtain ⟨half, hhalf⟩ : ∃ half : Int, e - odd - 120 = 2 * half := ⟨(e - odd - 120) / 2, by omega⟩
  obtain ⟨wide, hwide⟩ : ∃ wide, m * 2 ^ odd * 2 ^ 120 = wide := ⟨_, rfl⟩
  obtain ⟨root, hroot⟩ : ∃ root, isqrtBits wide 90 0 = root := ⟨_, rfl⟩
  obtain ⟨sticky, hst⟩ : ∃ sticky, (if root * root = wide then 0 else 1) = sticky := ⟨_, rfl⟩
  have hf : fsqrt x = roundToF64 false (2 * root + sticky) (half - 1) := by
    unfold fsqrt
    simp only [h, if_neg hm, hodd, hwide, hroot, hst, hhalf]
    simp
  have ho2 : 2 ^ odd ≤ 2 := by
    have : odd ≤ 1 := by omega
    calc 2 ^ odd ≤ 2 ^ 1 := Nat.pow_le_pow_right (by norm_num) this
      _ = 2 := by norm_num
  have ho1 : 1 ≤ 2 ^ odd := Nat.one_le_two_pow
  have hw1 : 2 ^ 120 ≤ wide := by
    rw [← hwide]
    calc 2 ^ 120 = 1 * 1 * 2 ^ 120 := by ring
      _ ≤ _ := by gcongr; omega
  have hw2 : wide < 2 ^ 180 := by
    rw [← hwide]
    calc m * 2 ^ odd * 2 ^ 120 ≤ 2 ^ 53 * 2 * 2 ^ 120 := by gcongr
      _ < 2 ^ 180 := by norm_num
  obtain ⟨s1, s2⟩ := isqrtBits_spec wide 90 0 (by omega) (by
    rw [zero_add, ← pow_add]; exact hw2)
  rw [hroot] at s1 s2
  have hr60 : 2 ^ 60 ≤ root := by
    by_contra hc
    have : (root + 1) * (root + 1) ≤ 2 ^ 60 * 2 ^ 60 := by gcongr <;> omega
    rw [← pow_add] at this
    omega
  have hsq : Real.sqrt (m * (2 : ℝ) ^ e) = 2 * Real.sqrt wide * (2 : ℝ) ^ (half - 1) := by
    have e1 : (m : ℝ) * (2 : ℝ) ^ e = wide * ((2 : ℝ) ^ half) ^ 2 := by
      rw [← hwide, ← zpow_natCast ((2 : ℝ) ^ half) 2, ← zpow_mul,
        show e = (odd : Int) + (120 : Nat) + half * (2 : Nat) by push_cast; omega,
        zpow_add₀ (by norm_num), zpow_add₀ (by norm_num), zpow_natCast, zpow_natCast]
      push_cast; ring
    rw [e1, Real.sqrt_mul (Nat.cast_nonneg _), Real.sqrt_sq (zpow_pos (by norm_num) _).le, zpow_sub_one₀ (by norm_num)]
    ring
  have hsw : (0 : ℝ) ≤ Real.sqrt wide := Real.sqrt_nonneg _
  have := roundToF64_rounds false (half - 1) (m := 2 * root + sticky) (y := 2 * Real.sqrt wide) (by omega) (by
    split_ifs at hst with hc
    · refine .inl ?_
      rw [← hst, ← hc]
      push_cast
      rw [Real.sqrt_mul_self (Nat.cast_nonneg _), add_zero]
    · have b1 : (root : ℝ) < Real.sqrt wide := by
        rw [Real.lt_sqrt (Nat.cast_nonneg _), pow_two]
        exact_mod_cast lt_of_le_of_ne s1 hc
      have b2 : Real.sqrt wide < root + 1 := by
        rw [Real.sqrt_lt' (by positivity), pow_two]
        exact_mod_cast s2
      subst hst
      refine .inr ⟨by omega, by omega, ?_, ?_⟩ <;> push_cast <;> linarith)
  rw [hf, hsq]
  simpa [signFactor] using this

end Sys2Proof.Machine
end

