-- ==== Sys2Proof/Laws/HostSoftware.lean ====
section
/-! SUPPORT. The laws of the host software: what a free choice, a list of components, a container and a reconstruction
can answer. -/

namespace Sys2Proof.Machine

/-! ### Choices -/

@[simp] theorem chosen_nil {α : Type} (pick : Nat) (e : α) : chosen pick e [] = e := by simp [chosen, Nat.mod_one]

theorem chosen_mem {α : Type} (pick : Nat) (e : α) (es : List α) : chosen pick e es ∈ e :: es := by
  have h : pick % (es.length + 1) < (e :: es).length := Nat.mod_lt _ (Nat.succ_pos _)
  rw [chosen, List.getD_eq_getElem _ _ h]
  exact List.getElem_mem h

/-! ### Components (R271) -/

theorem componentErrors_eq_nil {α : Type} {rs : List (Component α)} :
    componentErrors rs = [] ↔ rs = (componentResults rs).map .ok := by
  induction rs with
  | nil => simp [componentErrors, componentResults]
  | cons r rs ih =>
    cases r with
    | ok x => simpa [componentErrors, componentResults] using ih
    | error e =>
      refine iff_of_false (by simp [componentErrors]) fun h => ?_
      have : (.error e : Component α) ∈ (componentResults (.error e :: rs)).map .ok := h ▸ List.mem_cons_self
      simp at this

@[simp] theorem componentResults_map_ok {α : Type} (xs : List α) :
    componentResults (xs.map (.ok : α → Component α)) = xs := by
  induction xs with
  | nil => rfl
  | cons x xs ih => simp [componentResults]

/-- All components are there exactly when none failed. -/
theorem allComponents_eq_ok {α : Type} {rs : List (Component α)} {xs : List α} :
    allComponents rs = .ok xs ↔ rs = xs.map .ok := by
  unfold allComponents
  constructor
  · intro h
    split at h
    · rename_i he
      cases h
      exact componentErrors_eq_nil.mp he
    · cases h
  · rintro rfl
    have : componentErrors (xs.map (.ok : α → Component α)) = [] := by rw [componentErrors_eq_nil]; simp
    rw [this]
    simp

/-- An error of a list of components is one of theirs. -/
theorem mem_of_allComponents_error {α : Type} {rs : List (Component α)} {e : ErrorKind}
    (h : allComponents rs = .error e) : (.error e : Component α) ∈ rs := by
  unfold allComponents at h
  split at h
  · cases h
  · rename_i e' es he
    injection h with h
    have hm : e ∈ componentErrors rs := by rw [he, ← h]; exact chosen_mem _ _ _
    simp only [componentErrors, List.mem_filterMap] at hm
    obtain ⟨r, hr, hre⟩ := hm
    cases r with
    | ok x => cases hre
    | error e'' => cases hre; exact hr

/-! ### Containers (R268) -/

/-- A container is made exactly when the number of components is within the bounds. -/
theorem makeFragmented_eq_ok {len : Nat} {fp : FragmentParams} {parts : List (Vector Byte len)}
    {c : Fragmented fp len} :
    makeFragmented fp parts = .ok c ↔ c.parts = parts := by
  unfold makeFragmented
  constructor
  · intro h
    split at h
    · cases h; rfl
    · cases h
  · rintro rfl
    rw [dif_pos c.count_ok]

theorem makeFragmented_eq_error {len : Nat} {fp : FragmentParams} {parts : List (Vector Byte len)}
    (h : fragmentBounds fp parts.length = false) : makeFragmented fp parts = .error .fragmentationError := by
  unfold makeFragmented
  rw [dif_neg (by simp [h])]

/-! ### Reconstruction (R266) -/

/-- What `reconstruct_data` answers for a list that is not empty: the data where nothing mismatches, else a mismatch. -/
theorem reconstructData_cases (k : Collaborators) (p : Params) {fs : List Fragment} (h : fs ≠ []) :
    (mismatches k p fs = [] ∧
      reconstructData k p fs = .ok ((List.range fs.length).flatMap (dataAt fs))) ∨
    ∃ e ∈ mismatches k p fs, reconstructData k p fs = .error e := by
  obtain ⟨f, fs, rfl⟩ := List.exists_cons_of_ne_nil h
  unfold reconstructData
  cases hm : mismatches k p (f :: fs) with
  | nil => exact .inl ⟨rfl, rfl⟩
  | cons e es => exact .inr ⟨_, chosen_mem _ e es, rfl⟩

end Sys2Proof.Machine
end

