-- ==== Sys2Proof/Laws/PerInstr.lean ====
section
/-! SUPPORT. Statements about every instruction as syntax, one lemma per constructor. -/

/-- R90: the command's word has its opcode in bits 7:0 and the reserved field `ZERO` clear. -/
def Sys2Proof.Laws.OpcodeInLowByte.Statement (i : Sys2Proof.Instr) : Prop :=
  Sys2Proof.zeroField (Sys2Proof.encode i) = 0 ∧ Sys2Proof.ofOpcode (Sys2Proof.opcField (Sys2Proof.encode i)) = some i

theorem Sys2Proof.Laws.OpcodeInLowByte.nop : Sys2Proof.Laws.OpcodeInLowByte.Statement .nop := ⟨rfl, rfl⟩
theorem Sys2Proof.Laws.OpcodeInLowByte.modadd : Sys2Proof.Laws.OpcodeInLowByte.Statement .modadd := ⟨rfl, rfl⟩
theorem Sys2Proof.Laws.OpcodeInLowByte.modsub : Sys2Proof.Laws.OpcodeInLowByte.Statement .modsub := ⟨rfl, rfl⟩
theorem Sys2Proof.Laws.OpcodeInLowByte.modmul : Sys2Proof.Laws.OpcodeInLowByte.Statement .modmul := ⟨rfl, rfl⟩
theorem Sys2Proof.Laws.OpcodeInLowByte.encode : Sys2Proof.Laws.OpcodeInLowByte.Statement .encode := ⟨rfl, rfl⟩
theorem Sys2Proof.Laws.OpcodeInLowByte.decode : Sys2Proof.Laws.OpcodeInLowByte.Statement .decode := ⟨rfl, rfl⟩
theorem Sys2Proof.Laws.OpcodeInLowByte.rngseed : Sys2Proof.Laws.OpcodeInLowByte.Statement .rngseed := ⟨rfl, rfl⟩
theorem Sys2Proof.Laws.OpcodeInLowByte.rngclr : Sys2Proof.Laws.OpcodeInLowByte.Statement .rngclr := ⟨rfl, rfl⟩
theorem Sys2Proof.Laws.OpcodeInLowByte.sampleu : Sys2Proof.Laws.OpcodeInLowByte.Statement .sampleu := ⟨rfl, rfl⟩
theorem Sys2Proof.Laws.OpcodeInLowByte.sampleg : Sys2Proof.Laws.OpcodeInLowByte.Statement .sampleg := ⟨rfl, rfl⟩
theorem Sys2Proof.Laws.OpcodeInLowByte.randmat : Sys2Proof.Laws.OpcodeInLowByte.Statement .randmat := ⟨rfl, rfl⟩
theorem Sys2Proof.Laws.OpcodeInLowByte.randerr : Sys2Proof.Laws.OpcodeInLowByte.Statement .randerr := ⟨rfl, rfl⟩
theorem Sys2Proof.Laws.OpcodeInLowByte.keygen : Sys2Proof.Laws.OpcodeInLowByte.Statement .keygen := ⟨rfl, rfl⟩
theorem Sys2Proof.Laws.OpcodeInLowByte.encaps : Sys2Proof.Laws.OpcodeInLowByte.Statement .encaps := ⟨rfl, rfl⟩
theorem Sys2Proof.Laws.OpcodeInLowByte.decaps : Sys2Proof.Laws.OpcodeInLowByte.Statement .decaps := ⟨rfl, rfl⟩
theorem Sys2Proof.Laws.OpcodeInLowByte.zeroize : Sys2Proof.Laws.OpcodeInLowByte.Statement .zeroize := ⟨rfl, rfl⟩
end

