-- ==== Sys2Proof/Laws/Step.lean ====
section
/-! SUPPORT. What one step can do, said once: the move it takes, and the state it answers. -/

namespace Sys2Proof.Machine

/-- A completion answers the completed command, or the error of an illegal word (R93, R97). -/
theorem completion_cases {s t : State} (h : completion s = .next t) :
    (∃ i, decode s.cmd = .ok i ∧ exec i s = .next t) ∨
      (∃ e, decode s.cmd = .error e) ∧ t = s.afterError 0x10 := by
  unfold completion at h
  split at h
  · next i hi => exact .inl ⟨i, hi, h⟩
  · next e he =>
    refine .inr ⟨⟨e, he⟩, ?_⟩
    injection h with h
    exact h.symm

theorem coreMove_cases {s t : State} (h : coreMove s = .next t) :
    (s.busy = true ∧ completion s = .next t) ∨ (s.busy = false ∧ t = s) := by
  unfold coreMove at h
  split at h
  · next hb => exact .inl ⟨hb, h⟩
  · next hb =>
    injection h with h
    exact .inr ⟨by simpa using hb, h.symm⟩

theorem hostRegRead_cases {s t : State} {i : Fin 64} (h : hostRegRead s i = .next t) :
    (s.busy && guardedIndex i) = false ∧ t = s.reply (s.regRead i) := by
  unfold hostRegRead at h
  split at h <;> simp_all

theorem hostRegWrite_cases {s t : State} {i : Fin 64} {v : Word} (h : hostRegWrite s i v = .next t) :
    (s.busy && (decide (i.val = 2) || guardedIndex i)) = false ∧ t = s.regWrite i v := by
  unfold hostRegWrite at h
  split at h <;> simp_all

theorem hostDmemRead_cases {s t : State} {a : Nat} {w : Width} (h : hostDmemRead s a w = .next t) :
    s.busy = false ∧ a + w.bytes ≤ s.params.dmemSize ∧ t = s.reply (BitVec.ofNat 32 (s.dmem.readLE a w.bytes)) := by
  unfold hostDmemRead at h
  split at h
  · cases h
  · split at h <;> simp_all

theorem hostDmemWrite_cases {s t : State} {a : Nat} {w : Width} {v : Word} (h : hostDmemWrite s a w v = .next t) :
    s.busy = false ∧ a + w.bytes ≤ s.params.dmemSize ∧ t = s.setDmem (s.dmem.writeLE a w.bytes v.toNat) := by
  unfold hostDmemWrite at h
  split at h
  · cases h
  · split at h <;> simp_all

/-- Everything a step that goes on can be: the core's completion of some state that differs in its moves alone, a
host access or a reset. `u` is the state with the move taken off the list. -/
theorem step_cases {s t : State} (h : step s = .next t) :
    ∃ ev, ∃ u : State, u = { s with events := ev } ∧
      ((u.busy = true ∧ completion u = .next t) ∨ t = u ∨ (∃ i, t = u.reply (u.regRead i)) ∨
        (∃ i v, (u.busy && (decide (i.val = 2) || guardedIndex i)) = false ∧ t = u.regWrite i v) ∨
        (∃ a w, t = u.reply (BitVec.ofNat 32 (u.dmem.readLE a w))) ∨
        (∃ a n v, a + n ≤ u.params.dmemSize ∧ t = u.setDmem (u.dmem.writeLE a n v)) ∨
        t = { State.reset with params := u.params, events := u.events, replies := u.replies }) := by
  unfold step at h
  split at h
  · next he =>
    refine ⟨s.events, s, rfl, ?_⟩
    rcases coreMove_cases h with h | h
    · exact .inl h
    · exact .inr (.inl h.2)
  · next i rest he => exact ⟨rest, _, rfl, .inr (.inr (.inl ⟨i, (hostRegRead_cases h).2⟩))⟩
  · next i v rest he => exact ⟨rest, _, rfl, .inr (.inr (.inr (.inl ⟨i, v, hostRegWrite_cases h⟩)))⟩
  · next a w rest he => exact ⟨rest, _, rfl, .inr (.inr (.inr (.inr (.inl ⟨a, w.bytes, (hostDmemRead_cases h).2.2⟩))))⟩
  · next a w v rest he =>
    exact ⟨rest, _, rfl, .inr (.inr (.inr (.inr (.inr (.inl ⟨a, w.bytes, v.toNat, (hostDmemWrite_cases h).2⟩)))))⟩
  · next rest he =>
    refine ⟨rest, _, rfl, .inr (.inr (.inr (.inr (.inr (.inr ?_)))))⟩
    injection h with h
    exact h.symm
  · next rest he =>
    refine ⟨rest, _, rfl, ?_⟩
    rcases coreMove_cases h with h | h
    · exact .inl h
    · exact .inr (.inl h.2)
  · next rest he =>
    unfold hostWait at h
    split at h
    · next hb => exact ⟨s.events, s, rfl, .inl ⟨hb, h⟩⟩
    · injection h with h
      exact ⟨rest, _, rfl, .inr (.inl h.symm)⟩

end Sys2Proof.Machine
end

