-- ==== Sys2Proof/Tests/Slice0.lean ====
section
/-! SUPPORT. Tests whose expected values come from the spec (95_test_vectors.md unless another file is named), the
smoke tests of `WellFormed`, and for every statement with hypotheses the inputs that meet them. -/

namespace Sys2Proof.Tests

open Sys2Proof Sys2Proof.Machine

/-! ### Well-formedness refuses (R7, R101) -/

theorem test_n_refused : nOk 0 = false ∧ nOk 65536 = false ∧ nOk 1 = true ∧ nOk 65535 = true := by decide
theorem test_q_refused : qOk 255 = false ∧ qOk (2 ^ 32) = false ∧ qOk 256 = true ∧ qOk (2 ^ 32 - 1) = true := by decide
theorem test_seclen_refused : seclenOk 0 = false ∧ seclenOk 1 = true := by decide
theorem test_dmemSize_refused : dmemSizeOk (2 ^ 32) = false ∧ dmemSizeOk (2 ^ 32 - 1) = true := by decide
/-- +infinity, a NaN and -1.0 are refused; 0.0, -0.0 and 1.0 are not. -/
theorem test_sigma_refused :
    sigmaOk 0x7FF0000000000000 = false ∧ sigmaOk 0x7FF8000000000000 = false ∧ sigmaOk 0xBFF0000000000000 = false ∧
      sigmaOk 0x0000000000000000 = true ∧ sigmaOk 0x8000000000000000 = true ∧ sigmaOk 0x3FF0000000000000 = true := by
  decide
/-- MODADD takes two operands (R101). -/
theorem test_pseudo_refused :
    ScriptLine.wf (.pseudo .modadd [1]) = false ∧ ScriptLine.wf (.pseudo .modadd [1, 2]) = true := by decide

/-! ### Decoding (R96): every word written out bit by bit, `ZERO` then `OPC` -/

theorem test_decode_housekeeping :
    decode 0b000000000000000000000000_00000000 = .ok .nop ∧
      decode 0b000000000000000000000000_01000000 = .ok .zeroize := by decide
theorem test_decode_arithmetic :
    decode 0b000000000000000000000000_00000001 = .ok .modadd ∧
      decode 0b000000000000000000000000_00000010 = .ok .modsub ∧
      decode 0b000000000000000000000000_00000011 = .ok .modmul := by decide
theorem test_decode_codec :
    decode 0b000000000000000000000000_00010000 = .ok .encode ∧
      decode 0b000000000000000000000000_00010001 = .ok .decode := by decide
theorem test_decode_sampler :
    decode 0b000000000000000000000000_00100000 = .ok .rngseed ∧
      decode 0b000000000000000000000000_00100001 = .ok .rngclr ∧
      decode 0b000000000000000000000000_00100010 = .ok .sampleu ∧
      decode 0b000000000000000000000000_00100011 = .ok .sampleg ∧
      decode 0b000000000000000000000000_00100100 = .ok .randmat ∧
      decode 0b000000000000000000000000_00100101 = .ok .randerr := by decide
theorem test_decode_engine :
    decode 0b000000000000000000000000_00110000 = .ok .keygen ∧
      decode 0b000000000000000000000000_00110001 = .ok .encaps ∧
      decode 0b000000000000000000000000_00110010 = .ok .decaps := by decide
/-- Section 2.5's illegal words of the unlisted opcodes. -/
theorem test_decode_unlisted :
    decode 0x00000004 = .error .unlistedOpcode ∧ decode 0x0000000F = .error .unlistedOpcode ∧
      decode 0x00000012 = .error .unlistedOpcode ∧ decode 0x0000001F = .error .unlistedOpcode ∧
      decode 0x00000026 = .error .unlistedOpcode ∧ decode 0x0000002F = .error .unlistedOpcode ∧
      decode 0x00000033 = .error .unlistedOpcode ∧ decode 0x0000003F = .error .unlistedOpcode ∧
      decode 0x00000041 = .error .unlistedOpcode ∧ decode 0x000000FF = .error .unlistedOpcode := by decide
/-- Section 2.5's illegal words with a bit of `ZERO` set. -/
theorem test_decode_reserved :
    decode 0x00000100 = .error .reservedBits ∧ decode 0x00000130 = .error .reservedBits ∧
      decode 0x00010000 = .error .reservedBits ∧ decode 0xFFFFFFFF = .error .reservedBits := by decide

/-! ### Fixtures of section 0 -/

/-- CFG-A. -/
def cfgA : Params := { n := 2, q := 65537, seclen := 4, dmemSize := 4096, sigma := 0x3FF0000000000000 }

/-- CFG-B. -/
def cfgB : Params := { n := 2, q := 65521, seclen := 4, dmemSize := 4096, sigma := 0x3FF0000000000000 }

/-- 32 successive bytes: `SEED0` from 0, `SEED1` from 1, `ESEED` from 0x20. -/
def seedFrom (b : Nat) : Seed := Vector.ofFn fun k : Fin 32 => BitVec.ofNat 8 (b + k.val)

/-- `PRNG_WORD_T` of 42_sampler.md section 5: the sum of the eight words of the seed, and a step for each word. -/
def testWord (seed : Seed) (k : Nat) : Word :=
  BitVec.ofNat 32 (((List.range 8).map fun i => leNat ((seed.toList.drop (4 * i)).take 4)).sum + k * 0x9E3779B9)

/-- `HASH_T` of section 0. -/
def testHash (len : Nat) (m : List Byte) : Vector Byte len :=
  Vector.ofFn fun i => (leBytes ((leNat m * 0x01000193 + 0x811C9DC5) % 2 ^ 32) 4).getD i.val 0

/-- `ln` of a binary64 library at the arguments the vectors below need: pairs (0,1), (2,3), ... of `SEED0`, then the
two pairs of `ESEED`. -/
def lnTable : List (F64 × F64) :=
  [(0x3FE1100F0E100000, 0xBFE41F73BC31D014), (0x3FE89DED7C500000, 0xBFD0C9906DEAD3F1),
   (0x3F75E5F548000000, 0xC014ECE933EE87CF), (0x3FCEE6A963400000, 0xBFF6BD673440E479),
   (0x3FDE8F118E200000, 0xBFE7A7C24162A75D), (0x3FE6D56735500000, 0xBFD599A417102CD7),
   (0x3FE1302F2E100000, 0xBFE3E36C62697EE5), (0x3FE8BE0D9C500000, 0xBFD0764156B77D8A)]

/-- `cos` of the same library, for the same pairs. -/
def cosTable : List (F64 × F64) :=
  [(0x3FEE68D2FAEF9AA3, 0x3FE29B2D02EF1BBF), (0x400377EB8F1DAC33, 0xBFE84EF740D0C525),
   (0x400F55A25F7F71BE, 0xBFE6DB453B892057), (0x401599AC97F09BA4, 0x3FE44FDCD9CD2BA7),
   (0x3FE334655EEA8A8B, 0x3FEA6879570B3A60), (0x4000AAD0281C682D, 0xBFDF639168F09AD0),
   (0x3FEF32ACAE7C38D0, 0x3FE1F5860B688845), (0x4003AA61FC00D3BE, 0xBFE8D055FC5C1F33)]

/-- The fixtures as collaborators. -/
def fixture : Collaborators where
  hash := testHash
  prngWord := testWord
  ln64 := fun x => (lnTable.lookup x).getD f64NaN
  cos64 := fun x => (cosTable.lookup x).getD f64NaN
  gaussNaN := fun _ _ _ => 0xDEAD

/-- A core after reset, with argument registers and DMEM written by the host. -/
def start (p : Params) (args : List Word) (m : Memory) : State :=
  { State.reset with params := p, args := Vector.ofFn fun k : Fin 8 => args.getD k.val 0, dmem := m }

/-- A start state with an RNG context. -/
def seeded (p : Params) (args : List Word) (m : Memory) (seed : Seed) (pos : BitVec 64) : State :=
  (start p args m).setRng true seed pos

/-- The state after a command. -/
def after (i : Instr) (s : State) : State :=
  match exec i s with
  | .next t => t
  | _ => s

/-- `SEED0` at 0x000, `ESEED` at 0x020, the message `2A 00 00 00` at 0x040 (program P3, lines 1 to 3). -/
def plan : Memory :=
  Memory.writeBytes (Memory.writeBytes (Memory.writeBytes [] 0 (seedFrom 0).toList) 0x20 (seedFrom 0x20).toList) 0x40
    [0x2A, 0, 0, 0]

/-! ### Commands -/

/-- H3 and H9. -/
theorem test_nop : (after .nop (start cfgA [] [])).statusWord = 0x00000002 := by decide
/-- M1. -/
theorem test_modadd : (after .modadd (start cfgA [12345, 54321] [])).res0 = 1129 := by decide
/-- M18. -/
theorem test_modadd_range : (after .modadd (start cfgA [65537, 0] [])).statusWord = 0x00001206 := by decide
/-- M5. -/
theorem test_modsub : (after .modsub (start cfgA [12345, 54321] [])).res0 = 23561 := by decide
/-- M20. -/
theorem test_modsub_range : (after .modsub (start cfgB [65521, 65521] [])).statusWord = 0x00001206 := by decide
/-- M9. -/
theorem test_modmul : (after .modmul (start cfgA [12345, 54321] [])).res0 = 18161 := by decide
/-- M11: the product has 33 bits. -/
theorem test_modmul_wide : (after .modmul (start cfgA [65536, 65536] [])).res0 = 1 := by decide
/-- K3. -/
theorem test_encode :
    let t := after .encode (start cfgA [0x100, 2, 2, 0x200] (Memory.writeBytes [] 0x100
      [1, 0, 0, 0, 2, 0, 0, 0, 3, 0, 0, 0, 4, 0, 0, 0]))
    t.dmem.readBytes 0x200 8 = [1, 0, 2, 0, 3, 0, 4, 0] ∧ t.res0 = 8 := by decide
/-- K5: nothing is written, not even the 5. -/
theorem test_encode_range :
    let t := after .encode (start cfgA [0x100, 1, 2, 0x200] (Memory.writeBytes [] 0x100 [5, 0, 0, 0, 0, 0, 0, 0x80]))
    t.statusWord = 0x00001306 ∧ t.dmem.readBytes 0x200 4 = [0, 0, 0, 0] := by decide
/-- K12: extra bytes are ignored. -/
theorem test_decode :
    let t := after .decode (start cfgA [0x200, 6, 2, 1, 0x300] (Memory.writeBytes [] 0x200
      [0x34, 0x12, 0xFF, 0xFF, 0xAA, 0xBB]))
    t.dmem.readBytes 0x300 8 = [0x34, 0x12, 0, 0, 0xFF, 0xFF, 0, 0] ∧ t.res0 = 4 := by decide
/-- K14: the length is tested before the region. -/
theorem test_decode_length :
    (after .decode (start cfgA [0x200, 3, 2, 1, 0xFFFFFFF0] [])).statusWord = 0x00000106 := by decide
/-- S3. -/
theorem test_rngseed :
    let t := after .rngseed (start cfgA [0, 32] plan)
    t.statusWord = 0x0000000A ∧ t.rngSeed = seedFrom 0 ∧ t.rngPos = 0 := by decide +kernel
/-- S6: the length is tested before the region. -/
theorem test_rngseed_length : (after .rngseed (start cfgA [0xFF0, 16] [])).statusWord = 0x00000406 := by decide
/-- S20. -/
theorem test_rngclr :
    let t := after .rngclr (seeded cfgA [] [] (seedFrom 0) 7)
    t.statusWord = 0x00000002 ∧ t.regRead 0x0E = 0 := by decide
/-- S7. -/
theorem test_sampleu :
    let s := seeded cfgA [] [] (seedFrom 0) 0
    let t := s.complete (sampleuRule fixture s)
    t.res0 = 61425 ∧ t.rngPos = 1 := by decide
/-- S21: the end of the stream. -/
theorem test_sampleu_exhausted :
    (after .sampleu (seeded cfgA [] [] (seedFrom 0) 0xFFFFFFFFFFFFFFFF)).statusWord = 0x0000040E := by decide
/-- S10: -1 in two's complement. -/
theorem test_sampleg :
    let s := seeded cfgA [] [] (seedFrom 0) 2
    let t := s.complete (samplegRule fixture s)
    t.res0 = 0xFFFFFFFF ∧ t.rngPos = 4 := by decide +kernel
/-- S12: the same stream at sigma 3.2. -/
theorem test_sampleg_sigma :
    let s := seeded { n := 2, q := 65537, seclen := 4, dmemSize := 4096, sigma := 0x400999999999999A } [] []
      (seedFrom 0) 4
    (s.complete (samplegRule fixture s)).res0 = 0xFFFFFFF9 := by decide +kernel
/-- S14. -/
theorem test_randmat :
    let s := seeded cfgA [2, 2, 0x100] [] (seedFrom 0) 0
    let t := s.complete (randmatRule fixture s)
    t.dmem.readBytes 0x100 16 = [0xF1, 0xEF, 0, 0, 0x72, 0xCB, 0, 0, 0xF4, 0xA6, 0, 0, 0x75, 0x82, 0, 0] ∧
      t.rngPos = 4 := by decide
/-- S19: the context is tested before the region. -/
theorem test_randmat_unseeded :
    (after .randmat (start cfgA [32, 32, 0x100] [])).statusWord = 0x00001406 := by decide
/-- S16. -/
theorem test_randerr :
    let s := seeded cfgB [3, 0x100] [] (seedFrom 0) 0
    let t := s.complete (randerrRule fixture s)
    t.dmem.readBytes 0x100 12 = [1, 0, 0, 0, 0xF0, 0xFF, 0, 0, 0xEF, 0xFF, 0, 0] ∧ t.rngPos = 6 := by decide +kernel
/-- G1: the public key (followed by the seed) and the secret key. -/
theorem test_keygen :
    let s := start cfgB [0, 32, 0x100, 0x140] plan
    let t := s.complete (keygenRule fixture s)
    t.dmem.readBytes 0x100 13 = [0x68, 0x78, 0x0F, 0x37, 0x88, 0xF6, 0x2F, 0xB5, 0x31, 0x46, 0x01, 0xC8, 0x00] ∧
      t.dmem.readBytes 0x140 6 = [0xEF, 0xFF, 0x01, 0x00, 0x00, 0x01] := by decide +kernel
/-- G7: the public key would overlap the seed. -/
theorem test_keygen_regions : (after .keygen (start cfgB [0, 32, 0x10, 0x140] plan)).statusWord = 0x00001106 := by
  decide
/-- E1, with the public key of G1 at 0x100. -/
theorem test_encaps :
    let m := plan.writeBytes 0x100 [0x68, 0x78, 0x0F, 0x37, 0x88, 0xF6, 0x2F, 0xB5, 0x31, 0x46, 0x01, 0xC8]
    let s := start cfgB [0x100, 44, 0x20, 32, 0x40, 0x180, 0x190] m
    let t := s.complete (encapsRule fixture s)
    t.dmem.readBytes 0x180 10 = [0xD1, 0x81, 0xD1, 0x81, 0xF7, 0xA7, 0x2A, 0, 0, 0] ∧
      t.dmem.readBytes 0x190 4 = [0xE3, 0xDF, 0x1C, 0xAB] := by decide +kernel
/-- X3: the key length is tested before the seed length. -/
theorem test_encaps_length :
    (after .encaps (start cfgB [0x100, 43, 0x20, 31, 0x40, 0x180, 0x190] plan)).statusWord = 0x00000206 := by decide
/-- W3: the high edge of the rounding window. -/
theorem test_decaps :
    let s := start cfgB [0x140, 36, 0x180, 10, 0x1A0] (Memory.writeBytes [] 0x184 [0x55, 0x2A, 0x2A, 0, 0, 0])
    (s.complete (decapsRule fixture s)).dmem.readBytes 0x1A0 4 = [0xE3, 0xDF, 0x1C, 0xAB] := by decide
/-- W4: one above it. -/
theorem test_decaps_window :
    (after .decaps (start cfgB [0x140, 36, 0x180, 10, 0x1A0] (Memory.writeBytes [] 0x184
      [0x56, 0x2A, 0x2A, 0, 0, 0]))).statusWord = 0x00000606 := by decide
/-- H12. -/
theorem test_zeroize :
    (after .zeroize (start cfgA [0x101, 2] (Memory.writeBytes [] 0x100 [0xAA, 0xBB, 0xCC, 0xDD]))).dmem.readBytes
      0x100 4 = [0xAA, 0, 0, 0xDD] := by decide
/-- H13. -/
theorem test_zeroize_region : (after .zeroize (start cfgA [4090, 10] [])).statusWord = 0x00001106 := by decide

/-! ### The handshake, the fixture's hash, the reduction datapaths -/

/-- H5: an illegal word completes and stays in CMD. -/
theorem test_illegal_word :
    (match step ((start cfgA [] []).withFetchWord 32 0x04) with
      | .next t => [t.statusWord, t.cmd]
      | _ => []) = [0x00001006, 0x04] := by decide
/-- H2: 1.0 as the two words of PARAM_SIGMA. -/
theorem test_sigma_words :
    (start cfgA [] []).regRead 0x13 = 0x00000000 ∧ (start cfgA [] []).regRead 0x14 = 0x3FF00000 := by decide
/-- R101, section 3: line 3 of program P1 as host actions. -/
theorem test_script_line :
    scriptMoves [.pseudo .modadd [12345, 54321]] =
      [.regWrite 4 12345, .regWrite 5 54321, .regWrite 2 0x01, .wait] := by decide
/-- R93, R100: the core completes after the command is issued and before STATUS is read, by the schedule. -/
theorem test_schedule :
    ((start cfgA [] []).running [.cmd .modadd, .rd 3] [0, 1]).events = [.regWrite 2 0x01, .core, .regRead 3] := by decide

/-- R134: a container of four bytes takes four bytes and refuses three with the error of its kind. -/
theorem test_container_length :
    lengthValidated 4 .invalidKeyFormat [1, 2, 3, 4] = .ok #v[1, 2, 3, 4] ∧
      lengthValidated 4 .invalidKeyFormat [1, 2, 3] = .error .invalidKeyFormat := by decide

/-- 41_modular_arithmetic.md section 4: the subtraction is taken. -/
theorem test_barrett :
    barrettMu 65521 16 = 65551 ∧ barrettQuotient 65521 16 4292870400 = 65518 ∧
      barrettReduce 65521 16 4292870400 = 1 := by decide
/-- 41_modular_arithmetic.md section 4. -/
theorem test_montgomery :
    let m : Montgomery := { q := 65521, w := 32, qp := 839905007, r2 := 50625 }
    m.ok = true ∧ m.redc 670592745 = 18863 ∧ m.mul 12345 54321 = 50831 := by decide

/-- 93_implementation_defined.md G3: a tie goes away from zero, 1/2 to 1 and -1/2 to -1, and 5/4 to 1. -/
theorem test_round_half_away :
    roundHalfAway false 1 (-1) = 1 ∧ roundHalfAway true 1 (-1) = -1 ∧ roundHalfAway false 5 (-2) = 1 := by decide

/-- R178: `(1 + 2^-52)^2 = 1 + 2^-51 + 2^-104` loses its last term, and the tie of
`(1 + 2^-26) * (1 + 2^-27) = 1 + 2^-26 + 2^-27 + 2^-53` goes to the even significand. -/
theorem test_fmul_rounds :
    fmul 0x3FF0000000000001 0x3FF0000000000001 = 0x3FF0000000000002 ∧
      fmul 0x3FF0000004000000 0x3FF0000002000000 = 0x3FF0000006000000 := by decide +kernel

/-- R178: the square root of 4 is 2; that of `1 + 2^-51`, a little below `1 + 2^-52`, rounds to it. -/
theorem test_fsqrt_rounds :
    fsqrt 0x4010000000000000 = 0x4000000000000000 ∧ fsqrt 0x3FF0000000000002 = 0x3FF0000000000001 := by
  decide +kernel

/-! ### Inputs that meet the hypotheses of each statement -/

/-- A core with a word in flight. -/
def busyCore (w : Word) (moves : List Event) : State := { start cfgA [] [] with cmd := w, busy := true, events := moves }

/-- An idle core. -/
def idleCore (moves : List Event) : State := { start cfgA [] [] with events := moves }

/-- Collaborators with a constant word, and for which every sample at sigma 1.0 is 1, the square root of 2 rounded. -/
def steady : Collaborators where
  hash := testHash
  prngWord := fun _ _ => 65536
  ln64 := fun _ => 0xBFF0000000000000
  cos64 := fun _ => 0x3FF0000000000000
  gaussNaN := fun _ _ _ => 0

theorem exec_after (i : Instr) (s : State) : exec i s = .next (after i s) := by simp [after, exec_eq]

theorem witness_illegalWords :
    ∀ w ∈ ([0x04, 0x0F, 0x12, 0x1F, 0x26, 0x2F, 0x33, 0x3F, 0x41, 0xFF, 0x100, 0xFFFFFFFF] : List Word),
      (busyCore w [.core]).busy = true ∧ (busyCore w []).events = [] ∧ (busyCore w [.core]).events = .core :: [] ∧
        (busyCore w [.wait]).events = .wait :: [] ∧
        (0x100 ≤ w.toNat ∨ (0x04 ≤ w.toNat ∧ w.toNat ≤ 0x0F) ∨ (0x12 ≤ w.toNat ∧ w.toNat ≤ 0x1F) ∨
          (0x26 ≤ w.toNat ∧ w.toNat ≤ 0x2F) ∨ (0x33 ≤ w.toNat ∧ w.toNat ≤ 0x3F) ∨
          (0x41 ≤ w.toNat ∧ w.toNat ≤ 0xFF)) := by
  simp [busyCore]

theorem witness_stepRuns :
    (busyCore 0x01 []).busy = true ∧ decode (busyCore 0x01 []).cmd = .ok .modadd ∧ (busyCore 0x01 []).events = [] ∧
      (busyCore 0x01 [.core]).events = .core :: [] ∧ (busyCore 0x01 [.wait]).events = .wait :: [] ∧
      (idleCore []).busy = false ∧ (idleCore []).events = [] ∧ (idleCore [.core]).events = .core :: [] ∧
      (idleCore [.wait]).events = .wait :: [] := by decide

theorem witness_issue :
    (idleCore [.regWrite 2 0x30]).busy = false ∧ (idleCore [.regWrite 2 0x30]).events = .regWrite 2 0x30 :: [] := by
  decide

theorem witness_argumentRegisters :
    (idleCore []).busy = false ∧
      (idleCore [.regWrite 0x04 9]).events = .regWrite (argIndex 0) 9 :: [] ∧
      (idleCore [.regWrite 0x0B 9]).events = .regWrite (argIndex 7) 9 :: [] ∧
      (idleCore [.regRead 0x0B]).events = .regRead (argIndex 7) :: [] ∧
      (idleCore [.regRead 0x0C]).events = .regRead 0x0C :: [] ∧
      (busyCore 0x30 [.regRead 0x02]).events = .regRead 0x02 :: [] := by decide

theorem witness_reserved :
    (∀ i ∈ ([0x0D, 0x16, 0x3F] : List (Fin 64)),
      (i.val = 0x0D ∨ 0x16 ≤ i.val) ∧ (idleCore [.regRead i]).events = .regRead i :: []) ∧
    (∀ i ∈ ([0x00, 0x01, 0x03, 0x0C, 0x15, 0x3F] : List (Fin 64)),
      (idleCore []).busy = false ∧ i.val ≠ 2 ∧ ¬(4 ≤ i.val ∧ i.val ≤ 11) ∧
        (idleCore [.regWrite i 0x12345678]).events = .regWrite i 0x12345678 :: []) ∧
    (∀ j ∈ [4, 7, 16, 31], (4 ≤ j ∧ j ≤ 7) ∨ 16 ≤ j) := by decide

theorem witness_statusRead : (busyCore 0 [.regRead 3]).events = .regRead 3 :: [] := by decide

theorem witness_identification :
    (busyCore 0 [.regRead 0]).events = .regRead 0 :: [] ∧ (idleCore [.regRead 1]).events = .regRead 1 :: [] := by decide

theorem witness_parameters :
    ∀ i ∈ ([0x10, 0x11, 0x12, 0x13, 0x14, 0x15] : List (Fin 64)),
      (busyCore 0 [.regRead i]).events = .regRead i :: [] ∧ 0x10 ≤ i.val ∧ i.val ≤ 0x15 ∧
        (busyCore 0 [.regRead i]).params.seclen < 2 ^ 32 := by decide

theorem witness_rngPosition :
    (idleCore [.regRead 0x0E]).busy = false ∧ (idleCore [.regRead 0x0E]).events = .regRead 0x0E :: [] ∧
      (idleCore [.regRead 0x0F]).events = .regRead 0x0F :: [] := by decide

theorem witness_busyAccesses :
    (busyCore 0 []).busy = true ∧ (busyCore 0 [.regWrite 2 0]).events = .regWrite 2 0 :: [] ∧
      (busyCore 0 [.regWrite 0x0B 1]).events = .regWrite (argIndex 7) 1 :: [] ∧
      (busyCore 0 [.regRead 0x04]).events = .regRead (argIndex 0) :: [] ∧
      (busyCore 0 [.regRead 0x0C]).events = .regRead 0x0C :: [] ∧
      (busyCore 0 [.dmemRead 0 .one]).events = .dmemRead 0 .one :: [] ∧
      (busyCore 0 [.dmemWrite 0 .four 1]).events = .dmemWrite 0 .four 1 :: [] := by decide

/-- The last word of DMEM, and one byte further. -/
theorem witness_dmemAccesses :
    (idleCore []).busy = false ∧ 4092 + Width.four.bytes ≤ (idleCore []).params.dmemSize ∧
      (idleCore [.dmemRead 4092 .four]).events = .dmemRead 4092 .four :: [] ∧
      (idleCore [.dmemWrite 4092 .four 7]).events = .dmemWrite 4092 .four 7 :: [] ∧
      (idleCore []).params.dmemSize < 4093 + Width.four.bytes ∧
      (idleCore [.dmemRead 4093 .four]).events = .dmemRead 4093 .four :: [] ∧
      (idleCore [.dmemWrite 4093 .four 7]).events = .dmemWrite 4093 .four 7 :: [] := by decide

theorem witness_reset : (busyCore 0x30 [.reset, .core]).events = .reset :: [.core] := by decide

/-- A state that is not the reset state, and its next one. -/
theorem witness_invariant :
    (busyCore 0x00 [.core]).Inv ∧ step (busyCore 0x00 [.core]) = .next (State.afterSuccess (busyCore 0x00 [])) := by
  refine ⟨⟨?_, ?_, ?_, ?_, ?_, ?_, ?_⟩, rfl⟩ <;> simp [busyCore, start, State.reset, Memory.wf, Memory.within]

/-- Every command answers on every state, so `exec i s = .next t` is met by any of them. -/
theorem witness_commands (i : Instr) : exec i (start cfgA [0, 0] []) = .next (after i (start cfgA [0, 0] [])) :=
  exec_after i _

theorem witness_errors :
    (start cfgA [65537, 0] []).err = false ∧ (after .modadd (start cfgA [65537, 0] [])).err = true := by decide

theorem witness_unnamedArguments :
    Instr.arity .nop ≤ (0 : Fin 8).val ∧ Instr.arity .encaps ≤ (7 : Fin 8).val := by decide

theorem witness_frames :
    Instr.sampleg ∈ [Instr.nop, .modadd, .modsub, .modmul, .rngseed, .rngclr, .sampleu, .sampleg] ∧
      Instr.zeroize ≠ .rngseed ∧ Instr.zeroize ≠ .rngclr ∧ Instr.zeroize ≠ .sampleu ∧ Instr.zeroize ≠ .sampleg ∧
      Instr.zeroize ≠ .randmat ∧ Instr.zeroize ≠ .randerr ∧ Instr.zeroize ≠ .modadd ∧ Instr.zeroize ≠ .modsub ∧
      Instr.zeroize ≠ .modmul ∧ Instr.zeroize ≠ .encode ∧ Instr.zeroize ≠ .decode := by decide

theorem witness_nop :
    (idleCore [.regWrite 2 0, .core]).busy = false ∧
      (idleCore [.regWrite 2 0, .core]).events = .regWrite 2 0x00000000 :: .core :: [] := by decide

/-- H15, H14 and one byte further. -/
theorem witness_zeroize :
    ((start cfgA [0xFFFFFFFF, 0] []).arg 1 = 0) ∧
      ((start cfgA [4090, 6] []).arg 0 + (start cfgA [4090, 6] []).arg 1 ≤ cfgA.dmemSize) ∧
      ((start cfgA [4090, 7] []).arg 1 ≠ 0 ∧
        cfgA.dmemSize < (start cfgA [4090, 7] []).arg 0 + (start cfgA [4090, 7] []).arg 1) := by decide

/-- The largest residue and the first value that is none, for MODADD, MODSUB and MODMUL. -/
theorem witness_modular :
    (start cfgA [65536, 65536] []).arg 0 < cfgA.q ∧ (start cfgA [65536, 65536] []).arg 1 < cfgA.q ∧
      cfgA.q ≤ (start cfgA [65537, 0] []).arg 0 ∧ cfgA.q ≤ (start cfgA [0, 65537] []).arg 1 := by decide

theorem witness_ringLaws : 256 < 257 ∧ 0 < 257 ∧ 1 < 257 := by decide

theorem witness_barrett : 0 < 65521 ∧ 65521 ≤ 2 ^ 16 ∧ 2 ^ 32 - 1 < 2 ^ (2 * 16) ∧ 65520 < 65521 := by decide

theorem witness_montgomery :
    (Montgomery.mk 65521 32 839905007 50625).ok = true ∧ 2 ^ 32 * 65521 - 1 < 2 ^ 32 * 65521 ∧ 65520 < 65521 := by decide

/-- K7, K4, and K3 with its regions and words. -/
theorem witness_encode :
    regionsOK cfgA.dmemSize [⟨0x100, 4 * 4⟩, ⟨0x108, 4 * 2⟩] = false ∧
    (regionsOK cfgA.dmemSize [⟨0x100, 1 * 4⟩, ⟨0x200, 1 * 2⟩] = true ∧ 0 < 1 ∧
      65536 ≤ (Memory.writeBytes [] 0x100 [0, 0, 1, 0]).readLE (0x100 + 4 * 0) 4) ∧
    (regionsOK cfgA.dmemSize [⟨0x100, 1 * 4⟩, ⟨0x200, 1 * 2⟩] = true ∧
      ∀ k, k < 1 → (Memory.writeBytes [] 0x100 [0xFF, 0xFF, 0, 0]).readLE (0x100 + 4 * k) 4 < 65536) := by decide

/-- K11, K13 and K10. -/
theorem witness_decode :
    3 < 2 * 1 * 2 ∧
    (2 * 2 * 2 ≤ 8 ∧ regionsOK cfgA.dmemSize [⟨0x200, 8⟩, ⟨0x204, 2 * 2 * 4⟩] = false) ∧
    (2 * 1 * 2 ≤ 4 ∧ regionsOK cfgA.dmemSize [⟨0x200, 4⟩, ⟨0x300, 2 * 1 * 4⟩] = true) := by decide

/-- Program P2, line 9 and line 11 on the words of K3. -/
theorem witness_decodeAfterEncode :
    let s := start cfgA [0x100, 2, 2, 0x200] (Memory.writeBytes [] 0x100 [1, 0, 0, 0, 2, 0, 0, 0, 3, 0, 0, 0, 4])
    s.err = false ∧ s.args.toList.take 4 = [0x100, 2, 2, 0x200] ∧ (after .encode s).err = false ∧
      regionsOK s.params.dmemSize [⟨(0x200 : Word).toNat, (2 : Word).toNat * (2 : Word).toNat * 2⟩,
        ⟨(0x300 : Word).toNat, (2 : Word).toNat * (2 : Word).toNat * 4⟩] = true := by decide

/-- 31 bytes; 32 bytes that end one past DMEM; the last 32 bytes. -/
theorem witness_rngseed :
    (start cfgA [0, 31] []).arg 1 < 32 ∧
    (32 ≤ (start cfgA [4065, 32] []).arg 1 ∧
      cfgA.dmemSize < (start cfgA [4065, 32] []).arg 0 + (start cfgA [4065, 32] []).arg 1) ∧
    (32 ≤ (start cfgA [4064, 32] []).arg 1 ∧
      (start cfgA [4064, 32] []).arg 0 + (start cfgA [4064, 32] []).arg 1 ≤ cfgA.dmemSize) := by decide

/-- No context; the end of the stream; the last word. -/
theorem witness_sampleu :
    (start cfgA [] []).rngValid = false ∧
    ((seeded cfgA [] [] (seedFrom 0) 0xFFFFFFFFFFFFFFFF).rngValid = true ∧
      2 ^ 64 - 1 < (0xFFFFFFFFFFFFFFFF : BitVec 64).toNat + 1) ∧
    (0xFFFFFFFFFFFFFFFE : BitVec 64).toNat + 1 ≤ 2 ^ 64 - 1 := by decide

/-- One word is left; the last two words. -/
theorem witness_sampleg :
    (seeded cfgA [] [] (seedFrom 0) 0xFFFFFFFFFFFFFFFE).rngValid = true ∧
    2 ^ 64 - 1 < (0xFFFFFFFFFFFFFFFE : BitVec 64).toNat + 2 ∧
    (0xFFFFFFFFFFFFFFFD : BitVec 64).toNat + 2 ≤ 2 ^ 64 - 1 := by decide

/-- The evaluation of `steady` on the word 65536 is the finite value nearest the square root of 2. -/
theorem witness_evaluation :
    f64Val (fmul (fmul (fsqrt (fmul minusTwo (steady.ln64 (u01 65536)))) (steady.cos64 (fmul twoPi (u01 65536))))
        cfgA.sigma) = .fin false 6369051672525773 (-52) ∧
      gaussCore steady 65536 65536 cfgA.sigma = 1 := by decide +kernel

/-- Values of each kind: 1.0, -1.0, -0.0, the two infinities and a NaN. -/
theorem witness_floats :
    ((f64Val 0x3FF0000000000000).isFinite = true ∧ 0 ≤ (f64Val 0x3FF0000000000000).rat) ∧
    (f64Val 0xBFF0000000000000).rat < 0 ∧
    ((f64Val 0x8000000000000000).isFinite = true ∧ (f64Val 0x8000000000000000).rat = 0) ∧
    f64Val 0x7FF0000000000000 = .inf false ∧ f64Val 0xFFF0000000000000 = .inf true ∧
    f64Val 0x7FF8000000000000 = .nan := by
  have one : f64Val 0x3FF0000000000000 = .fin false (2 ^ 52) (-52) := by decide
  have minusOne : f64Val 0xBFF0000000000000 = .fin true (2 ^ 52) (-52) := by decide
  have zero : f64Val 0x8000000000000000 = .fin true 0 (-1074) := by decide
  rw [one, minusOne, zero]
  refine ⟨⟨rfl, ?_⟩, ?_, ⟨rfl, ?_⟩, by decide, by decide, by decide⟩ <;> norm_num [F64Val.rat]

/-- RANDMAT: S18; S17; the array that ends with DMEM, with one word too few and just enough words left. -/
theorem witness_randmat :
    let s := seeded cfgA [32, 32, 0x100] [] (seedFrom 0) 0
    let e := seeded cfgA [0, 5, 0xFFFFFFFF] [] (seedFrom 0) 0
    let l := seeded cfgA [1, 2, 4088] [] (seedFrom 0) 0xFFFFFFFFFFFFFFFE
    let o := seeded cfgA [1, 2, 4088] [] (seedFrom 0) 0xFFFFFFFFFFFFFFFD
    (s.rngValid = true ∧ s.arg 0 * s.arg 1 ≠ 0 ∧ s.params.dmemSize < s.arg 2 + s.arg 0 * s.arg 1 * 4) ∧
    (e.rngValid = true ∧ e.arg 0 * e.arg 1 = 0 ∧ e.rngPos.toNat + e.arg 0 * e.arg 1 ≤ 2 ^ 64 - 1) ∧
    (l.rngValid = true ∧ l.arg 2 + l.arg 0 * l.arg 1 * 4 ≤ l.params.dmemSize ∧
      2 ^ 64 - 1 < l.rngPos.toNat + l.arg 0 * l.arg 1) ∧
    (o.rngValid = true ∧ o.arg 2 + o.arg 0 * o.arg 1 * 4 ≤ o.params.dmemSize ∧
      o.rngPos.toNat + o.arg 0 * o.arg 1 ≤ 2 ^ 64 - 1) := by decide

/-- RANDERR: a vector past DMEM; the empty vector; the one that ends with DMEM, with one word too few and just enough
words left. -/
theorem witness_randerr :
    let s := seeded cfgA [1, 4093] [] (seedFrom 0) 0
    let e := seeded cfgA [0, 0xFFFFFFFF] [] (seedFrom 0) 0
    let l := seeded cfgA [1, 4092] [] (seedFrom 0) 0xFFFFFFFFFFFFFFFE
    let o := seeded cfgA [1, 4092] [] (seedFrom 0) 0xFFFFFFFFFFFFFFFD
    (s.rngValid = true ∧ s.arg 0 ≠ 0 ∧ s.params.dmemSize < s.arg 1 + s.arg 0 * 4) ∧
    (e.rngValid = true ∧ e.arg 0 = 0 ∧ e.rngPos.toNat + 2 * e.arg 0 ≤ 2 ^ 64 - 1) ∧
    (l.rngValid = true ∧ l.arg 1 + l.arg 0 * 4 ≤ l.params.dmemSize ∧ 2 ^ 64 - 1 < l.rngPos.toNat + 2 * l.arg 0) ∧
    (o.rngValid = true ∧ o.arg 1 + o.arg 0 * 4 ≤ o.params.dmemSize ∧
      o.rngPos.toNat + 2 * o.arg 0 ≤ 2 ^ 64 - 1) := by decide

theorem witness_randmatAgrees :
    let s := seeded cfgA [1, 2, 0x100] [] (seedFrom 0) 0
    s.err = false ∧ (after .randmat s).err = false ∧ 1 < s.arg 0 * s.arg 1 := by decide

theorem witness_reduction : 0 < 65521 := by decide

theorem witness_keyMaterial : 0 < cfgB.n ∧ 1 < cfgB.n := by decide

/-- G5; G7; G1 up to the generator; and, for a generator of the word 65536, an element that does not fit. -/
theorem witness_keygen :
    (start cfgB [0, 31, 0x100, 0x140] plan).arg 1 < 32 ∧
    (32 ≤ (start cfgB [0, 32, 0x10, 0x140] plan).arg 1 ∧
      regionsOK cfgB.dmemSize [⟨0, 32⟩, ⟨0x10, pkLen cfgB⟩, ⟨0x140, skLen cfgB⟩] = false) ∧
    (32 ≤ (start cfgB [0, 32, 0x100, 0x140] plan).arg 1 ∧
      regionsOK cfgB.dmemSize [⟨0, 32⟩, ⟨0x100, pkLen cfgB⟩, ⟨0x140, skLen cfgB⟩] = true ∧ cfgB.q ≤ 65536) ∧
    (regionsOK cfgA.dmemSize [⟨0, 32⟩, ⟨0x100, pkLen cfgA⟩, ⟨0x140, skLen cfgA⟩] = true ∧
      65536 ∈ (keygenFn steady cfgA (seedFrom 0)).a) := by decide

/-- In a codec-safe build KEYGEN never ends with `EncodeRange`. -/
theorem keygen_ends (k : Collaborators) (s : State) (hq : s.params.q ≤ 65536) (h32 : 32 ≤ s.arg 1)
    (hr : regionsOK s.params.dmemSize [⟨s.arg 0, s.arg 1⟩, ⟨s.arg 2, pkLen s.params⟩, ⟨s.arg 3, skLen s.params⟩] = true) :
    (s.complete (keygenRule k s)).err = s.err := by
  have h : unpackable ((keygenFn k s.params (s.dmem.readSeed (s.arg 0))).a ++
      (keygenFn k s.params (s.dmem.readSeed (s.arg 0))).b ++ (keygenFn k s.params (s.dmem.readSeed (s.arg 0))).s) =
      false := by
    simp only [unpackable, List.any_eq_false, decide_eq_true_eq]
    intro x hx
    have := keygenFn_lt rfl hx
    omega
  simp only [keygenRule]
  rw [if_neg (by omega), if_neg (by simp [hr]), h]
  rfl

/-- Program P3, lines 4 and 13. -/
theorem witness_keygenSeed :
    let s := start cfgB [0, 32, 0x100, 0x140] plan
    let s' := start cfgB [0, 32, 0x200, 0x240] plan
    s.params = s'.params ∧ s.err = false ∧ s'.err = false ∧
      (∀ j, j < 32 → s.dmem.read (s.arg 0 + j) = s'.dmem.read (s'.arg 0 + j)) ∧
      (after .keygen s).err = false ∧ (after .keygen s').err = false := by
  refine ⟨rfl, rfl, rfl, fun _ _ => rfl, ?_, ?_⟩
  · exact keygen_ends Config.collab (start cfgB [0, 32, 0x100, 0x140] plan) (by decide) (by decide) (by decide)
  · exact keygen_ends Config.collab (start cfgB [0, 32, 0x200, 0x240] plan) (by decide) (by decide) (by decide)

/-- E5's message and the largest one below it. -/
theorem witness_encapsFormula :
    [1, 2, 3, 4].length = cfgB.n * cfgB.n ∧ [5, 6].length = cfgB.n ∧ cfgB.q ≤ leNat [0xF1, 0xFF, 0, 0] ∧
      leNat [0xF0, 0xFF, 0, 0] < cfgB.q := by decide

/-- The memory of program P3 with a public key whose column sums are 65536 and 0 for the samples of `steady`. -/
def wideKey : Memory := plan.writeBytes 0x100 [0xFF, 0xFF, 0, 0, 1, 0, 0, 0]

/-- X1; X4; X5; the message of E5; and the honest arguments of program P3. -/
theorem witness_encaps :
    let bad := start cfgB [0x100, 43, 0x20, 31, 0x40, 0x180, 0x190] plan
    let short := start cfgB [0x100, 44, 0x20, 31, 0x40, 0x180, 0x190] plan
    let s := start cfgB [0x100, 44, 0x20, 32, 0x40, 0x180, 0x190] plan
    bad.arg 1 ≠ pkLen cfgB ∧ (short.arg 1 = pkLen cfgB ∧ short.arg 3 < 32) ∧
    (regionsOK cfgB.dmemSize [⟨0x100, pkLen cfgB⟩, ⟨0x20, 32⟩, ⟨0x40, 4⟩, ⟨0x180, ctLen cfgB⟩, ⟨0x188, 4⟩] = false) ∧
    (cfgB.q ≤ leNat (Memory.readBytes (Memory.writeBytes plan 0x40 [0xF1, 0xFF, 0, 0]) 0x40 4)) ∧
    (s.arg 1 = pkLen cfgB ∧ 32 ≤ s.arg 3 ∧
      regionsOK cfgB.dmemSize [⟨s.arg 0, pkLen cfgB⟩, ⟨s.arg 2, s.arg 3⟩, ⟨s.arg 4, cfgB.seclen⟩,
        ⟨s.arg 5, ctLen cfgB⟩, ⟨s.arg 6, cfgB.seclen⟩] = true ∧
      leNat (s.dmem.readBytes (s.arg 4) cfgB.seclen) < cfgB.q ∧ cfgB.q ≤ 65536) := by decide +kernel

/-- A ciphertext scalar that does not fit, with the honest arguments of program P3. -/
theorem witness_encapsRange :
    (encapsPair steady (start cfgA [0x100, 44, 0x20, 32, 0x40, 0x180, 0x190] wideKey)) = some ⟨[65536, 0], 10752⟩ ∧
      65536 ∈ 10752 :: [65536, 0] := by decide +kernel

/-- For the build's own collaborators ENCAPS has a ciphertext to write on the state of program P3. -/
theorem witness_encapsPair :
    ∃ ct, encapsPair Config.collab (start cfgB [0x100, 44, 0x20, 32, 0x40, 0x180, 0x190] plan) = some ct := by
  refine Option.ne_none_iff_exists'.mp fun h => ?_
  exact absurd (encapsPair_eq_none.mp h) (by decide +kernel)

/-- A public key whose seed field differs in its first byte, for the arguments of program P3. -/
theorem witness_encapsSeedField :
    0x100 + cfgB.n * cfgB.n * 2 + cfgB.n * 2 = 0x10C ∧
      (∀ a, ¬inBytes 0x10C 32 a → (plan.writeBytes 0x10C [0xFF]).read a = plan.read a) ∧
      (plan.writeBytes 0x10C [0xFF]).read 0x10C ≠ plan.read 0x10C := by
  refine ⟨by decide, fun a ha => ?_, by decide +kernel⟩
  refine Memory.read_writeBytes_outside _ _ ?_
  simp only [List.length_singleton]
  omega

/-- W3 and W4. -/
theorem witness_decapsFormula :
    [0, 0].length = cfgB.n ∧ [0x2A, 0, 0, (0 : Byte)].length = cfgB.seclen ∧
      (10837 : Int) = (10837 - 0) % (cfgB.q : Int) ∧ (10837 + cfgB.q / 256 / 2) / (cfgB.q / 256) = leNat [0x2A, 0, 0, 0] ∧
      (10838 : Int) = (10838 - 0) % (cfgB.q : Int) ∧
      (10838 + cfgB.q / 256 / 2) / (cfgB.q / 256) ≠ leNat [0x2A, 0, 0, 0] := by decide

/-- X9; X10; X12; W4; W3. -/
theorem witness_decaps :
    let low := Memory.writeBytes [] 0x184 [0x55, 0x2A, 0x2A, 0, 0, 0]
    let high := Memory.writeBytes [] 0x184 [0x56, 0x2A, 0x2A, 0, 0, 0]
    35 ≠ skLen cfgB ∧ (36 = skLen cfgB ∧ 11 ≠ ctLen cfgB) ∧ 10 = ctLen cfgB ∧
    regionsOK cfgB.dmemSize [⟨0x140, skLen cfgB⟩, ⟨0x180, ctLen cfgB⟩, ⟨0x186, cfgB.seclen⟩] = false ∧
    regionsOK cfgB.dmemSize [⟨0x140, skLen cfgB⟩, ⟨0x180, ctLen cfgB⟩, ⟨0x1A0, cfgB.seclen⟩] = true ∧
    recovered cfgB (unpack (high.readBytes 0x140 36) 2) (unpack (high.readBytes 0x180 10) 2) (high.readLE 0x184 2) ≠
      leNat (high.readBytes 0x186 4) ∧
    recovered cfgB (unpack (low.readBytes 0x140 36) 2) (unpack (low.readBytes 0x180 10) 2) (low.readLE 0x184 2) =
      leNat (low.readBytes 0x186 4) := by decide

/-- The public part of the keys of `steady` in CFG-B. -/
def steadyKeys : KeyMaterial := keygenFn steady cfgB (seedFrom 0)

/-- Noise 2 for the message 42, well inside the window of 127. -/
theorem witness_honestRun :
    [0x2A, 0, 0, (0 : Byte)].length = cfgB.seclen ∧
    encapsFn steady cfgB steadyKeys.a steadyKeys.b (seedFrom 0x20) [0x2A, 0, 0, 0] =
      some ⟨[30, 30], 10772⟩ ∧
    signedErrors steady cfgB.sigma (seedFrom 0) (cfgB.n * cfgB.n + 2 * cfgB.n) cfgB.n = [1, 1] ∧
    signedErrors steady cfgB.sigma (seedFrom 0x20) 0 cfgB.n = [1, 1] ∧
    (List.zipWith (· * ·) [1, 1] [1, 1]).sum = (2 : Int) ∧
    leNat [0x2A, 0, 0, 0] * scale cfgB < cfgB.q ∧ -((scale cfgB / 2 : Nat) : Int) ≤ 2 ∧
    (2 : Int) ≤ (scale cfgB : Int) - ((scale cfgB / 2 : Nat) : Int) - 1 ∧
    (0 : Int) ≤ (leNat [0x2A, 0, 0, 0] * scale cfgB : Nat) + 2 ∧
    ((leNat [0x2A, 0, 0, 0] * scale cfgB : Nat) : Int) + 2 < cfgB.q := by decide +kernel

/-- Fragments of 4 bytes, at most 2 of them. -/
def fourBytes : FragmentParams where
  fragmentSize := 4
  minFragments := 1
  maxFragments := 2
  size_ok := by decide
  max_ok := by decide

/-- Eight bytes fill both fragments, nine do not fit. -/
theorem witness_fragments :
    List.replicate 8 (7 : Byte) ≠ [] ∧ fragmentCount fourBytes (List.replicate 8 (7 : Byte)).length ≤ 2 ∧
      2 < fragmentCount fourBytes (List.replicate 9 (7 : Byte)).length := by decide

theorem witness_tampering :
    let f : Fragment := { index := 0, total := 1, data := [1], hash := digest fixture cfgB [1] }
    f.verify fixture cfgB = true ∧ fixture.hash cfgB.seclen [2] ≠ fixture.hash cfgB.seclen f.data ∧
      reconstructData fixture cfgB [f] = .ok [1] := by decide +kernel

/-- Of two pieces: the first twice, whose digests are right; the first with another digest; the first alone. -/
theorem witness_mismatches :
    let f : Fragment := { index := 0, total := 2, data := [1], hash := digest fixture cfgB [1] }
    let g : Fragment := { index := 1, total := 2, data := [2], hash := digest fixture cfgB [1] }
    mismatches fixture cfgB [f, f] = [.index] ∧ mismatches fixture cfgB [f, g] = [.hash] ∧
      mismatches fixture cfgB [f] = [.count, .index] := by decide +kernel

/-- A public key of `steady` in its container, and the secret key. -/
def steadyPublic : PublicKey cfgB := readExactly _ (publicKeyBytes steadyKeys (seedFrom 0))

/-- The secret key that belongs to it. -/
def steadySecret : SecretKey cfgB := readExactly _ (secretKeyBytes steadyKeys (seedFrom 0))

/-- One component, the least number of `fourBytes`. -/
def onePublic : FragmentedPublicKey fourBytes cfgB := ⟨[steadyPublic], by decide⟩

/-- Its secret key. -/
def oneSecret : FragmentedSecretKey fourBytes cfgB := ⟨[steadySecret], by decide⟩

/-- The ephemeral seed and the message of every component. -/
def sameDraws : Nat → Seed × SecretBytes cfgB := fun _ => (seedFrom 0x20, #v[0x2A, 0, 0, 0])

/-- The secret of the one component is `E3 DF 1C AB` as in row E1. -/
theorem witness_fragmentedKem_component :
    componentEncaps steady cfgB steadyPublic (sameDraws 0).1 (sameDraws 0).2 =
        .ok (#v[30, 0, 30, 0, 0x14, 0x2A, 0x2A, 0, 0, 0], #v[0xE3, 0xDF, 0x1C, 0xAB]) ∧
      componentDecaps steady cfgB steadySecret #v[30, 0, 30, 0, 0x14, 0x2A, 0x2A, 0, 0, 0] =
        .ok #v[0xE3, 0xDF, 0x1C, 0xAB] := by decide +kernel

/-- The combined secret is its hash. -/
theorem witness_fragmentedKem :
    fragmentedEncaps steady cfgB fourBytes onePublic sameDraws =
        .ok (⟨[#v[30, 0, 30, 0, 0x14, 0x2A, 0x2A, 0, 0, 0]], by decide⟩, #v[0x1E, 0x10, 0x91, 0xC2]) ∧
      oneSecret.parts.length = onePublic.parts.length := by decide +kernel

/-- Unequal counts, and numbers of components below and above the bounds. -/
theorem witness_fragmentedKem_bounds :
    (Fragmented.mk (fp := fourBytes) [steadySecret, steadySecret] (by decide)).parts.length ≠
        (Fragmented.mk (fp := fourBytes) [readExactly (ctLen cfgB) []] (by decide)).parts.length ∧
      0 < fourBytes.minFragments ∧ fourBytes.maxFragments < 3 := by decide

theorem witness_platform :
    0 ≠ 1 ∧ [busyCore 0 [], idleCore []][0]? = some (busyCore 0 []) ∧
      step (busyCore 0 []) = .next (State.afterSuccess (busyCore 0 [])) ∧
      [busyCore 0 [], idleCore []][1]? = some (idleCore []) ∧ step (idleCore []) = .next (idleCore []) :=
  ⟨by decide, rfl, rfl, rfl, rfl⟩

end Sys2Proof.Tests
end

section
/-! What the rules of the commands leave unchanged, said once for all sixteen, and the invariant of the core. -/

namespace Sys2Proof.Machine

/-! ### Frames of the rules -/

theorem sameHostSide_refl (s : State) : sameHostSide s s := ⟨rfl, rfl, rfl, rfl, rfl⟩

theorem sameRng_refl (s : State) : sameRng s s := ⟨rfl, rfl, rfl⟩

theorem ruleOf_sameHostSide {i : Instr} {s u : State} (h : ruleOf i s = .ok u) : sameHostSide s u := by
  rw [ruleOf_writes h]
  exact ⟨rfl, rfl, rfl, rfl, rfl⟩

theorem ruleOf_err {i : Instr} {s u : State} (h : ruleOf i s = .ok u) : u.err = s.err := by
  rw [ruleOf_writes h]

theorem ruleOf_errcode {i : Instr} {s u : State} (h : ruleOf i s = .ok u) : u.errcode = s.errcode := by
  rw [ruleOf_writes h]

theorem exec_sameHostSide {i : Instr} {s t : State} (h : exec i s = .next t) : sameHostSide s t := by
  obtain ⟨u, hr, rfl⟩ | ⟨e, -, rfl⟩ := exec_cases h
  · have hu := ruleOf_sameHostSide hr
    exact hu
  · exact sameHostSide_refl s

/-- What a rule does with the RNG context: nothing, RNGSEED's new context, RNGCLR's cleared one, or an advance within
a valid context (R33, R174, R183, R184). -/
theorem ruleOf_rng {i : Instr} {s u : State} (h : ruleOf i s = .ok u) :
    sameRng s u ∨ (i = .rngseed ∧ u.rngValid = true) ∨
      (i = .rngclr ∧ u.rngSeed = Vector.replicate 32 0 ∧ u.rngPos = 0) ∨
      (i ∈ [Instr.sampleu, .sampleg, .randmat, .randerr] ∧ s.rngValid = true ∧ u.rngValid = s.rngValid ∧
        u.rngSeed = s.rngSeed) := by
  cases i with
  | nop => cases h; exact .inl (sameRng_refl s)
  | modadd | modsub | modmul => obtain ⟨-, -, rfl⟩ := modRule_ok_iff.mp h; exact .inl (sameRng_refl s)
  | encode => obtain ⟨-, -, rfl⟩ := encodeRule_ok h; exact .inl (sameRng_refl s)
  | decode => obtain ⟨-, -, rfl⟩ := decodeRule_ok h; exact .inl (sameRng_refl s)
  | rngseed => obtain ⟨-, -, rfl⟩ := rngseedRule_ok h; exact .inr (.inl ⟨rfl, rfl⟩)
  | rngclr => cases h; exact .inr (.inr (.inl ⟨rfl, rfl, rfl⟩))
  | sampleu => obtain ⟨hv, -, rfl⟩ := sampleuRule_ok h; simp [hv]
  | sampleg => obtain ⟨hv, -, rfl⟩ := samplegRule_ok h; simp [hv]
  | randmat => obtain ⟨hv, -, -, rfl⟩ := randmatRule_ok h; simp [hv]
  | randerr => obtain ⟨hv, -, -, rfl⟩ := randerrRule_ok h; simp [hv]
  | keygen => obtain ⟨-, -, m, -, -, rfl⟩ := keygenRule_ok h; exact .inl (sameRng_refl s)
  | encaps => obtain ⟨-, -, -, ct, -, -, rfl⟩ := encapsRule_ok h; exact .inl (sameRng_refl s)
  | decaps => obtain ⟨-, -, -, ss, -, -, rfl⟩ := decapsRule_ok h; exact .inl (sameRng_refl s)
  | zeroize => obtain ⟨-, rfl⟩ := zeroizeRule_ok h; exact .inl (sameRng_refl s)

/-! ### DMEM stays canonical and inside its size -/

/-- A memory in canonical form that holds no byte outside a DMEM of the given size: the first two clauses of
`State.Inv`. -/
def Memory.Sound (m : Memory) (size : Nat) : Prop := m.wf ∧ m.within size

/-- A store into a region that the check of R67 found in range keeps a memory sound. -/
theorem Memory.Sound.writeBytes {m : Memory} {size a len : Nat} {bs : List Byte} (h : m.Sound size)
    (hlen : bs.length = len) (hr : len = 0 ∨ a + len ≤ size) : (m.writeBytes a bs).Sound size := by
  refine ⟨Memory.wf_writeBytes h.1 a bs, Memory.within_writeBytes h.2 bs ?_⟩
  subst hlen
  exact hr.imp_left List.eq_nil_of_length_eq_zero

/-- Every rule stores only into regions that it has checked (R68). -/
theorem ruleOf_sound {i : Instr} {s u : State} (h : ruleOf i s = .ok u) (hm : s.dmem.Sound s.params.dmemSize) :
    u.dmem.Sound s.params.dmemSize := by
  cases i with
  | nop => cases h; exact hm
  | modadd | modsub | modmul => obtain ⟨-, -, rfl⟩ := modRule_ok_iff.mp h; exact hm
  | encode =>
    obtain ⟨hreg, -, rfl⟩ := encodeRule_ok h
    exact hm.writeBytes (by simp) (regionsOK_inRange hreg (r := ⟨s.arg 3, s.arg 1 * s.arg 2 * 2⟩) (by simp))
  | decode =>
    obtain ⟨-, hreg, rfl⟩ := decodeRule_ok h
    exact hm.writeBytes (by simp) (regionsOK_inRange hreg (r := ⟨s.arg 4, s.arg 2 * s.arg 3 * 4⟩) (by simp))
  | rngseed => obtain ⟨-, -, rfl⟩ := rngseedRule_ok h; exact hm
  | rngclr => cases h; exact hm
  | sampleu => obtain ⟨-, -, rfl⟩ := sampleuRule_ok h; exact hm
  | sampleg => obtain ⟨-, -, rfl⟩ := samplegRule_ok h; exact hm
  | randmat =>
    obtain ⟨-, hreg, -, rfl⟩ := randmatRule_ok h
    exact hm.writeBytes (by simp) (regionsOK_single.mp hreg)
  | randerr =>
    obtain ⟨-, hreg, -, rfl⟩ := randerrRule_ok h
    exact hm.writeBytes (by simp) (regionsOK_single.mp hreg)
  | keygen =>
    obtain ⟨-, hreg, m, rfl, -, rfl⟩ := keygenRule_ok h
    have hpk := regionsOK_inRange hreg (r := ⟨s.arg 2, pkLen s.params⟩) (by simp)
    have hsk := regionsOK_inRange hreg (r := ⟨s.arg 3, skLen s.params⟩) (by simp)
    exact (hm.writeBytes (length_publicKeyBytes _ _ _ _) hpk).writeBytes (length_secretKeyBytes _ _ _ _) hsk
  | encaps =>
    obtain ⟨-, -, hreg, ct, hct, -, rfl⟩ := encapsRule_ok h
    have hctdst := regionsOK_inRange hreg (r := ⟨s.arg 5, ctLen s.params⟩) (by simp)
    have hssdst := regionsOK_inRange hreg (r := ⟨s.arg 6, s.params.seclen⟩) (by simp)
    have hlen := length_ciphertextBytes hct (s.dmem.readBytes (s.arg 4) s.params.seclen) (by simp)
    exact (hm.writeBytes hlen hctdst).writeBytes (length_digest _ _ _) hssdst
  | decaps =>
    obtain ⟨-, -, hreg, ss, -, hss, rfl⟩ := decapsRule_ok h
    exact hm.writeBytes hss (regionsOK_inRange hreg (r := ⟨s.arg 4, s.params.seclen⟩) (by simp))
  | zeroize =>
    obtain ⟨hreg, rfl⟩ := zeroizeRule_ok h
    exact hm.writeBytes (by simp) (regionsOK_single.mp hreg)

/-! ### The invariant -/

theorem State.Inv.sound {s : State} (h : s.Inv) : s.dmem.Sound s.params.dmemSize := ⟨h.memWf, h.memWithin⟩

/-- The invariant reads neither the command latch, the argument registers, RES0 nor the model's own fields. -/
theorem State.Inv.congr {s t : State} (h : s.Inv)
    (ht : t = { s with cmd := t.cmd, args := t.args, res0 := t.res0, events := t.events, replies := t.replies }) :
    t.Inv := by
  rw [ht]
  exact ⟨h.memWf, h.memWithin, h.notBusyAndDone, h.errDone, h.codeOfNoError, h.codeOfError, h.noContext⟩

theorem State.Inv.setDmem {s : State} (h : s.Inv) {m : Memory} (hm : m.Sound s.params.dmemSize) :
    (s.setDmem m).Inv :=
  ⟨hm.1, hm.2, h.notBusyAndDone, h.errDone, h.codeOfNoError, h.codeOfError, h.noContext⟩

theorem State.Inv.issue {s : State} (h : s.Inv) (w : Word) : (s.issue w).Inv where
  memWf := h.memWf
  memWithin := h.memWithin
  notBusyAndDone := by simp
  errDone := by simp
  codeOfNoError := by simp
  codeOfError := by simp
  noContext := h.noContext

/-- Completion with an error keeps the invariant, for the codes that commands produce (R306). -/
theorem State.Inv.afterError {s : State} (h : s.Inv) {code : Byte} (hc : code ∈ producedCodes) :
    (s.afterError code).Inv where
  memWf := h.memWf
  memWithin := h.memWithin
  notBusyAndDone := by simp
  errDone := by simp
  codeOfNoError := by simp
  codeOfError := fun _ => hc
  noContext := h.noContext

/-- Only `FragmentationError` has a code that no command produces (R274, R301). -/
theorem ErrorKind.code_mem_producedCodes {e : ErrorKind} (h : e ≠ .fragmentationError) :
    e.code ∈ producedCodes := by
  revert h
  cases e <;> decide

/-- The clause of the invariant about the RNG context survives every rule. -/
theorem ruleOf_noContext {i : Instr} {s u : State} (h : ruleOf i s = .ok u) (hi : s.Inv)
    (hv : u.rngValid = false) : u.rngSeed = Vector.replicate 32 0 ∧ u.rngPos = 0 := by
  obtain ⟨hvalid, hseed, hpos⟩ | ⟨-, hset⟩ | ⟨-, hclr⟩ | ⟨-, hset, hkeep, -⟩ := ruleOf_rng h
  · rw [hseed, hpos]; exact hi.noContext (hvalid ▸ hv)
  · simp [hset] at hv
  · exact hclr
  · simp [hkeep, hset] at hv

/-- Every command keeps the invariant. -/
theorem exec_keeps_inv {i : Instr} {s t : State} (hi : s.Inv) (h : exec i s = .next t) : t.Inv := by
  obtain ⟨u, hr, rfl⟩ | ⟨e, hr, rfl⟩ := exec_cases h
  · have hm := ruleOf_sound hr hi.sound
    have hrng := ruleOf_noContext hr hi
    obtain ⟨-, -, hp, -, -⟩ := ruleOf_sameHostSide hr
    exact
      { memWf := hm.1
        memWithin := by simpa [hp] using hm.2
        notBusyAndDone := by simp
        errDone := by simp
        codeOfNoError := by simpa [ruleOf_err hr, ruleOf_errcode hr] using hi.codeOfNoError
        codeOfError := by simpa [ruleOf_err hr, ruleOf_errcode hr] using hi.codeOfError
        noContext := hrng }
  · exact hi.afterError (ErrorKind.code_mem_producedCodes (ruleOf_error hr).1)

theorem completion_keeps_inv {s t : State} (hi : s.Inv) (h : completion s = .next t) : t.Inv := by
  obtain ⟨i, -, h⟩ | ⟨-, rfl⟩ := completion_cases h
  · exact exec_keeps_inv hi h
  · exact hi.afterError (by decide)

/-- A host write of a register issues a command or touches the argument registers at most (R21, R25). -/
theorem State.regWrite_cases (s : State) (i : Fin 64) (v : Word) :
    s.regWrite i v = s.issue v ∨ s.regWrite i v = { s with args := (s.regWrite i v).args } := by
  unfold State.regWrite
  split
  · exact .inl rfl
  · split
    · exact .inr rfl
    · exact .inr rfl

theorem State.Inv.regWrite {s : State} (h : s.Inv) (i : Fin 64) (v : Word) : (s.regWrite i v).Inv := by
  obtain hw | hw := s.regWrite_cases i v
  · rw [hw]; exact h.issue v
  · rw [hw]; exact h.congr rfl

/-- The reset values meet the invariant, whatever the parameters, the moves to come and the replies (R39). -/
theorem inv_reset (p : Params) (moves : List Event) (replies : List Word) :
    State.Inv { State.reset with params := p, events := moves, replies := replies } where
  memWf := Memory.wf_nil
  memWithin := List.forall_mem_nil _
  notBusyAndDone := by simp [State.reset]
  errDone := by simp [State.reset]
  codeOfNoError := fun _ => rfl
  codeOfError := by simp [State.reset]
  noContext := fun _ => ⟨rfl, rfl⟩

/-- Settles O18: by the move the step takes; the completion of a command is the one that stores and raises errors. -/
theorem everyStepKeepsTheInvariant : Obligations.EveryStepKeepsTheInvariant := by
  intro s t hs h
  obtain ⟨ev, u, hu, hmove⟩ := step_cases h
  have hi : u.Inv := hs.congr (by subst hu; rfl)
  obtain ⟨-, hc⟩ | rfl | ⟨i, rfl⟩ | ⟨i, v, -, rfl⟩ | ⟨a, w, rfl⟩ | ⟨a, n, v, hr, rfl⟩ | rfl := hmove
  · exact completion_keeps_inv hi hc
  · exact hi
  · exact hi.congr rfl
  · exact hi.regWrite i v
  · exact hi.congr rfl
  · exact hi.setDmem (hi.sound.writeBytes (length_leBytes v n) (.inr hr))
  · exact inv_reset _ _ _

/-- Settles O17: the reset values themselves, for every parameter set and list of moves. -/
theorem invariantHoldsAtReset : Obligations.InvariantHoldsAtReset :=
  ⟨inv_reset State.reset.params State.reset.events State.reset.replies, fun p moves => inv_reset p moves []⟩

/-! ### Parameters, latch and argument registers, RNG context, RES0 -/

theorem completion_params {s t : State} (h : completion s = .next t) : t.params = s.params := by
  obtain ⟨i, -, h⟩ | ⟨-, rfl⟩ := completion_cases h
  · obtain ⟨-, -, hp, -, -⟩ := exec_sameHostSide h
    exact hp
  · rfl

theorem State.regWrite_params (s : State) (i : Fin 64) (v : Word) : (s.regWrite i v).params = s.params := by
  obtain hw | hw := s.regWrite_cases i v
  · rw [hw]; rfl
  · rw [hw]

/-- Settles O19: by the move the step takes; no move writes the parameter set. -/
theorem noStepChangesAParameter : Obligations.NoStepChangesAParameter := by
  intro s t h
  obtain ⟨ev, u, hu, hmove⟩ := step_cases h
  have hp : u.params = s.params := by rw [hu]
  rw [← hp]
  obtain ⟨-, hc⟩ | rfl | ⟨i, rfl⟩ | ⟨i, v, -, rfl⟩ | ⟨a, w, rfl⟩ | ⟨a, n, v, -, rfl⟩ | rfl := hmove
  · exact completion_params hc
  · rfl
  · rfl
  · exact State.regWrite_params u i v
  · rfl
  · rfl
  · rfl

/-- Settles O21: the host's side is outside what any rule writes, and an error writes STATUS alone. -/
theorem noCommandWritesArgumentsOrLatch : Obligations.NoCommandWritesArgumentsOrLatch :=
  fun _ _ _ => exec_sameHostSide

/-- Settles O24: by what the command's rule does with the RNG context. -/
theorem onlySamplerCommandsTouchTheRngContext : Obligations.OnlySamplerCommandsTouchTheRngContext := by
  intro i s t h hseed hclr
  obtain ⟨u, hr, rfl⟩ | ⟨e, -, rfl⟩ := exec_cases h
  · obtain ⟨hv, hsd, hp⟩ | ⟨hi, -⟩ | ⟨hi, -⟩ | ⟨hi, -, hv, hsd⟩ := ruleOf_rng hr
    · exact ⟨hv, hsd, fun _ _ _ _ => hp⟩
    · exact absurd hi hseed
    · exact absurd hi hclr
    · refine ⟨hv, hsd, fun hu hg hm he => ?_⟩
      simp [hu, hg, hm, he] at hi
  · exact ⟨rfl, rfl, fun _ _ _ _ => rfl⟩

/-- The commands that write RES0 (R22). -/
def resultCommands : List Instr := [.modadd, .modsub, .modmul, .sampleu, .sampleg, .encode, .decode]

/-- The rule of a command that is not on the list of R22 keeps RES0. -/
theorem ruleOf_res0 {i : Instr} {s u : State} (h : ruleOf i s = .ok u) (hi : i ∉ resultCommands) :
    u.res0 = s.res0 := by
  cases i with
  | nop => cases h; rfl
  | modadd | modsub | modmul | sampleu | sampleg | encode | decode => exact absurd (by decide) hi
  | rngseed => obtain ⟨-, -, rfl⟩ := rngseedRule_ok h; rfl
  | rngclr => cases h; rfl
  | randmat => obtain ⟨-, -, -, rfl⟩ := randmatRule_ok h; rfl
  | randerr => obtain ⟨-, -, -, rfl⟩ := randerrRule_ok h; rfl
  | keygen => obtain ⟨-, -, m, -, -, rfl⟩ := keygenRule_ok h; rfl
  | encaps => obtain ⟨-, -, -, ct, -, -, rfl⟩ := encapsRule_ok h; rfl
  | decaps => obtain ⟨-, -, -, ss, -, -, rfl⟩ := decapsRule_ok h; rfl
  | zeroize => obtain ⟨-, rfl⟩ := zeroizeRule_ok h; rfl

/-- Settles O25: the rules off the list keep RES0, and an error writes STATUS alone. -/
theorem onlyListedCommandsWriteTheResultRegister : Obligations.OnlyListedCommandsWriteTheResultRegister := by
  intro i s t h hadd hsub hmul hu hg henc hdec
  obtain ⟨u, hr, rfl⟩ | ⟨e, -, rfl⟩ := exec_cases h
  · have hres := ruleOf_res0 hr (by simp [resultCommands, hadd, hsub, hmul, hu, hg, henc, hdec])
    exact hres
  · rfl

end Sys2Proof.Machine
end

section
/-! What the host reads and writes in the register space, and the reset values. -/

namespace Sys2Proof.Machine

/-! ### One host access -/

/-- A read that is not refused returns the register and changes nothing but the model's own fields. -/
theorem step_regRead {s : State} {i : Fin 64} {rest : List Event} (hev : s.events = .regRead i :: rest)
    (hopen : (s.busy && guardedIndex i) = false) :
    step s = .next { s with events := rest, replies := s.regRead i :: s.replies } := by
  simp only [step, hev, hostRegRead, hopen]
  rfl

/-- A read of a register that is not guarded is answered at any time (R70). -/
theorem step_regRead_of_unguarded {s : State} {i : Fin 64} {rest : List Event}
    (hev : s.events = .regRead i :: rest) (hi : guardedIndex i = false) :
    step s = .next { s with events := rest, replies := s.regRead i :: s.replies } :=
  step_regRead hev (by simp [hi])

/-- A read while BUSY = 0 is answered for every register. -/
theorem step_regRead_of_idle {s : State} {i : Fin 64} {rest : List Event}
    (hev : s.events = .regRead i :: rest) (hb : s.busy = false) :
    step s = .next { s with events := rest, replies := s.regRead i :: s.replies } :=
  step_regRead hev (by simp [hb])

/-- A write while BUSY = 0 is taken. -/
theorem step_regWrite_of_idle {s : State} {i : Fin 64} {v : Word} {rest : List Event}
    (hev : s.events = .regWrite i v :: rest) (hb : s.busy = false) :
    step s = .next (State.regWrite { s with events := rest } i v) := by
  simp [step, hev, hostRegWrite, hb]

theorem guardedIndex_eq_false {i : Fin 64} :
    guardedIndex i = false ↔ (i.val < 4 ∨ 12 < i.val) ∧ i.val ≠ 14 ∧ i.val ≠ 15 := by
  simp only [guardedIndex, Bool.or_eq_false_iff, Bool.and_eq_false_iff, decide_eq_false_iff_not]
  omega

/-! ### The registers one by one -/

theorem State.regRead_argIndex (s : State) (k : Fin 8) : s.regRead (argIndex k) = s.args[k] := by
  fin_cases k <;> rfl

/-- A reserved index reads 0 (R31). -/
theorem State.regRead_reserved (s : State) {i : Fin 64} (hi : i.val = 0x0D ∨ 0x16 ≤ i.val) : s.regRead i = 0 := by
  unfold State.regRead
  split
  -- the last branch is the one for reserved indices; the others name an index that `hi` excludes
  case h_22 => rfl
  all_goals omega

/-- A write of ARGk sets that register alone (R21). -/
theorem State.regWrite_argIndex (s : State) (k : Fin 8) (v : Word) :
    s.regWrite (argIndex k) v = { s with args := s.args.set k v } := by
  have hcmd : 4 + k.val ≠ 2 := by omega
  have harg : 4 + k.val < 12 := by omega
  simp [State.regWrite, argIndex, hcmd, harg]

/-- A read-only or reserved index ignores a write (R22, R31). -/
theorem State.regWrite_ignored (s : State) {i : Fin 64} (v : Word) (hcmd : i.val ≠ 2)
    (harg : ¬(4 ≤ i.val ∧ i.val ≤ 11)) : s.regWrite i v = s := by
  have harg' : ¬(4 ≤ i.val ∧ i.val < 12) := by omega
  rw [State.regWrite, if_neg hcmd, dif_neg harg']

/-! ### STATUS -/

@[simp] theorem flagBit_toNat (b : Bool) : (flagBit b).toNat = b.toNat := by cases b <;> rfl

/-- A concatenation as a number: the low part below the high part. -/
theorem toNat_append_eq_add {m n : Nat} (x : BitVec m) (y : BitVec n) :
    (x ++ y).toNat = 2 ^ n * x.toNat + y.toNat := by
  rw [BitVec.toNat_append, ← Nat.shiftLeft_add_eq_or_of_lt y.isLt, Nat.shiftLeft_eq, Nat.mul_comm]

/-- STATUS as a number (R26). -/
theorem State.statusWord_toNat (s : State) : s.statusWord.toNat =
    s.busy.toNat + 2 * s.done.toNat + 4 * s.err.toNat + 8 * s.rngValid.toNat + 256 * s.errcode.toNat := by
  simp only [State.statusWord, toNat_append_eq_add, flagBit_toNat, BitVec.toNat_ofNat, Nat.zero_mod]
  omega

/-- The reserved bits 7:4 and 31:16 of STATUS are 0 (R26). -/
theorem State.statusWord_reserved (s : State) {j : Nat} (hj : (4 ≤ j ∧ j ≤ 7) ∨ 16 ≤ j) :
    s.statusWord.getLsbD j = false := by
  simp only [State.statusWord, BitVec.getLsbD_append]
  rcases hj with ⟨hlo, hhi⟩ | hlo
  · rw [if_neg (by omega), if_neg (by omega), if_neg (by omega), if_neg (by omega), if_pos (by omega)]
    exact BitVec.getLsbD_zero
  · rw [if_neg (by omega), if_neg (by omega), if_neg (by omega), if_neg (by omega), if_neg (by omega),
      if_neg (by omega)]
    exact BitVec.getLsbD_zero

/-- Settles O8: STATUS is not guarded, and its value is the sum of its fields. -/
theorem statusReadsItsFields : Obligations.StatusReadsItsFields :=
  fun s _ hev => ⟨s.statusWord, step_regRead_of_unguarded hev rfl, s.statusWord_toNat⟩

/-! ### Parameters, identification, RNG position -/

/-- PARAM_SECLEN reads SECLEN where 32 bits hold it (R30). -/
theorem seclenWord_toNat {p : Params} (h : p.seclen < 2 ^ 32) : (seclenWord p).toNat = p.seclen := by
  rw [seclenWord, if_pos h]
  exact Nat.mod_eq_of_lt h

/-- Settles O10: the six indices are not guarded, and the bounds of R6 and R7 make each value fit its register. -/
theorem parameterRegistersReadTheParameters : Obligations.ParameterRegistersReadTheParameters := by
  intro s i rest hev hlo hhi
  have hn := s.params.n_bounds.2
  have hq := s.params.q_bounds.2
  have hd := s.params.dmemSize_lt
  have hsig := s.params.sigma.isLt
  refine ⟨s.regRead i, step_regRead_of_unguarded hev (guardedIndex_eq_false.mpr (by omega)), ?_, ?_, ?_, ?_, ?_, ?_⟩
  · intro hi
    obtain rfl : i = 0x10 := Fin.ext hi
    exact Nat.mod_eq_of_lt (by omega)
  · intro hi
    obtain rfl : i = 0x11 := Fin.ext hi
    exact Nat.mod_eq_of_lt hq
  · intro hi hs
    obtain rfl : i = 0x12 := Fin.ext hi
    exact seclenWord_toNat hs
  · intro hi
    obtain rfl : i = 0x13 := Fin.ext hi
    exact BitVec.extractLsb'_toNat 0 32 s.params.sigma
  · intro hi
    obtain rfl : i = 0x14 := Fin.ext hi
    show (s.params.sigma.extractLsb' 32 32).toNat = _
    rw [BitVec.extractLsb'_toNat, Nat.shiftRight_eq_div_pow]
    omega
  · intro hi
    obtain rfl : i = 0x15 := Fin.ext hi
    exact Nat.mod_eq_of_lt hd

/-- Settles O9: neither index is guarded. -/
theorem identificationRegistersReadTheirConstants : Obligations.IdentificationRegistersReadTheirConstants :=
  fun _ _ => ⟨fun hev => step_regRead_of_unguarded hev rfl, fun hev => step_regRead_of_unguarded hev rfl⟩

/-- The position the host sees, as a number (R34). -/
theorem State.visiblePos_toNat (s : State) : s.visiblePos.toNat = if s.rngValid then s.rngPos.toNat else 0 := by
  unfold State.visiblePos
  split <;> rfl

/-- Settles O11: the two reads are the halves of the visible position. -/
theorem rngPositionReadsInTwoHalves : Obligations.RngPositionReadsInTwoHalves := by
  intro s rest hb
  refine ⟨fun hev => ⟨s.regRead 0x0E, step_regRead_of_idle hev hb, ?_⟩,
    fun hev => ⟨s.regRead 0x0F, step_regRead_of_idle hev hb, ?_⟩⟩
  · show (s.visiblePos.extractLsb' 0 32).toNat = _
    rw [BitVec.extractLsb'_toNat, s.visiblePos_toNat]
    split <;> rfl
  · have hpos := s.rngPos.isLt
    show (s.visiblePos.extractLsb' 32 32).toNat = _
    rw [BitVec.extractLsb'_toNat, s.visiblePos_toNat, Nat.shiftRight_eq_div_pow]
    split <;> omega

/-! ### Argument registers and reserved registers -/

/-- Settles O6: a write of ARGk sets that one register, and every read returns its register. -/
theorem hostWritesAndReadsArgumentRegisters : Obligations.HostWritesAndReadsArgumentRegisters := by
  refine ⟨fun s k rest hb => ⟨fun v hev => ?_, fun hev => ?_, fun hev => step_regRead_of_idle hev hb⟩,
    fun s rest hev => step_regRead_of_unguarded hev rfl⟩
  · rw [step_regWrite_of_idle hev hb, State.regWrite_argIndex]
    refine ⟨_, rfl, rfl, by simp, fun j hj => ?_⟩
    have hne : k.val ≠ j.val := fun h => hj (Fin.ext h.symm)
    exact Vector.getElem_set_ne k.isLt j.isLt hne
  · rw [step_regRead_of_idle hev hb, State.regRead_argIndex]

/-- Settles O7: reserved registers and bits are 0 in every state, and `State.regWrite` ignores the other indices. -/
theorem reservedRegistersReadZeroAndIgnoreWrites : Obligations.ReservedRegistersReadZeroAndIgnoreWrites := by
  refine ⟨fun s i rest hi hev => ?_, fun s j => s.statusWord_reserved, fun s i v rest hb hcmd harg hev => ?_⟩
  · have hopen : guardedIndex i = false := guardedIndex_eq_false.mpr (by omega)
    rw [step_regRead_of_unguarded hev hopen, s.regRead_reserved hi]
  · rw [step_regWrite_of_idle hev hb, State.regWrite_ignored _ v hcmd harg]

/-! ### Reset -/

/-- Settles O15: by the definition of the reset state; the arrays of registers and seed bytes are replicated zeros. -/
theorem resetStateHoldsTheResetValues : Obligations.ResetStateHoldsTheResetValues := by
  have hargs : ∀ k : Fin 8, State.reset.args[k] = 0 := fun k => Vector.getElem_replicate k.isLt
  have hseed : ∀ k : Fin 32, State.reset.rngSeed[k] = 0 := fun k => Vector.getElem_replicate k.isLt
  exact ⟨rfl, rfl, rfl, rfl, rfl, hargs, rfl, rfl, hseed, rfl, fun _ => rfl, rfl, rfl⟩

end Sys2Proof.Machine
end

section
/-! A command reads the argument registers its row of R96 names and no other (R21). -/

namespace Sys2Proof.Machine

/-- The state with one argument register replaced. -/
def State.setArg (s : State) (k : Fin 8) (v : Word) : State := { s with args := s.args.set k v }

@[simp] theorem State.setArg_params (s : State) (k : Fin 8) (v : Word) : (s.setArg k v).params = s.params := rfl
@[simp] theorem State.setArg_dmem (s : State) (k : Fin 8) (v : Word) : (s.setArg k v).dmem = s.dmem := rfl

theorem State.arg_setArg_of_ne (s : State) {j k : Fin 8} (v : Word) (h : j ≠ k) : (s.setArg k v).arg j = s.arg j := by
  have hne : k.val ≠ j.val := fun hv => h (Fin.ext hv.symm)
  exact congrArg BitVec.toNat (Vector.getElem_set_ne k.isLt j.isLt hne)

/-- A rule does the same with an argument register replaced that its row does not name. -/
theorem ruleOf_setArg {i : Instr} {k : Fin 8} (hk : i.arity ≤ k.val) (s : State) (v : Word) :
    ruleOf i (s.setArg k v) = (ruleOf i s).map fun u => u.setArg k v := by
  have harg : ∀ j : Fin 8, j.val < i.arity → (s.setArg k v).arg j = s.arg j :=
    fun j hj => s.arg_setArg_of_ne v fun h => by subst h; omega
  cases i with
  | nop | rngclr => rfl
  | modadd | modsub | modmul =>
    simp (disch := decide) only [ruleOf, modRule, harg, apply_ite (Except.map _)]
    rfl
  | encode | decode | zeroize =>
    simp (disch := decide) only [ruleOf, encodeRule, decodeRule, zeroizeRule, harg, apply_ite (Except.map _)]
    rfl
  | rngseed | sampleu | sampleg | randmat | randerr =>
    simp (disch := decide) only [ruleOf, rngseedRule, sampleuRule, samplegRule, randmatRule, randerrRule, harg,
      apply_ite (Except.map _)]
    rfl
  | keygen =>
    simp (disch := decide) only [ruleOf, keygenRule, harg, apply_ite (Except.map _)]
    rfl
  | encaps =>
    simp (disch := decide) only [ruleOf, encapsRule, harg, State.setArg_params, State.setArg_dmem,
      apply_ite (Except.map _)]
    cases encapsFn Config.collab s.params _ _ _ _ with
    | none => rfl
    | some ct =>
      simp only [apply_ite (Except.map _)]
      rfl
  | decaps =>
    simp (disch := decide) only [ruleOf, decapsRule, harg, State.setArg_params, State.setArg_dmem,
      apply_ite (Except.map _)]
    cases decapsFn Config.collab s.params _ _ _ _ with
    | none => rfl
    | some ss => rfl

/-- Completion commutes with replacing an argument register. -/
theorem State.complete_setArg (s : State) (r : Except ErrorKind State) (k : Fin 8) (v : Word) :
    (s.setArg k v).complete (r.map fun u => u.setArg k v) = (s.complete r).setArg k v := by
  cases r <;> rfl

/-- Settles O23: the rule and the completion commute with the write of a register the row does not name. -/
theorem unnamedArgumentsAreIgnored : Obligations.UnnamedArgumentsAreIgnored := by
  intro i s t k v hk h
  rw [exec_next_iff] at h
  subst h
  show exec i (s.setArg k v) = .next ((s.complete (ruleOf i s)).setArg k v)
  rw [exec_eq, ruleOf_setArg hk, State.complete_setArg]

end Sys2Proof.Machine
end

section
/-! Memory: host accesses to DMEM and what is refused while BUSY = 1, the meaning of the region check, and which bytes
the commands leave unchanged. -/

namespace Sys2Proof.Machine

/-! ### Refused while BUSY = 1 (R71) -/

theorem guardedIndex_argIndex (k : Fin 8) : guardedIndex (argIndex k) = true := by
  revert k
  decide

theorem step_regRead_of_busy {s : State} {i : Fin 64} {rest : List Event} (hb : s.busy = true)
    (hev : s.events = .regRead i :: rest) (hi : guardedIndex i = true) :
    step s = .refused .hostAccessWhileBusy := by
  simp [step, hev, hostRegRead, hb, hi]

theorem step_regWrite_of_busy {s : State} {i : Fin 64} {v : Word} {rest : List Event} (hb : s.busy = true)
    (hev : s.events = .regWrite i v :: rest) (hi : i.val = 2 ∨ guardedIndex i = true) :
    step s = .refused .hostAccessWhileBusy := by
  simp [step, hev, hostRegWrite, hb, hi]

theorem step_dmemRead_of_busy {s : State} {a : Nat} {w : Width} {rest : List Event} (hb : s.busy = true)
    (hev : s.events = .dmemRead a w :: rest) : step s = .refused .hostAccessWhileBusy := by
  simp [step, hev, hostDmemRead, hb]

theorem step_dmemWrite_of_busy {s : State} {a : Nat} {w : Width} {v : Word} {rest : List Event} (hb : s.busy = true)
    (hev : s.events = .dmemWrite a w v :: rest) : step s = .refused .hostAccessWhileBusy := by
  simp [step, hev, hostDmemWrite, hb]

/-- Settles O12: CMD and the guarded registers by their indices, DMEM at every address. -/
theorem accessesWhileBusyAreRefused : Obligations.AccessesWhileBusyAreRefused := by
  intro s rest hb
  refine ⟨fun w hev => step_regWrite_of_busy hb hev (.inl rfl),
    fun k v hev => step_regWrite_of_busy hb hev (.inr (guardedIndex_argIndex k)),
    fun k hev => step_regRead_of_busy hb hev (guardedIndex_argIndex k),
    fun i hi hev => step_regRead_of_busy hb hev ?_,
    fun a w hev => step_dmemRead_of_busy hb hev, fun a w v hev => step_dmemWrite_of_busy hb hev⟩
  rcases hi with hi | hi | hi <;> simp [guardedIndex, hi]

/-! ### Host accesses to DMEM (R65) -/

theorem step_dmemRead_of_idle {s : State} {a : Nat} {w : Width} {rest : List Event} (hb : s.busy = false)
    (ha : a + w.bytes ≤ s.params.dmemSize) (hev : s.events = .dmemRead a w :: rest) :
    step s = .next { s with
      events := rest, replies := BitVec.ofNat 32 (s.dmem.readLE a w.bytes) :: s.replies } := by
  simp only [step, hev, hostDmemRead, hb, Nat.not_lt.mpr ha]
  rfl

theorem step_dmemWrite_of_idle {s : State} {a : Nat} {w : Width} {v : Word} {rest : List Event} (hb : s.busy = false)
    (ha : a + w.bytes ≤ s.params.dmemSize) (hev : s.events = .dmemWrite a w v :: rest) :
    step s = .next { s with events := rest, dmem := s.dmem.writeLE a w.bytes v.toNat } := by
  simp only [step, hev, hostDmemWrite, hb, Nat.not_lt.mpr ha]
  rfl

theorem step_dmemRead_outside {s : State} {a : Nat} {w : Width} {rest : List Event} (hb : s.busy = false)
    (ha : s.params.dmemSize < a + w.bytes) (hev : s.events = .dmemRead a w :: rest) :
    step s = .refused .dmemOutOfRange := by
  simp [step, hev, hostDmemRead, hb, ha]

theorem step_dmemWrite_outside {s : State} {a : Nat} {w : Width} {v : Word} {rest : List Event} (hb : s.busy = false)
    (ha : s.params.dmemSize < a + w.bytes) (hev : s.events = .dmemWrite a w v :: rest) :
    step s = .refused .dmemOutOfRange := by
  simp [step, hev, hostDmemWrite, hb, ha]

/-- `MemRead` is the sum of its bytes by place (R11, R61). -/
theorem Memory.readLE_eq_sum (m : Memory) (a n : Nat) :
    m.readLE a n = ∑ j ∈ Finset.range n, (m.read (a + j)).toNat * 256 ^ j := by
  induction n generalizing a with
  | zero => rfl
  | succ n ih =>
    have hstep : m.readLE a (n + 1) = (m.read a).toNat + 256 * m.readLE (a + 1) n := rfl
    rw [hstep, ih, Finset.sum_range_succ', Finset.mul_sum, Nat.add_comm]
    congr 1
    · refine Finset.sum_congr rfl fun j _ => ?_
      rw [Nat.add_right_comm a 1 j, Nat.add_assoc a j 1]
      ring
    · simp

/-- An access unit fits a word of the bus. -/
theorem Width.pow_bytes_le (w : Width) : 256 ^ w.bytes ≤ 2 ^ 32 := by cases w <;> decide

theorem getD_leBytes (v : Nat) {n j : Nat} (h : j < n) : (leBytes v n).getD j 0 = BitVec.ofNat 8 (v / 256 ^ j) := by
  induction n generalizing v j with
  | zero => omega
  | succ n ih =>
    cases j with
    | zero => simp [leBytes]
    | succ j =>
      rw [leBytes, List.getD_cons_succ, ih (v / 256) (by omega), Nat.div_div_eq_div_mul, Nat.pow_succ']

/-- `MemWrite` puts byte `j` of the value at offset `j` (R11, R61). -/
theorem Memory.read_writeLE (m : Memory) (a v : Nat) {n j : Nat} (h : j < n) :
    (m.writeLE a n v).read (a + j) = BitVec.ofNat 8 (v / 256 ^ j) := by
  rw [Memory.writeLE, Memory.read_writeBytes, if_pos (by simpa using h), Nat.add_sub_cancel_left, getD_leBytes v h]

/-- Byte `j` of a word, as a slice and as a digit. -/
theorem extractLsb'_byte (v : Word) (j : Nat) : v.extractLsb' (8 * j) 8 = BitVec.ofNat 8 (v.toNat / 256 ^ j) := by
  rw [BitVec.extractLsb', Nat.shiftRight_eq_div_pow, Nat.pow_mul]

/-! ### Bytes that a store leaves unchanged -/

theorem sameOutside_refl (rs : List Region) (s : State) : sameOutside rs s s := fun _ _ => rfl

/-- One more store adds its region to the frame. -/
theorem sameOutside.store {rs : List Region} {s t u : State} {a len : Nat} {bs : List Byte}
    (h : sameOutside rs s t) (hlen : bs.length = len) (hu : u.dmem = t.dmem.writeBytes a bs) :
    sameOutside (rs ++ [⟨a, len⟩]) s u := by
  intro b hb
  have hbs : ¬inBytes a len b := hb ⟨a, len⟩ (by simp)
  rw [hu, Memory.read_writeBytes_outside _ _ (hlen ▸ hbs)]
  exact h b fun r hr => hb r (List.mem_append_left _ hr)

/-- The frame of a single store. -/
theorem sameOutside_store {s u : State} {a len : Nat} {bs : List Byte} (hlen : bs.length = len)
    (hu : u.dmem = s.dmem.writeBytes a bs) : sameOutside [⟨a, len⟩] s u :=
  (sameOutside_refl [] s).store hlen hu

/-- Settles O13: the bytes of a unit as digits of the value, and the frame of the one store. -/
theorem hostDmemAccessesAreLittleEndian : Obligations.HostDmemAccessesAreLittleEndian := by
  intro s a w rest hb
  refine ⟨fun ha => ⟨fun hev => ⟨_, step_dmemRead_of_idle hb ha hev, ?_⟩,
      fun v hev => ⟨_, step_dmemWrite_of_idle hb ha hev, rfl, fun j hj => ?_, ?_⟩⟩,
    fun ha => ⟨step_dmemRead_outside hb ha, fun v => step_dmemWrite_outside hb ha⟩⟩
  · have hlt : s.dmem.readLE a w.bytes < 2 ^ 32 := (s.dmem.readLE_lt a w.bytes).trans_le w.pow_bytes_le
    rw [BitVec.toNat_ofNat, Nat.mod_eq_of_lt hlt, Memory.readLE_eq_sum]
  · rw [extractLsb'_byte]
    exact Memory.read_writeLE _ a v.toNat hj
  · exact sameOutside_store (length_leBytes _ _) rfl

/-! ### The region check (R67, R68) -/

/-- Two regions that do not overlap share no byte, and conversely. -/
theorem Region.overlaps_eq_false_iff_no_shared_byte {x y : Region} :
    x.overlaps y = false ↔ ¬∃ a, inBytes x.addr x.len a ∧ inBytes y.addr y.len a := by
  rw [Region.overlaps_eq_false]
  constructor
  · rintro h ⟨a, hx, hy⟩
    omega
  · intro h
    -- regions that overlap share the higher of their two first bytes
    have hmax : ¬(inBytes x.addr x.len (max x.addr y.addr) ∧ inBytes y.addr y.len (max x.addr y.addr)) :=
      fun hm => h ⟨_, hm⟩
    omega

theorem Region.inRange_iff {size : Nat} {r : Region} :
    r.inRange size = true ↔ r.len = 0 ∨ r.addr + r.len ≤ size := by
  simp [Region.inRange]

/-- Settles O14: the two halves of the check, each by what it means for one region and for two. -/
theorem regionCheckMeansInsideAndDisjoint : Obligations.RegionCheckMeansInsideAndDisjoint := by
  intro size rs
  simp only [regionsOK, Bool.and_eq_true, List.all_eq_true, Region.inRange_iff, pairwiseDisjoint_iff,
    Region.overlaps_eq_false_iff_no_shared_byte]

/-! ### Frames of the commands (R64) -/

/-- The commands that store nothing. -/
def storelessCommands : List Instr := [.nop, .modadd, .modsub, .modmul, .rngseed, .rngclr, .sampleu, .sampleg]

theorem ruleOf_dmem_of_storeless {i : Instr} {s u : State} (h : ruleOf i s = .ok u) (hi : i ∈ storelessCommands) :
    u.dmem = s.dmem := by
  cases i with
  | nop => cases h; rfl
  | modadd | modsub | modmul => obtain ⟨-, -, rfl⟩ := modRule_ok_iff.mp h; rfl
  | rngseed => obtain ⟨-, -, rfl⟩ := rngseedRule_ok h; rfl
  | rngclr => cases h; rfl
  | sampleu => obtain ⟨-, -, rfl⟩ := sampleuRule_ok h; rfl
  | sampleg => obtain ⟨-, -, rfl⟩ := samplegRule_ok h; rfl
  | encode | decode | randmat | randerr | keygen | encaps | decaps | zeroize => exact absurd hi (by decide)

theorem exec_dmem_of_storeless {i : Instr} {s t : State} (h : exec i s = .next t) (hi : i ∈ storelessCommands) :
    t.dmem = s.dmem := by
  obtain ⟨u, hr, rfl⟩ | ⟨e, -, rfl⟩ := exec_cases h
  · have hdmem := ruleOf_dmem_of_storeless hr hi
    exact hdmem
  · rfl

/-- A command writes STATUS, DMEM, RES0 and the RNG context at most. -/
theorem exec_writes {i : Instr} {s t : State} (h : exec i s = .next t) :
    t = { s with busy := t.busy, done := t.done, err := t.err, errcode := t.errcode, dmem := t.dmem, res0 := t.res0,
                 rngValid := t.rngValid, rngSeed := t.rngSeed, rngPos := t.rngPos } := by
  obtain ⟨hcmd, hargs, hparams, hevents, hreplies⟩ := exec_sameHostSide h
  rw [← hcmd, ← hargs, ← hparams, ← hevents, ← hreplies]

/-- Settles O26: the rules of these commands make no store, and no command writes the host's side. -/
theorem commandsWithoutStoresKeepMemory : Obligations.CommandsWithoutStoresKeepMemory := by
  intro i s t hi h
  have hm : t.dmem = s.dmem := exec_dmem_of_storeless h hi
  refine ⟨fun a => by rw [hm], exec_sameHostSide h, ?_⟩
  rw [← hm]
  exact exec_writes h

/-- The output regions of a command, from the argument registers and the parameters (R123, R126, R188, R189, R213,
R225, R228, R251). -/
def outputRegions (i : Instr) (s : State) : List Region :=
  match i with
  | .encode => [⟨s.arg 3, s.arg 1 * s.arg 2 * 2⟩]
  | .decode => [⟨s.arg 4, s.arg 2 * s.arg 3 * 4⟩]
  | .randmat => [⟨s.arg 2, s.arg 0 * s.arg 1 * 4⟩]
  | .randerr => [⟨s.arg 1, s.arg 0 * 4⟩]
  | .keygen => [⟨s.arg 2, pkLen s.params⟩, ⟨s.arg 3, skLen s.params⟩]
  | .encaps => [⟨s.arg 5, ctLen s.params⟩, ⟨s.arg 6, s.params.seclen⟩]
  | .decaps => [⟨s.arg 4, s.params.seclen⟩]
  | .zeroize => [⟨s.arg 0, s.arg 1⟩]
  | .nop | .modadd | .modsub | .modmul | .rngseed | .rngclr | .sampleu | .sampleg => []

/-- A rule stores into its output regions only: each string it writes has the length of its region. -/
theorem ruleOf_sameOutside {i : Instr} {s u : State} (h : ruleOf i s = .ok u) :
    sameOutside (outputRegions i s) s u := by
  cases i with
  | nop | modadd | modsub | modmul | rngseed | rngclr | sampleu | sampleg =>
    intro a _
    rw [ruleOf_dmem_of_storeless h (by decide)]
  | encode => obtain ⟨-, -, rfl⟩ := encodeRule_ok h; exact sameOutside_store (by simp) rfl
  | decode => obtain ⟨-, -, rfl⟩ := decodeRule_ok h; exact sameOutside_store (by simp) rfl
  | randmat => obtain ⟨-, -, -, rfl⟩ := randmatRule_ok h; exact sameOutside_store (by simp) rfl
  | randerr => obtain ⟨-, -, -, rfl⟩ := randerrRule_ok h; exact sameOutside_store (by simp) rfl
  | keygen =>
    obtain ⟨-, -, m, rfl, -, rfl⟩ := keygenRule_ok h
    have hpk := sameOutside_store (s := s) (u := s.setDmem _) (a := s.arg 2)
      (length_publicKeyBytes Config.collab s.params (s.dmem.readSeed (s.arg 0)) (s.dmem.readSeed (s.arg 0))) rfl
    exact hpk.store (length_secretKeyBytes _ _ _ _) rfl
  | encaps =>
    obtain ⟨-, -, -, ct, hct, -, rfl⟩ := encapsRule_ok h
    have hctdst := sameOutside_store (s := s) (u := s.setDmem _) (a := s.arg 5)
      (length_ciphertextBytes hct (s.dmem.readBytes (s.arg 4) s.params.seclen) (by simp)) rfl
    exact hctdst.store (length_digest _ _ _) rfl
  | decaps => obtain ⟨-, -, -, ss, -, hss, rfl⟩ := decapsRule_ok h; exact sameOutside_store hss rfl
  | zeroize => obtain ⟨-, rfl⟩ := zeroizeRule_ok h; exact sameOutside_store (by simp) rfl

theorem exec_sameOutside {i : Instr} {s t : State} (h : exec i s = .next t) :
    sameOutside (outputRegions i s) s t := by
  obtain ⟨u, hr, rfl⟩ | ⟨e, -, rfl⟩ := exec_cases h
  · have hu := ruleOf_sameOutside hr
    exact hu
  · exact sameOutside_refl _ s

/-- The commands that may write the RNG context (R33). -/
def rngCommands : List Instr := [.rngseed, .rngclr, .sampleu, .sampleg, .randmat, .randerr]

theorem exec_sameRng {i : Instr} {s t : State} (h : exec i s = .next t) (hi : i ∉ rngCommands) : sameRng s t := by
  simp only [rngCommands, List.mem_cons, not_or] at hi
  obtain ⟨hseed, hclr, hu, hg, hm, he, -⟩ := hi
  obtain ⟨hv, hsd, hp⟩ := onlySamplerCommandsTouchTheRngContext i s t h hseed hclr
  exact ⟨hv, hsd, hp hu hg hm he⟩

theorem exec_res0 {i : Instr} {s t : State} (h : exec i s = .next t) (hi : i ∉ resultCommands) : t.res0 = s.res0 := by
  obtain ⟨u, hr, rfl⟩ | ⟨e, -, rfl⟩ := exec_cases h
  · have hres := ruleOf_res0 hr hi
    exact hres
  · rfl

/-- Settles O27: each command stores into its output regions only, and RES0 and the RNG context are written by the
commands of `resultCommands` and `rngCommands` only. -/
theorem storingCommandsKeepOtherMemory : Obligations.StoringCommandsKeepOtherMemory := by
  refine ⟨?encode, ?decode, ?randmat, ?randerr, ?zeroize, ?keygen, ?encaps, ?decaps⟩
  case encode | decode =>
    exact fun s t h => ⟨exec_sameOutside h, exec_sameHostSide h, exec_sameRng h (by decide)⟩
  case randmat | randerr =>
    exact fun s t h => ⟨exec_sameOutside h, exec_sameHostSide h, exec_res0 h (by decide)⟩
  case zeroize | keygen | encaps | decaps =>
    exact fun s t h =>
      ⟨exec_sameOutside h, exec_sameHostSide h, exec_sameRng h (by decide), exec_res0 h (by decide)⟩

end Sys2Proof.Machine
end

section
/-! The decoder: a word is its two fields, the opcode names the command, so a command has exactly one word (R90, R91,
R96, R97). -/

namespace Sys2Proof

/-! ### The two fields of a word (R90) -/

theorem zeroField_append_opcField (w : Word) : zeroField w ++ opcField w = w :=
  (BitVec.extractLsb'_append_extractLsb'_eq_extractLsb' (rfl : 8 = 0 + 8)).trans BitVec.extractLsb'_eq_self

theorem word_ext {w v : Word} (hzero : zeroField w = zeroField v) (hopc : opcField w = opcField v) : w = v := by
  rw [← zeroField_append_opcField w, ← zeroField_append_opcField v, hzero, hopc]

/-! ### The table of opcodes (R96) -/

theorem encode_opcodeInLowByte (i : Instr) : Laws.OpcodeInLowByte.Statement i := by
  cases i with
  | nop => exact Laws.OpcodeInLowByte.nop
  | modadd => exact Laws.OpcodeInLowByte.modadd
  | modsub => exact Laws.OpcodeInLowByte.modsub
  | modmul => exact Laws.OpcodeInLowByte.modmul
  | encode => exact Laws.OpcodeInLowByte.encode
  | decode => exact Laws.OpcodeInLowByte.decode
  | rngseed => exact Laws.OpcodeInLowByte.rngseed
  | rngclr => exact Laws.OpcodeInLowByte.rngclr
  | sampleu => exact Laws.OpcodeInLowByte.sampleu
  | sampleg => exact Laws.OpcodeInLowByte.sampleg
  | randmat => exact Laws.OpcodeInLowByte.randmat
  | randerr => exact Laws.OpcodeInLowByte.randerr
  | keygen => exact Laws.OpcodeInLowByte.keygen
  | encaps => exact Laws.OpcodeInLowByte.encaps
  | decaps => exact Laws.OpcodeInLowByte.decaps
  | zeroize => exact Laws.OpcodeInLowByte.zeroize

/-- A command stands in one row of the table only, that of the low byte of its word. -/
theorem opc_eq_of_ofOpcode {opc : BitVec 8} {i : Instr} (h : ofOpcode opc = some i) : opc = opcField (encode i) := by
  unfold ofOpcode at h
  split at h <;> cases h <;> rfl

/-! ### Decoding (R91) -/

theorem decode_eq_ok_iff {w : Word} {i : Instr} :
    decode w = .ok i ↔ zeroField w = 0 ∧ ofOpcode (opcField w) = some i := by
  unfold decode
  split
  · next hset => exact ⟨nofun, fun ⟨hzero, _⟩ => absurd hzero hset⟩
  · next hzero =>
    rw [not_not] at hzero
    split
    · next j hj => simp [hzero, hj]
    · next hnone => simp [hnone]

theorem decode_encode (i : Instr) : decode (encode i) = .ok i :=
  decode_eq_ok_iff.mpr (encode_opcodeInLowByte i)

theorem eq_encode_of_decode {w : Word} {i : Instr} (h : decode w = .ok i) : w = encode i := by
  obtain ⟨hzero, hopc⟩ := decode_eq_ok_iff.mp h
  obtain ⟨hzero', -⟩ := encode_opcodeInLowByte i
  exact word_ext (hzero.trans hzero'.symm) (opc_eq_of_ofOpcode hopc)

/-- Settles O2: the word of a command has its opcode in the low byte, and a word is its two fields. -/
theorem decodeAcceptsExactlyTheCommandWords : Obligations.DecodeAcceptsExactlyTheCommandWords := by
  intro w i
  constructor
  · exact eq_encode_of_decode
  · rintro rfl
    exact decode_encode i

/-- Settles O1: the sixteen words are those `encode` gives; the two neighbours are evaluated. -/
theorem listedWordsDecodeToTheirCommands : Obligations.ListedWordsDecodeToTheirCommands :=
  ⟨⟨decode_encode .nop, decode_encode .modadd, decode_encode .modsub, decode_encode .modmul, decode_encode .encode,
    decode_encode .decode, decode_encode .rngseed, decode_encode .rngclr, decode_encode .sampleu,
    decode_encode .sampleg, decode_encode .randmat, decode_encode .randerr, decode_encode .keygen,
    decode_encode .encaps, decode_encode .decaps, decode_encode .zeroize⟩, rfl, rfl⟩

/-! ### Illegal words (R97) -/

/-- The values of a word that R97 lists as illegal: a bit of `ZERO` set, or one of the unlisted opcodes. -/
abbrev IllegalRange (n : Nat) : Prop :=
  0x100 ≤ n ∨ (0x04 ≤ n ∧ n ≤ 0x0F) ∨ (0x12 ≤ n ∧ n ≤ 0x1F) ∨ (0x26 ≤ n ∧ n ≤ 0x2F) ∨ (0x33 ≤ n ∧ n ≤ 0x3F) ∨
    (0x41 ≤ n ∧ n ≤ 0xFF)

theorem encode_not_illegalRange (i : Instr) : ¬IllegalRange (encode i).toNat := by
  cases i <;> decide

theorem decode_error_of_illegalRange {w : Word} (h : IllegalRange w.toNat) : ∃ e, decode w = .error e := by
  cases hd : decode w with
  | error e => exact ⟨e, rfl⟩
  | ok i =>
    rw [eq_encode_of_decode hd] at h
    exact absurd h (encode_not_illegalRange i)

end Sys2Proof
end

section
/-! The handshake of a command: its issue by a write of CMD (R92) and the core's move that completes it (R93). -/

namespace Sys2Proof.Machine

/-! ### Issue (R92) -/

/-- A write of register 0x02 is the issue of its value as a command (R25). -/
theorem State.regWrite_cmd (s : State) (w : Word) : s.regWrite 2 w = s.issue w := rfl

/-- Settles O5: an idle core takes the write, and a write of CMD is the issue. -/
theorem issueLatchesTheWordAndSetsBusy : Obligations.IssueLatchesTheWordAndSetsBusy := by
  intro s w rest hb hev
  rw [step_regWrite_of_idle hev hb, State.regWrite_cmd]
  rfl

/-! ### Completion (R93) -/

theorem completion_of_decode_ok {s : State} {i : Instr} (h : decode s.cmd = .ok i) : completion s = exec i s := by
  simp [completion, h]

theorem completion_of_illegalRange {s : State} (h : IllegalRange s.cmd.toNat) :
    completion s = .next (s.afterError 0x10) := by
  obtain ⟨e, he⟩ := decode_error_of_illegalRange h
  simp only [completion, he]
  rfl

/-! ### The core's move: listed, the only one left, or made while the host waits -/

section
variable {s : State} {rest : List Event}

theorem step_noMove_of_busy (hb : s.busy = true) (hev : s.events = []) : step s = completion s := by
  simp [step, hev, coreMove, hb]

theorem step_core_of_busy (hb : s.busy = true) (hev : s.events = .core :: rest) :
    step s = completion { s with events := rest } := by
  simp [step, hev, coreMove, hb]

theorem step_wait_of_busy (hb : s.busy = true) (hev : s.events = .wait :: rest) : step s = completion s := by
  simp [step, hev, hostWait, hb]

theorem step_noMove_of_idle (hb : s.busy = false) (hev : s.events = []) : step s = .next s := by
  simp [step, hev, coreMove, hb]

theorem step_core_of_idle (hb : s.busy = false) (hev : s.events = .core :: rest) :
    step s = .next { s with events := rest } := by
  simp [step, hev, coreMove, hb]

theorem step_wait_of_idle (hb : s.busy = false) (hev : s.events = .wait :: rest) :
    step s = .next { s with events := rest } := by
  simp [step, hev, hostWait, hb]

end

/-- Settles O4: each of the three moves is the completion while BUSY = 1, which runs the decoded command; the list of
moves does not enter the decoding. -/
theorem stepRunsTheDecodedCommand : Obligations.StepRunsTheDecodedCommand := by
  constructor
  · intro s i hb hd
    have hrun (ev : List Event) : completion { s with events := ev } = exec i { s with events := ev } :=
      completion_of_decode_ok hd
    exact ⟨fun hev => (step_noMove_of_busy hb hev).trans (hrun s.events),
      fun rest hev => (step_core_of_busy hb hev).trans (hrun rest),
      fun rest hev => (step_wait_of_busy hb hev).trans (hrun s.events)⟩
  · intro s hb
    exact ⟨step_noMove_of_idle hb, fun rest => step_core_of_idle hb, fun rest => step_wait_of_idle hb⟩

/-- Settles O3: no command's word lies in the ranges of R97, so each of the three moves completes with
`IllegalCommand`. -/
theorem illegalWordsCompleteWithIllegalCommand : Obligations.IllegalWordsCompleteWithIllegalCommand := by
  intro s hb hw
  have herr (ev : List Event) :
      completion { s with events := ev } = .next (State.afterError { s with events := ev } 0x10) :=
    completion_of_illegalRange hw
  exact ⟨fun hev => (step_noMove_of_busy hb hev).trans (herr s.events),
    fun rest hev => (step_core_of_busy hb hev).trans (herr rest),
    fun rest hev => (step_wait_of_busy hb hev).trans (herr s.events)⟩

end Sys2Proof.Machine
end

section
/-! The codec: ENCODE and DECODE (R123, R126) by their outcomes in test order, what each writes, and the round trip of
R125. -/

namespace Sys2Proof.Machine

/-! ### Lengths and words of a checked array -/

/-- A region that passes the check of R67 has a length that fits a register. -/
theorem region_len_lt {p : Params} {rs : List Region} (h : regionsOK p.dmemSize rs = true) {r : Region} (hr : r ∈ rs) :
    r.len < 2 ^ 32 := by
  have hin := regionsOK_inRange h hr
  have hsize := p.dmemSize_lt
  omega

/-- The test of R124, word by word of an element array in memory. -/
theorem unpackable_readElems {m : Memory} {a cnt : Nat} :
    unpackable (m.readElems a cnt) = true ↔ ∃ k, k < cnt ∧ 65536 ≤ m.readLE (a + 4 * k) 4 := by
  simp [unpackable, Memory.readElems]

/-- Element `k` unpacked from a byte string of memory is the scalar that stands there (R120). -/
theorem getElem_unpack_readBytes (m : Memory) (a : Nat) {n cnt k : Nat} (hn : 2 * k + 2 ≤ n)
    (hk : k < (unpack (m.readBytes a n) cnt).length) :
    (unpack (m.readBytes a n) cnt)[k] = m.readLE (a + 2 * k) 2 :=
  (getElem_unpack ..).trans (scalarAt_readBytes m a n (2 * k) hn)

/-! ### ENCODE (R123) -/

theorem encodeRule_of_badRegions {s : State}
    (hreg : regionsOK s.params.dmemSize
      [⟨s.arg 0, s.arg 1 * s.arg 2 * 4⟩, ⟨s.arg 3, s.arg 1 * s.arg 2 * 2⟩] = false) :
    encodeRule s = .error .addressRange := by
  simp [encodeRule, hreg]

section
variable {s : State} (hreg : regionsOK s.params.dmemSize
  [⟨s.arg 0, s.arg 1 * s.arg 2 * 4⟩, ⟨s.arg 3, s.arg 1 * s.arg 2 * 2⟩] = true)
include hreg

theorem encodeRule_of_wideWord
    (hwide : ∃ k, k < s.arg 1 * s.arg 2 ∧ 65536 ≤ s.dmem.readLE (s.arg 0 + 4 * k) 4) :
    encodeRule s = .error .encodeRange := by
  simp [encodeRule, hreg, unpackable_readElems.mpr hwide]

theorem encodeRule_of_fittingWords
    (hfit : ∀ k, k < s.arg 1 * s.arg 2 → s.dmem.readLE (s.arg 0 + 4 * k) 4 < 65536) :
    ∃ t, encodeRule s = .ok t := by
  have hx : ¬unpackable (s.dmem.readElems (s.arg 0) (s.arg 1 * s.arg 2)) = true := fun h => by
    obtain ⟨k, hk, hwide⟩ := unpackable_readElems.mp h
    exact absurd (hfit k hk) (Nat.not_lt.mpr hwide)
  simp [encodeRule, hreg, hx]

end

section
variable {s t : State} (h : encodeRule s = .ok t)
include h

theorem encodeRule_count : t.res0.toNat = s.arg 1 * s.arg 2 * 2 := by
  obtain ⟨hreg, -, rfl⟩ := encodeRule_ok h
  have hlen := region_len_lt hreg (r := ⟨s.arg 3, s.arg 1 * s.arg 2 * 2⟩) (by simp)
  exact Nat.mod_eq_of_lt hlen

/-- Scalar `k` that ENCODE writes is word `k` that it reads. -/
theorem encodeRule_scalar {k : Nat} (hk : k < s.arg 1 * s.arg 2) :
    t.dmem.readLE (s.arg 3 + 2 * k) 2 = s.dmem.readLE (s.arg 0 + 4 * k) 4 := by
  obtain ⟨-, hfit, rfl⟩ := encodeRule_ok h
  have hlt : k < (s.dmem.readElems (s.arg 0) (s.arg 1 * s.arg 2)).length := by simpa using hk
  have hword := unpackable_eq_false.mp hfit _ (List.getElem_mem hlt)
  exact (Memory.readLE_writeBytes_scalars s.dmem (s.arg 3) 2 _ k hlt hword).trans (getElem_readElems ..)

end

/-- Settles O36: the three outcomes of the rule, then what its one store and its count are. -/
theorem encodePacksAnElementArray : Obligations.EncodePacksAnElementArray := by
  refine ⟨decode_encode .encode, ?_⟩
  rintro s _ rfl
  refine ⟨fun hreg => exec_of_error (i := .encode) (encodeRule_of_badRegions hreg), fun hreg =>
    ⟨fun hwide => exec_of_error (i := .encode) (encodeRule_of_wideWord hreg hwide), fun hfit => ?_⟩⟩
  obtain ⟨u, hu⟩ := encodeRule_of_fittingWords hreg hfit
  have hexec : exec .encode s = .next u.afterSuccess := exec_of_ok hu
  have hcount := encodeRule_count hu
  have hwritten := fun k => encodeRule_scalar (k := k) hu
  refine ⟨_, hexec, ?_, hcount, hwritten, exec_sameOutside hexec⟩
  obtain ⟨-, -, rfl⟩ := encodeRule_ok hu
  rfl

/-! ### DECODE (R126) -/

theorem decodeRule_of_short {s : State} (hlen : s.arg 1 < s.arg 2 * s.arg 3 * 2) :
    decodeRule s = .error .invalidParameter := by
  simp [decodeRule, hlen]

section
variable {s : State} (hlen : s.arg 2 * s.arg 3 * 2 ≤ s.arg 1)
include hlen

theorem decodeRule_of_badRegions
    (hreg : regionsOK s.params.dmemSize [⟨s.arg 0, s.arg 1⟩, ⟨s.arg 4, s.arg 2 * s.arg 3 * 4⟩] = false) :
    decodeRule s = .error .addressRange := by
  simp [decodeRule, Nat.not_lt.mpr hlen, hreg]

theorem decodeRule_of_goodRegions
    (hreg : regionsOK s.params.dmemSize [⟨s.arg 0, s.arg 1⟩, ⟨s.arg 4, s.arg 2 * s.arg 3 * 4⟩] = true) :
    ∃ t, decodeRule s = .ok t := by
  simp [decodeRule, Nat.not_lt.mpr hlen, hreg]

end

section
variable {s t : State} (h : decodeRule s = .ok t)
include h

theorem decodeRule_count : t.res0.toNat = s.arg 2 * s.arg 3 * 2 := by
  obtain ⟨hlen, -, rfl⟩ := decodeRule_ok h
  exact Nat.mod_eq_of_lt (hlen.trans_lt (s.arg_lt 1))

/-- Word `k` that DECODE writes is the value of scalar `k` that it reads. -/
theorem decodeRule_word {k : Nat} (hk : k < s.arg 2 * s.arg 3) :
    t.dmem.readLE (s.arg 4 + 4 * k) 4 = s.dmem.readLE (s.arg 0 + 2 * k) 2 := by
  obtain ⟨-, -, rfl⟩ := decodeRule_ok h
  have hlt : k < (unpack (s.dmem.readBytes (s.arg 0) (s.arg 2 * s.arg 3 * 2)) (s.arg 2 * s.arg 3)).length := by
    simpa using hk
  have hscalar := getElem_unpack_readBytes s.dmem (s.arg 0) (by omega) hlt
  have hword := (Memory.readLE_lt s.dmem (s.arg 0 + 2 * k) 2).trans (by norm_num : 256 ^ 2 < 256 ^ 4)
  exact (Memory.readLE_writeBytes_scalars s.dmem (s.arg 4) 4 _ k hlt (hscalar ▸ hword)).trans hscalar

end

/-- Settles O37: the three outcomes of the rule, then what its one store and its count are. -/
theorem decodeUnpacksIntoAnElementArray : Obligations.DecodeUnpacksIntoAnElementArray := by
  refine ⟨decode_encode .decode, ?_⟩
  rintro s _ rfl
  refine ⟨fun hlen => exec_of_error (i := .decode) (decodeRule_of_short hlen), fun hlen =>
    ⟨fun hreg => exec_of_error (i := .decode) (decodeRule_of_badRegions hlen hreg), fun hreg => ?_⟩⟩
  obtain ⟨u, hu⟩ := decodeRule_of_goodRegions hlen hreg
  have hexec : exec .decode s = .next u.afterSuccess := exec_of_ok hu
  have hcount := decodeRule_count hu
  have hwritten := fun k => decodeRule_word (k := k) hu
  refine ⟨_, hexec, ?_, hcount, hwritten, exec_sameOutside hexec⟩
  obtain ⟨-, -, rfl⟩ := decodeRule_ok hu
  rfl

/-! ### The round trip (R125) -/

/-- An argument register read off the list of the first registers. -/
theorem State.arg_of_take {s : State} {n : Nat} {ws : List Word} (h : s.args.toList.take n = ws) {k : Fin 8} {w : Word}
    (hk : ws[k.val]? = some w) : s.arg k = w.toNat := by
  subst h
  obtain ⟨-, rfl⟩ := List.getElem?_eq_some_iff.mp hk
  simp [State.arg]

/-- A command that completes with ERR = 0 ended its rule without error. -/
theorem exec_ok_of_err {i : Instr} {s t : State} (h : exec i s = .next t) (herr : t.err = false) :
    ∃ u, ruleOf i s = .ok u ∧ t = u.afterSuccess := by
  obtain hok | ⟨e, -, rfl⟩ := exec_cases h
  · exact hok
  · cases herr

/-- DECODE of the scalars that ENCODE wrote gives back the words that ENCODE read (R125). -/
theorem decodeRule_word_of_encodeRule {s v t u : State} (hv : encodeRule s = .ok v) (hdmem : t.dmem = v.dmem)
    (hmid : t.arg 0 = s.arg 3) (hcnt : t.arg 2 * t.arg 3 = s.arg 1 * s.arg 2) (hu : decodeRule t = .ok u) {k : Nat}
    (hk : k < s.arg 1 * s.arg 2) :
    u.dmem.readLE (t.arg 4 + 4 * k) 4 = s.dmem.readLE (s.arg 0 + 4 * k) 4 := by
  calc u.dmem.readLE (t.arg 4 + 4 * k) 4
      _ = t.dmem.readLE (t.arg 0 + 2 * k) 2 := decodeRule_word hu (hcnt ▸ hk)
      _ = v.dmem.readLE (s.arg 3 + 2 * k) 2 := by rw [hdmem, hmid]
      _ = s.dmem.readLE (s.arg 0 + 4 * k) 4 := encodeRule_scalar hv hk

/-- Settles O38: DECODE completes because the region check is given, and finds what ENCODE wrote. -/
theorem decodeAfterEncodeRestoresTheArray : Obligations.DecodeAfterEncodeRestoresTheArray := by
  intro s t src rows cols mid dst _ hargs h herr hreg
  have hsrc : s.arg 0 = src.toNat := State.arg_of_take hargs rfl
  have hrows : s.arg 1 = rows.toNat := State.arg_of_take hargs rfl
  have hcols : s.arg 2 = cols.toNat := State.arg_of_take hargs rfl
  have hmid : s.arg 3 = mid.toNat := State.arg_of_take hargs rfl
  obtain ⟨v, hv, rfl⟩ := exec_ok_of_err h herr
  obtain ⟨-, -, hparams, -, -⟩ := ruleOf_sameHostSide hv
  have hlen := region_len_lt hreg (r := ⟨mid.toNat, rows.toNat * cols.toNat * 2⟩) (by simp)
  obtain ⟨t, ht⟩ : ∃ t, t = { v.afterSuccess with
      args := #v[mid, BitVec.ofNat 32 (rows.toNat * cols.toNat * 2), rows, cols, dst, 0, 0, 0] } := ⟨_, rfl⟩
  rw [← ht]
  have hmid' : t.arg 0 = mid.toNat := by rw [ht]; rfl
  have hlen' : t.arg 1 = rows.toNat * cols.toNat * 2 := by rw [ht]; exact Nat.mod_eq_of_lt hlen
  have hrows' : t.arg 2 = rows.toNat := by rw [ht]; rfl
  have hcols' : t.arg 3 = cols.toNat := by rw [ht]; rfl
  have hdst' : t.arg 4 = dst.toNat := by rw [ht]; rfl
  have hparams' : t.params = s.params := by rw [ht]; exact hparams
  have hdmem' : t.dmem = v.dmem := by rw [ht]; rfl
  have herr' : t.err = false := by rw [ht]; exact herr
  obtain ⟨u, hu⟩ : ∃ u, decodeRule t = .ok u :=
    decodeRule_of_goodRegions (by rw [hlen', hrows', hcols']) (by rwa [hparams', hmid', hlen', hrows', hcols', hdst'])
  refine ⟨_, exec_of_ok (i := .decode) hu, (ruleOf_err (i := .decode) hu).trans herr', fun k hk => ?_⟩
  rw [← hdst', ← hsrc]
  exact decodeRule_word_of_encodeRule hv hdmem' (by rw [hmid', hmid]) (by rw [hrows', hcols', hrows, hcols]) hu
    (by rwa [hrows, hcols])

end Sys2Proof.Machine
end

section
/-! ENCAPS does not use the seed field of the public key (R135): it reads the rest of the key, and its other regions
lie apart from the key (R68). -/

namespace Sys2Proof.Machine

@[simp] theorem State.setDmem_arg (s : State) (m : Memory) (k : Fin 8) : (s.setDmem m).arg k = s.arg k := rfl

/-! ### Reads of memories that agree -/

theorem Memory.drop_readBytes (m : Memory) (a off n : Nat) :
    (m.readBytes a (off + n)).drop off = m.readBytes (a + off) n := by
  rw [Memory.readBytes_append, List.drop_left' (by simp)]

theorem unpack_readBytes_congr {m m' : Memory} {a n cnt : Nat} (hn : 2 * cnt ≤ n)
    (h : ∀ j, j < 2 * cnt → m.read (a + j) = m'.read (a + j)) :
    unpack (m.readBytes a n) cnt = unpack (m'.readBytes a n) cnt := by
  refine List.ext_getElem (by simp) fun k hk hk' => ?_
  have hcnt : k < cnt := by simpa using hk
  rw [getElem_unpack_readBytes m a (by omega) hk, getElem_unpack_readBytes m' a (by omega) hk']
  refine Memory.readLE_congr fun j hj => ?_
  rw [Nat.add_assoc]
  exact h (2 * k + j) (by omega)

/-- The same store into memories that agree outside a region leaves memories that agree outside it. -/
theorem sameOutside.writeBytes {rs : List Region} {s t : State} (h : sameOutside rs s t) (a : Nat) (bs : List Byte) :
    sameOutside rs (s.setDmem (s.dmem.writeBytes a bs)) (t.setDmem (t.dmem.writeBytes a bs)) := by
  intro b hb
  rw [State.setDmem_dmem, State.setDmem_dmem, Memory.read_writeBytes, Memory.read_writeBytes, h b hb]

/-- A byte of one checked region lies in no earlier one. -/
theorem not_inBytes_of_regionsOK {size : Nat} {r x : Region} {rs : List Region} (h : regionsOK size (r :: rs) = true)
    (hx : x ∈ rs) {a : Nat} (ha : inBytes x.addr x.len a) : ¬inBytes r.addr r.len a := fun hr =>
  Region.overlaps_eq_false_iff_no_shared_byte.mp (List.rel_of_pairwise_cons (regionsOK_pairwise h) hx) ⟨a, hr, ha⟩

/-! ### The regions of ENCAPS (R225) -/

/-- The regions of ENCAPS after the public key: the encapsulation seed, the message, the ciphertext and the shared
secret. -/
def encapsOtherRegions (s : State) : List Region :=
  [⟨s.arg 2, s.arg 3⟩, ⟨s.arg 4, s.params.seclen⟩, ⟨s.arg 5, ctLen s.params⟩, ⟨s.arg 6, s.params.seclen⟩]

/-- The regions of ENCAPS in the order of R225, the public key first. -/
def encapsRegions (s : State) : List Region := ⟨s.arg 0, pkLen s.params⟩ :: encapsOtherRegions s

/-! ### The outcomes of the rule in test order (R225) -/

section
variable {k : Collaborators} {s : State}

theorem encapsRule_of_wrongKeyLength (hpk : s.arg 1 ≠ pkLen s.params) :
    encapsRule k s = .error .invalidKeyFormat := by
  simp [encapsRule, hpk]

variable (hpk : s.arg 1 = pkLen s.params)
include hpk

theorem encapsRule_of_shortSeed (hes : s.arg 3 < 32) : encapsRule k s = .error .randomGeneration := by
  simp [encapsRule, hpk, hes]

variable (hes : 32 ≤ s.arg 3)
include hes

theorem encapsRule_of_badRegions (hreg : regionsOK s.params.dmemSize (encapsRegions s) = false) :
    encapsRule k s = .error .addressRange := by
  unfold encapsRegions encapsOtherRegions at hreg
  simp [encapsRule, hpk, Nat.not_lt.mpr hes, hreg]

variable (hreg : regionsOK s.params.dmemSize (encapsRegions s) = true)
include hreg

theorem encapsRule_of_noPair (hct : encapsPair k s = none) : encapsRule k s = .error .encapsulation := by
  unfold encapsRegions encapsOtherRegions at hreg
  unfold encapsPair at hct
  simp [encapsRule, hpk, Nat.not_lt.mpr hes, hreg, hct]

variable {ct : CipherPair} (hct : encapsPair k s = some ct)
include hct

theorem encapsRule_of_wideScalar (hwide : unpackable (ct.c :: ct.v) = true) :
    encapsRule k s = .error .encodeRange := by
  unfold encapsRegions encapsOtherRegions at hreg
  unfold encapsPair at hct
  simp [encapsRule, hpk, Nat.not_lt.mpr hes, hreg, hct, hwide]

theorem encapsRule_of_fittingScalars (hfit : unpackable (ct.c :: ct.v) = false) : ∃ t, encapsRule k s = .ok t := by
  unfold encapsRegions encapsOtherRegions at hreg
  unfold encapsPair at hct
  simp [encapsRule, hpk, Nat.not_lt.mpr hes, hreg, hct, hfit]

end

/-! ### What ENCAPS reads (R135) -/

/-- The seed field, the last 32 bytes of the public key (R130). -/
def publicKeySeedField (s : State) : Region := ⟨s.arg 0 + s.params.n * s.params.n * 2 + s.params.n * 2, 32⟩

theorem sameOutside_publicKeySeedField {s v w : State} :
    sameOutside [publicKeySeedField s] v w ↔
      ∀ a, ¬inBytes (s.arg 0 + s.params.n * s.params.n * 2 + s.params.n * 2) 32 a → w.dmem.read a = v.dmem.read a := by
  simp only [sameOutside, List.forall_mem_singleton, publicKeySeedField]

section
variable {s v w : State} (h : sameOutside [publicKeySeedField s] v w)
include h

/-- Before its seed field the public key reads the same. -/
theorem read_publicKey_of_sameOutside {a : Nat} (ha : a < s.arg 0 + s.params.n * s.params.n * 2 + s.params.n * 2) :
    w.dmem.read a = v.dmem.read a :=
  sameOutside_publicKeySeedField.mp h a fun hin => absurd hin.1 (Nat.not_le.mpr ha)

variable (hreg : regionsOK s.params.dmemSize (encapsRegions s) = true)
include hreg

/-- The other regions of ENCAPS read the same. -/
theorem read_otherRegion_of_sameOutside {addr len j : Nat} (hr : ⟨addr, len⟩ ∈ encapsOtherRegions s) (hj : j < len) :
    w.dmem.read (addr + j) = v.dmem.read (addr + j) := by
  have hpk : ¬inBytes (s.arg 0) (pkLen s.params) (addr + j) :=
    not_inBytes_of_regionsOK hreg hr ⟨Nat.le_add_right _ _, Nat.add_lt_add_left hj _⟩
  rw [pkLen] at hpk
  exact sameOutside_publicKeySeedField.mp h _ (by omega)

theorem readBytes_otherRegion_of_sameOutside {addr len : Nat} (hr : ⟨addr, len⟩ ∈ encapsOtherRegions s) :
    w.dmem.readBytes addr len = v.dmem.readBytes addr len :=
  Memory.readBytes_congr fun _ hj => read_otherRegion_of_sameOutside h hreg hr hj

end

section
variable {s : State} {m : Memory} (hm : sameOutside [publicKeySeedField s] s (s.setDmem m))
  (hreg : regionsOK s.params.dmemSize (encapsRegions s) = true)
include hm hreg

theorem encapsMessage_of_sameOutside :
    m.readBytes (s.arg 4) s.params.seclen = s.dmem.readBytes (s.arg 4) s.params.seclen :=
  readBytes_otherRegion_of_sameOutside hm hreg (by simp [encapsOtherRegions])

theorem encapsSeed_of_sameOutside (hes : 32 ≤ s.arg 3) : m.readSeed (s.arg 2) = s.dmem.readSeed (s.arg 2) :=
  Memory.readSeed_congr fun _ hj =>
    read_otherRegion_of_sameOutside hm hreg (len := s.arg 3) (by simp [encapsOtherRegions]) (hj.trans_le hes)

/-- ENCAPS computes the same pair: matrix and vector from before the seed field, seed and message from elsewhere. -/
theorem encapsPair_of_sameOutside (k : Collaborators) (hes : 32 ≤ s.arg 3) :
    encapsPair k (s.setDmem m) = encapsPair k s := by
  have ha : unpack (m.readBytes (s.arg 0) (pkLen s.params)) (s.params.n * s.params.n) =
      unpack (s.dmem.readBytes (s.arg 0) (pkLen s.params)) (s.params.n * s.params.n) :=
    unpack_readBytes_congr (by simp only [pkLen]; omega) fun j hj => read_publicKey_of_sameOutside hm (by omega)
  have hb : unpack ((m.readBytes (s.arg 0) (pkLen s.params)).drop (s.params.n * s.params.n * 2)) s.params.n =
      unpack ((s.dmem.readBytes (s.arg 0) (pkLen s.params)).drop (s.params.n * s.params.n * 2)) s.params.n := by
    rw [pkLen, Nat.add_assoc, Memory.drop_readBytes, Memory.drop_readBytes]
    exact unpack_readBytes_congr (by omega) fun j hj => read_publicKey_of_sameOutside hm (by omega)
  simp only [encapsPair, State.setDmem_arg, State.setDmem_params, State.setDmem_dmem, ha, hb,
    encapsSeed_of_sameOutside hm hreg hes, encapsMessage_of_sameOutside hm hreg]

end

/-! ### The rule and the completion -/

/-- Two results of a rule that agree: the same error, or states whose memories agree outside a region. -/
def agreeOutside (r : Region) : Except ErrorKind State → Except ErrorKind State → Prop
  | .ok v, .ok w => sameOutside [r] v w
  | .error e, .error e' => e' = e
  | _, _ => False

theorem ok_of_agreeOutside {r : Region} {v : State} {y : Except ErrorKind State} (h : agreeOutside r (.ok v) y) :
    ∃ w, y = .ok w ∧ sameOutside [r] v w := by
  cases y with
  | ok w => exact ⟨w, rfl, h⟩
  | error e => cases h

theorem error_of_agreeOutside {r : Region} {e : ErrorKind} {y : Except ErrorKind State}
    (h : agreeOutside r (.error e) y) : y = .error e := by
  cases y with
  | ok w => cases h
  | error e' => exact congrArg _ h

/-- Without error ENCAPS makes the same two stores over both memories. -/
theorem encapsRule_stores_agree {k : Collaborators} {s v w : State} {m : Memory}
    (hm : sameOutside [publicKeySeedField s] s (s.setDmem m)) (hv : encapsRule k s = .ok v)
    (hw : encapsRule k (s.setDmem m) = .ok w) : sameOutside [publicKeySeedField s] v w := by
  obtain ⟨-, hes, hreg, cv, hcv, -, rfl⟩ := encapsRule_ok hv
  obtain ⟨-, -, -, cw, hcw, -, rfl⟩ := encapsRule_ok hw
  obtain rfl : cv = cw := Option.some.inj (hcv.symm.trans ((encapsPair_of_sameOutside hm hreg k hes).symm.trans hcw))
  simp only [State.setDmem_arg, State.setDmem_params, State.setDmem_dmem, encapsMessage_of_sameOutside hm hreg]
  exact (hm.writeBytes _ _).writeBytes _ _

/-- ENCAPS on a memory that differs in the seed field only raises the same error or makes the same stores. -/
theorem encapsRule_agreeOutside {s : State} {m : Memory}
    (hm : sameOutside [publicKeySeedField s] s (s.setDmem m)) (k : Collaborators) :
    agreeOutside (publicKeySeedField s) (encapsRule k s) (encapsRule k (s.setDmem m)) := by
  by_cases hpk : s.arg 1 = pkLen s.params
  case neg =>
    rw [encapsRule_of_wrongKeyLength hpk, encapsRule_of_wrongKeyLength (s := s.setDmem m) hpk]
    rfl
  by_cases hes : 32 ≤ s.arg 3
  case neg =>
    rw [encapsRule_of_shortSeed hpk (Nat.not_le.mp hes),
      encapsRule_of_shortSeed (s := s.setDmem m) hpk (Nat.not_le.mp hes)]
    rfl
  cases hreg : regionsOK s.params.dmemSize (encapsRegions s) with
  | false =>
    rw [encapsRule_of_badRegions hpk hes hreg, encapsRule_of_badRegions (s := s.setDmem m) hpk hes hreg]
    rfl
  | true =>
    have hpair := encapsPair_of_sameOutside hm hreg k hes
    cases hct : encapsPair k s with
    | none =>
      rw [encapsRule_of_noPair hpk hes hreg hct,
        encapsRule_of_noPair (s := s.setDmem m) hpk hes hreg (hpair.trans hct)]
      rfl
    | some ct =>
      cases hfit : unpackable (ct.c :: ct.v) with
      | true =>
        rw [encapsRule_of_wideScalar hpk hes hreg hct hfit,
          encapsRule_of_wideScalar (s := s.setDmem m) hpk hes hreg (hpair.trans hct) hfit]
        rfl
      | false =>
        obtain ⟨v, hv⟩ := encapsRule_of_fittingScalars hpk hes hreg hct hfit
        obtain ⟨w, hw⟩ := encapsRule_of_fittingScalars (s := s.setDmem m) hpk hes hreg (hpair.trans hct) hfit
        rw [hv, hw]
        exact encapsRule_stores_agree hm hv hw

/-- Settles O53: both runs raise the same error, or both make their stores over memories that agree outside the seed
field, which the two output regions do not meet. -/
theorem encapsIgnoresThePublicKeySeed : Obligations.EncapsIgnoresThePublicKeySeed := by
  intro s t m hm h
  have hagree := encapsRule_agreeOutside (sameOutside_publicKeySeedField.mpr hm) Config.collab
  obtain ⟨v, hv, rfl⟩ | ⟨e, he, rfl⟩ := exec_cases h
  · rw [show encapsRule Config.collab s = .ok v from hv] at hagree
    obtain ⟨w, hw, hvw⟩ := ok_of_agreeOutside hagree
    obtain ⟨-, -, hreg, -⟩ := encapsRule_ok hv
    refine ⟨_, exec_of_ok (i := .encaps) hw, (ruleOf_err (i := .encaps) hw).trans (ruleOf_err hv).symm,
      (ruleOf_errcode (i := .encaps) hw).trans (ruleOf_errcode hv).symm, fun _ _ => ⟨?_, ?_⟩⟩
    all_goals exact readBytes_otherRegion_of_sameOutside hvw hreg (by simp [encapsOtherRegions])
  · rw [show encapsRule Config.collab s = .error e from he] at hagree
    exact ⟨_, exec_of_error (i := .encaps) (error_of_agreeOutside hagree), rfl, rfl, fun _ herr => nomatch herr⟩

end Sys2Proof.Machine
end

section
/-! Modular arithmetic: each operation answers a residue and obeys the ring laws (R150, R154), and the outcomes of
MODADD, MODSUB and MODMUL (R151 to R153, R155). -/

namespace Sys2Proof.Machine

/-! ### The operations on residues (R150) -/

theorem addmod_lt {q : Nat} (hq : 0 < q) (a b : Nat) : addmod q a b < q := Nat.mod_lt _ hq

theorem mulmod_lt {q : Nat} (hq : 0 < q) (a b : Nat) : mulmod q a b < q := Nat.mod_lt _ hq

/-- The difference is reduced as a signed sample is (R182). -/
theorem submod_eq_reduceQ (q a b : Nat) : submod q a b = reduceQ q ((a : Int) - b) := rfl

theorem submod_lt {q : Nat} (hq : 0 < q) (a b : Nat) : submod q a b < q := reduceQ_lt hq _

theorem submod_of_le {q a b : Nat} (hle : b ≤ a) (ha : a < q) : submod q a b = a - b := by
  have hres : ((a : Int) - b) % q = a - b := Int.emod_eq_of_lt (by omega) (by omega)
  have hcast := reduceQ_cast (Nat.zero_lt_of_lt ha) ((a : Int) - b)
  rw [submod_eq_reduceQ]
  omega

theorem submod_of_lt {q a b : Nat} (hlt : a < b) (hb : b < q) : submod q a b = a + q - b := by
  have hres : ((a : Int) - b) % q = a - b + q := by
    rw [← Int.add_emod_right, Int.emod_eq_of_lt (by omega) (by omega)]
  have hcast := reduceQ_cast (Nat.zero_lt_of_lt hb) ((a : Int) - b)
  rw [submod_eq_reduceQ]
  omega

/-- Of two residues the difference is the one of R152. -/
theorem submod_eq_ite {q a b : Nat} (ha : a < q) (hb : b < q) :
    submod q a b = if b ≤ a then a - b else a + q - b := by
  split
  · next hle => exact submod_of_le hle ha
  · next hlt => exact submod_of_lt (Nat.not_le.mp hlt) hb

/-! ### The ring laws (R154) -/

theorem addmod_comm (q a b : Nat) : addmod q a b = addmod q b a := congrArg (· % q) (Nat.add_comm a b)

theorem mulmod_comm (q a b : Nat) : mulmod q a b = mulmod q b a := congrArg (· % q) (Nat.mul_comm a b)

theorem addmod_zero {q a : Nat} (ha : a < q) : addmod q a 0 = a := Nat.mod_eq_of_lt ha

theorem submod_self {q a : Nat} (ha : a < q) : submod q a a = 0 := by
  rw [submod_of_le le_rfl ha, Nat.sub_self]

theorem zero_submod {q a : Nat} (ha : a < q) : submod q 0 a = if a = 0 then 0 else q - a := by
  split
  · next h => subst h; exact submod_self ha
  · next h => rw [submod_of_lt (Nat.pos_of_ne_zero h) ha, Nat.zero_add]

theorem addmod_submod_cancel {q a b : Nat} (ha : a < q) (hb : b < q) : addmod q (submod q a b) b = a := by
  rcases Nat.lt_or_ge a b with hlt | hle
  · rw [submod_of_lt hlt hb, addmod, Nat.sub_add_cancel (by omega), Nat.add_mod_right, Nat.mod_eq_of_lt ha]
  · rw [submod_of_le hle ha, addmod, Nat.sub_add_cancel hle, Nat.mod_eq_of_lt ha]

theorem mulmod_addmod (q a b c : Nat) :
    mulmod q a (addmod q b c) = addmod q (mulmod q a b) (mulmod q a c) := by
  simp only [mulmod, addmod, Nat.mul_mod_mod, Nat.add_mod_mod, Nat.mod_add_mod, Nat.mul_add]

theorem mulmod_one {q a : Nat} (ha : a < q) : mulmod q a 1 = a := by
  rw [mulmod, Nat.mul_one, Nat.mod_eq_of_lt ha]

theorem mulmod_zero (q a : Nat) : mulmod q a 0 = 0 := Nat.zero_mod q

/-- Settles O33, law by law. -/
theorem modularOperationsObeyTheRingLaws : Obligations.ModularOperationsObeyTheRingLaws := fun q a b c ha hb _ =>
  ⟨addmod_comm q a b, mulmod_comm q a b, addmod_zero ha, submod_self ha, zero_submod ha, addmod_submod_cancel ha hb,
    mulmod_addmod q a b c, fun _ => mulmod_one ha, mulmod_zero q a⟩

/-! ### MODADD, MODSUB, MODMUL (R151 to R153) -/

section
variable {i : Instr} {f : Nat → Nat → Nat → Nat} {s : State} (hrule : ruleOf i s = modRule f s)
include hrule

/-- With residues as operands the result is in RES0, which holds it since `Q < 2^32` (R7). -/
theorem exec_modRule_of_residues (h0 : s.arg 0 < s.params.q) (h1 : s.arg 1 < s.params.q)
    (hf : f s.params.q (s.arg 0) (s.arg 1) < s.params.q) :
    ∃ v : Word, exec i s = .next { s.afterSuccess with res0 := v } ∧
      v.toNat = f s.params.q (s.arg 0) (s.arg 1) := by
  have hok := hrule.trans (modRule_ok_iff.mpr ⟨h0, h1, rfl⟩)
  obtain ⟨-, hq⟩ := s.params.q_bounds
  exact ⟨_, (exec_of_ok hok).trans rfl, Nat.mod_eq_of_lt (hf.trans hq)⟩

/-- An operand outside `[0, Q)` raises `OperandRange` (R155). -/
theorem exec_modRule_of_operandRange (h : s.params.q ≤ s.arg 0 ∨ s.params.q ≤ s.arg 1) :
    exec i s = .next (s.afterError 0x12) :=
  exec_of_error (e := .operandRange) (hrule.trans (if_pos h))

end

/-- Settles O30: the two outcomes of the rule, for `addmod`. -/
theorem modaddGivesTheSumModQ : Obligations.ModaddGivesTheSumModQ :=
  ⟨decode_encode .modadd, fun s =>
    ⟨fun h0 h1 => exec_modRule_of_residues (f := addmod) rfl h0 h1 (addmod_lt s.params.q_pos _ _),
      exec_modRule_of_operandRange (f := addmod) rfl⟩⟩

/-- Settles O31: of two residues `submod` is the case split of R152. -/
theorem modsubGivesTheDifferenceModQ : Obligations.ModsubGivesTheDifferenceModQ := by
  refine ⟨decode_encode .modsub, fun s => ⟨fun h0 h1 => ?_, exec_modRule_of_operandRange (f := submod) rfl⟩⟩
  rw [← submod_eq_ite h0 h1]
  exact exec_modRule_of_residues rfl h0 h1 (submod_lt s.params.q_pos _ _)

/-- Settles O32: the two outcomes of the rule, for `mulmod`. -/
theorem modmulGivesTheProductModQ : Obligations.ModmulGivesTheProductModQ :=
  ⟨decode_encode .modmul, fun s =>
    ⟨fun h0 h1 => exec_modRule_of_residues (f := mulmod) rfl h0 h1 (mulmod_lt s.params.q_pos _ _),
      exec_modRule_of_operandRange (f := mulmod) rfl⟩⟩

end Sys2Proof.Machine
end

section
/-! The two reduction datapaths (R157): Barrett's estimate of the quotient is at most one too small, and Montgomery's
`REDC` divides by `R` modulo `Q`, so the multipliers built on them are `mulmod`. -/

namespace Sys2Proof.Machine

/-- Below `2 * q` one conditional subtraction is the reduction: the last step of both datapaths. -/
theorem ite_sub_eq_mod {q r : Nat} (h : r < 2 * q) : (if q ≤ r then r - q else r) = r % q := by
  split
  · next hle => rw [Nat.mod_eq_sub_mod hle, Nat.mod_eq_of_lt (by omega)]
  · next hlt => rw [Nat.mod_eq_of_lt (Nat.not_le.mp hlt)]

/-! ### Barrett (G1) -/

theorem barrettQuotient_mul_le (q k x : Nat) : barrettQuotient q k x * q ≤ x := by
  have hle : barrettQuotient q k x ≤ x / q := by
    calc x * barrettMu q k / 2 ^ (2 * k)
        _ ≤ x * 2 ^ (2 * k) / q / 2 ^ (2 * k) := Nat.div_le_div_right (Nat.mul_div_le_mul_div_assoc ..)
        _ = x / q := by rw [Nat.div_right_comm, Nat.mul_div_cancel _ (by positivity)]
  exact (Nat.mul_le_mul_right q hle).trans (Nat.div_mul_le_self x q)

/-- The estimate is too small by less than 2: once for the floor in `mu`, as `x < 2^(2k)`, and once for its own. -/
theorem lt_barrettQuotient_add_two_mul {q k x : Nat} (hq : 0 < q) (hx : x < 2 ^ (2 * k)) :
    x < (barrettQuotient q k x + 2) * q := by
  have hpos : 0 < 2 ^ (2 * k) := by positivity
  have hmu : 2 ^ (2 * k) ≤ barrettMu q k * q + q := (Nat.lt_div_mul_add hq).le
  have hest : x * barrettMu q k ≤ barrettQuotient q k x * 2 ^ (2 * k) + 2 ^ (2 * k) := (Nat.lt_div_mul_add hpos).le
  refine Nat.lt_of_mul_lt_mul_right (a := 2 ^ (2 * k)) ?_
  calc x * 2 ^ (2 * k)
      _ ≤ x * (barrettMu q k * q + q) := Nat.mul_le_mul_left x hmu
      _ = x * barrettMu q k * q + x * q := by ring
      _ < (barrettQuotient q k x * 2 ^ (2 * k) + 2 ^ (2 * k)) * q + 2 ^ (2 * k) * q :=
        Nat.add_lt_add_of_le_of_lt (Nat.mul_le_mul_right q hest) (Nat.mul_lt_mul_of_pos_right hx hq)
      _ = (barrettQuotient q k x + 2) * q * 2 ^ (2 * k) := by ring

theorem barrettReduce_eq_mod {q k x : Nat} (hq : 0 < q) (hx : x < 2 ^ (2 * k)) : barrettReduce q k x = x % q := by
  have hle := barrettQuotient_mul_le q k x
  have hlt := lt_barrettQuotient_add_two_mul hq hx
  rw [Nat.add_mul] at hlt
  calc barrettReduce q k x
      _ = (x - barrettQuotient q k x * q) % q := ite_sub_eq_mod (by omega)
      _ = x % q := by rw [Nat.mul_comm] at hle ⊢; exact Nat.sub_mul_mod hle

/-- Settles O34: a product of residues is below `q^2`, hence in the range of the reduction. -/
theorem barrettMultiplierComputesTheResidue : Obligations.BarrettMultiplierComputesTheResidue := by
  intro q k hq hqk
  refine ⟨fun x hx => barrettReduce_eq_mod hq hx, fun a b ha hb => barrettReduce_eq_mod hq ?_⟩
  calc a * b
      _ < 2 ^ k * 2 ^ k := Nat.mul_lt_mul'' (ha.trans_le hqk) (hb.trans_le hqk)
      _ = 2 ^ (2 * k) := by rw [← pow_add, two_mul]

/-! ### Montgomery (G2) -/

/-- What the constants of a datapath must meet. -/
theorem Montgomery.ok_iff {m : Montgomery} : m.ok = true ↔
    m.q % 2 = 1 ∧ m.q < 2 ^ m.w ∧ 2 ^ m.w ∣ m.qp * m.q + 1 ∧ m.r2 = 2 ^ m.w * 2 ^ m.w % m.q := by
  simp [Montgomery.ok, and_assoc, Nat.dvd_iff_mod_eq_zero]

/-- The multiple of `Q` that `REDC` adds. -/
def Montgomery.factor (m : Montgomery) (t : Nat) : Nat := t % 2 ^ m.w * m.qp % 2 ^ m.w

/-- The value of `REDC` before its subtraction. -/
def Montgomery.quotient (m : Montgomery) (t : Nat) : Nat := (t + m.factor t * m.q) / 2 ^ m.w

theorem Montgomery.redc_eq (m : Montgomery) (t : Nat) :
    m.redc t = if m.q ≤ m.quotient t then m.quotient t - m.q else m.quotient t := rfl

section
variable {m : Montgomery} (h : m.ok = true)
include h

theorem Montgomery.q_pos_of_ok : 0 < m.q := by
  obtain ⟨hodd, -, -, -⟩ := Montgomery.ok_iff.mp h
  omega

theorem Montgomery.coprime_of_ok : m.q.Coprime (2 ^ m.w) := by
  obtain ⟨hodd, -, -, -⟩ := Montgomery.ok_iff.mp h
  exact (Nat.coprime_two_right.mpr (Nat.odd_iff.mpr hodd)).pow_right m.w

/-- `qp` is chosen so that the division by `R` is exact. -/
theorem Montgomery.quotient_mul (t : Nat) : m.quotient t * 2 ^ m.w = t + m.factor t * m.q := by
  obtain ⟨-, -, hqp, -⟩ := Montgomery.ok_iff.mp h
  have hfactor : m.factor t ≡ t * m.qp [MOD 2 ^ m.w] :=
    (Nat.mod_modEq _ _).trans ((Nat.mod_modEq t _).mul_right m.qp)
  refine Nat.div_mul_cancel (Nat.modEq_zero_iff_dvd.mp ?_)
  calc t + m.factor t * m.q
      _ ≡ t + t * m.qp * m.q [MOD 2 ^ m.w] := (hfactor.mul_right m.q).add_left t
      _ = t * (m.qp * m.q + 1) := by ring
      _ ≡ 0 [MOD 2 ^ m.w] := Nat.modEq_zero_iff_dvd.mpr (hqp.mul_left t)

theorem Montgomery.quotient_lt {t : Nat} (ht : t < 2 ^ m.w * m.q) : m.quotient t < 2 * m.q := by
  have hfactor : m.factor t * m.q < 2 ^ m.w * m.q :=
    Nat.mul_lt_mul_of_pos_right (Nat.mod_lt _ (by positivity)) (Montgomery.q_pos_of_ok h)
  refine Nat.lt_of_mul_lt_mul_right (a := 2 ^ m.w) ?_
  calc m.quotient t * 2 ^ m.w
      _ = t + m.factor t * m.q := Montgomery.quotient_mul h t
      _ < 2 ^ m.w * m.q + 2 ^ m.w * m.q := Nat.add_lt_add ht hfactor
      _ = 2 * m.q * 2 ^ m.w := by ring

theorem Montgomery.redc_eq_mod {t : Nat} (ht : t < 2 ^ m.w * m.q) : m.redc t = m.quotient t % m.q := by
  rw [Montgomery.redc_eq, ite_sub_eq_mod (Montgomery.quotient_lt h ht)]

theorem Montgomery.redc_lt {t : Nat} (ht : t < 2 ^ m.w * m.q) : m.redc t < m.q := by
  rw [Montgomery.redc_eq_mod h ht]
  exact Nat.mod_lt _ (Montgomery.q_pos_of_ok h)

/-- `REDC` divides by `R` modulo `Q`. -/
theorem Montgomery.redc_mul_modEq {t : Nat} (ht : t < 2 ^ m.w * m.q) : m.redc t * 2 ^ m.w ≡ t [MOD m.q] := by
  calc m.redc t * 2 ^ m.w
      _ = m.quotient t % m.q * 2 ^ m.w := by rw [Montgomery.redc_eq_mod h ht]
      _ ≡ m.quotient t * 2 ^ m.w [MOD m.q] := (Nat.mod_modEq _ _).mul_right _
      _ = t + m.factor t * m.q := Montgomery.quotient_mul h t
      _ ≡ t [MOD m.q] := Nat.add_mul_mod_self_right ..

/-- A product of residues is in the range of `REDC`, since `Q < R`. -/
theorem Montgomery.product_lt {a b : Nat} (ha : a < m.q) (hb : b < m.q) : a * b < 2 ^ m.w * m.q := by
  obtain ⟨-, hqw, -, -⟩ := Montgomery.ok_iff.mp h
  exact Nat.mul_lt_mul'' (ha.trans hqw) hb

/-- The second `REDC` takes back the `R^(-1)` of the first: `R` is a unit modulo `Q`. -/
theorem Montgomery.mul_eq_mulmod {a b : Nat} (ha : a < m.q) (hb : b < m.q) : m.mul a b = mulmod m.q a b := by
  obtain ⟨-, -, -, hr2⟩ := Montgomery.ok_iff.mp h
  have hab := Montgomery.product_lt h ha hb
  have hr2lt : m.r2 < m.q := hr2 ▸ Nat.mod_lt _ (Montgomery.q_pos_of_ok h)
  have hprod := Montgomery.product_lt h (Montgomery.redc_lt h hab) hr2lt
  have hscaled : m.mul a b * 2 ^ m.w ≡ a * b * 2 ^ m.w [MOD m.q] := by
    calc m.mul a b * 2 ^ m.w
        _ ≡ m.redc (a * b) * m.r2 [MOD m.q] := Montgomery.redc_mul_modEq h hprod
        _ ≡ m.redc (a * b) * (2 ^ m.w * 2 ^ m.w) [MOD m.q] := by rw [hr2]; exact (Nat.mod_modEq _ _).mul_left _
        _ = m.redc (a * b) * 2 ^ m.w * 2 ^ m.w := (Nat.mul_assoc ..).symm
        _ ≡ a * b * 2 ^ m.w [MOD m.q] := (Montgomery.redc_mul_modEq h hab).mul_right _
  have hmod : m.mul a b ≡ a * b [MOD m.q] := hscaled.cancel_right_of_coprime (Montgomery.coprime_of_ok h)
  exact (Nat.mod_eq_of_lt (Montgomery.redc_lt h hprod)).symm.trans hmod

end

/-- Settles O35: the two laws of `REDC`, and the multiplier that applies it twice. -/
theorem montgomeryMultiplierComputesTheResidue : Obligations.MontgomeryMultiplierComputesTheResidue := fun _ h =>
  ⟨fun _ ht => ⟨Montgomery.redc_lt h ht, Montgomery.redc_mul_modEq h ht⟩, fun _ _ => Montgomery.mul_eq_mulmod h⟩

end Sys2Proof.Machine
end

section
/-! The sampler's commands (R183 to R189): their outcomes in test order and what each writes. SAMPLEU and SAMPLEG are
one shape of rule, RANDMAT and RANDERR another. -/

namespace Sys2Proof.Machine

/-! ### The tests -/

/-- The test of R175 fails on exactly the draws that stay within the stream. -/
theorem State.exhausted_eq_false {s : State} {w : Nat} : s.exhausted w = false ↔ s.rngPos.toNat + w ≤ 2 ^ 64 - 1 := by
  simp [State.exhausted]

theorem State.exhausted_eq_true {s : State} {w : Nat} : s.exhausted w = true ↔ 2 ^ 64 - 1 < s.rngPos.toNat + w := by
  simp [State.exhausted]

theorem regionsOK_single_eq_false {size a len : Nat} :
    regionsOK size [⟨a, len⟩] = false ↔ len ≠ 0 ∧ size < a + len := by
  rw [← Bool.not_eq_true, regionsOK_single, not_or, Nat.not_le]

/-- The region of an element array of `cnt` words. -/
theorem regionsOK_elements {size a cnt : Nat} (h : cnt = 0 ∨ a + cnt * 4 ≤ size) :
    regionsOK size [⟨a, cnt * 4⟩] = true :=
  regionsOK_single.mpr (h.imp_left fun hcnt => by rw [hcnt])

/-! ### RNGSEED and RNGCLR (R183, R184) -/

theorem getElem_readSeed (m : Memory) (a : Nat) (k : Fin 32) : (m.readSeed a)[k] = m.read (a + k.val) := by
  simp [Memory.readSeed]

theorem rngseedRule_of_short {s : State} (hlen : s.arg 1 < 32) : rngseedRule s = .error .randomGeneration :=
  if_pos hlen

section
variable {s : State} (hlen : 32 ≤ s.arg 1)
include hlen

theorem rngseedRule_of_badRegion (hreg : regionsOK s.params.dmemSize [⟨s.arg 0, s.arg 1⟩] = false) :
    rngseedRule s = .error .addressRange := by
  simp [rngseedRule, Nat.not_lt.mpr hlen, hreg]

theorem rngseedRule_of_goodRegion (hreg : regionsOK s.params.dmemSize [⟨s.arg 0, s.arg 1⟩] = true) :
    rngseedRule s = .ok (s.setRng true (s.dmem.readSeed (s.arg 0)) 0) := by
  simp [rngseedRule, Nat.not_lt.mpr hlen, hreg]

end

/-- Settles O39: the three outcomes of the rule. -/
theorem rngseedStartsTheStream : Obligations.RngseedStartsTheStream := by
  refine ⟨decode_encode .rngseed, fun s =>
    ⟨fun hlen => exec_of_error (i := .rngseed) (rngseedRule_of_short hlen), fun hlen hsize => ?_, fun hlen hsize => ?_⟩⟩
  · have hreg := regionsOK_single_eq_false.mpr ⟨by omega, hsize⟩
    exact exec_of_error (i := .rngseed) (rngseedRule_of_badRegion hlen hreg)
  · have hreg := regionsOK_single (r := ⟨s.arg 0, s.arg 1⟩).mpr (.inr hsize)
    exact ⟨_, exec_of_ok (i := .rngseed) (rngseedRule_of_goodRegion hlen hreg), rfl, getElem_readSeed s.dmem (s.arg 0)⟩

/-- Settles O40: the rule tests nothing. -/
theorem rngclrErasesTheContext : Obligations.RngclrErasesTheContext :=
  ⟨decode_encode .rngclr, fun _ => exec_of_ok (i := .rngclr) rfl⟩

/-! ### SAMPLEU and SAMPLEG (R186, R187) -/

/-- The shape of R186 and R187: a context, then enough words left, then a result of the words drawn. -/
def drawResult (s : State) (words : Nat) (v : Word) : Except ErrorKind State :=
  if s.rngValid = false then .error .rngUnseeded
  else if s.exhausted words then .error .randomGeneration
  else .ok ((s.setRes0 v).advance words)

theorem sampleuRule_eq_drawResult (k : Collaborators) (s : State) : sampleuRule k s =
    drawResult s 1 (BitVec.ofNat 32 (uniformAt k s.params.q s.rngSeed s.rngPos.toNat)) := rfl

theorem samplegRule_eq_drawResult (k : Collaborators) (s : State) : samplegRule k s =
    drawResult s 2 (BitVec.ofInt 32 (gaussAt k s.params.sigma s.rngSeed s.rngPos.toNat)) := rfl

section
variable {i : Instr} {s : State} {words : Nat} {v : Word} (hrule : ruleOf i s = drawResult s words v)
include hrule

theorem exec_drawResult_of_noContext (hv : s.rngValid = false) : exec i s = .next (s.afterError 0x14) :=
  exec_of_error (e := .rngUnseeded) (hrule.trans (if_pos hv))

theorem exec_drawResult_of_exhausted (hv : s.rngValid = true) (hpos : 2 ^ 64 - 1 < s.rngPos.toNat + words) :
    exec i s = .next (s.afterError 0x04) := by
  refine exec_of_error (e := .randomGeneration) (hrule.trans ?_)
  simp [drawResult, hv, State.exhausted_eq_true.mpr hpos]

theorem exec_drawResult_of_words (hv : s.rngValid = true) (hpos : s.rngPos.toNat + words ≤ 2 ^ 64 - 1) :
    exec i s = .next { s.afterSuccess with res0 := v, rngPos := s.rngPos + BitVec.ofNat 64 words } := by
  refine exec_of_ok (t := (s.setRes0 v).advance words) (hrule.trans ?_)
  simp [drawResult, hv, State.exhausted_eq_false.mpr hpos]

end

/-- A uniform element fits a register, since `Q < 2^32` (R7). -/
theorem uniformAt_toNat (k : Collaborators) (p : Params) (seed : Seed) (pos : Nat) :
    (BitVec.ofNat 32 (uniformAt k p.q seed pos)).toNat = uniformAt k p.q seed pos :=
  Nat.mod_eq_of_lt ((uniformAt_lt k p seed pos).trans p.q_bounds.2)

/-- Settles O41: the three outcomes of the rule; the residue fits RES0. -/
theorem sampleuDrawsOneResidue : Obligations.SampleuDrawsOneResidue :=
  ⟨decode_encode .sampleu, fun s =>
    have hrule : ruleOf .sampleu s = _ := sampleuRule_eq_drawResult Config.collab s
    ⟨exec_drawResult_of_noContext hrule, exec_drawResult_of_exhausted hrule, fun hv hpos =>
      ⟨_, exec_drawResult_of_words hrule hv hpos, uniformAt_toNat Config.collab s.params s.rngSeed s.rngPos.toNat⟩⟩⟩

/-! ### The signed sample (R178) -/

theorem clampI32_eq_ite (z : Int) :
    clampI32 z = if z < -2147483648 then -2147483648 else if 2147483647 < z then 2147483647 else z := by
  unfold clampI32
  split_ifs <;> omega

theorem clampI32_bounds (z : Int) : -2147483648 ≤ clampI32 z ∧ clampI32 z ≤ 2147483647 := by
  unfold clampI32
  omega

/-- The sample is in the range of 32 bits, by the clamp or, for a NaN, because it is given by 32 bits. -/
theorem gaussCore_bounds (k : Collaborators) (w1 w2 : Word) (sigma : F64) :
    -2147483648 ≤ gaussCore k w1 w2 sigma ∧ gaussCore k w1 w2 sigma ≤ 2147483647 := by
  dsimp only [gaussCore]
  split
  · have hlo := BitVec.le_toInt (k.gaussNaN w1 w2 sigma)
    have hhi := BitVec.toInt_lt (x := k.gaussNaN w1 w2 sigma)
    norm_num at hlo hhi
    omega
  · exact clampI32_bounds _
  · exact clampI32_bounds _

/-- Two's complement on 32 bits holds the sample exactly. -/
theorem toInt_ofInt_gaussCore (k : Collaborators) (w1 w2 : Word) (sigma : F64) :
    (BitVec.ofInt 32 (gaussCore k w1 w2 sigma)).toInt = gaussCore k w1 w2 sigma := by
  obtain ⟨hlo, hhi⟩ := gaussCore_bounds k w1 w2 sigma
  exact BitVec.toInt_ofInt_eq_self (by norm_num) (by norm_num; omega) (by norm_num; omega)

theorem gaussCore_of_finite {k : Collaborators} {w1 w2 : Word} {sigma : F64} {neg : Bool} {m : Nat} {e : Int}
    (h : f64Val (fmul (fmul (fsqrt (fmul minusTwo (k.ln64 (u01 w1)))) (k.cos64 (fmul twoPi (u01 w2)))) sigma) =
      .fin neg m e) :
    gaussCore k w1 w2 sigma = clampI32 (roundHalfAway neg m e) := by
  simp only [gaussCore, h]

/-- The magnitude `roundHalfAway` answers. -/
def roundHalfUp (m : Nat) (e : Int) : Nat :=
  if 0 ≤ e then m * 2 ^ e.toNat else (2 * m + 2 ^ (-e).toNat) / (2 * 2 ^ (-e).toNat)

theorem roundHalfAway_eq (neg : Bool) (m : Nat) (e : Int) :
    roundHalfAway neg m e = if neg then -(roundHalfUp m e : Int) else roundHalfUp m e := rfl

/-- A magnitude is rounded to the integer that lies less than 1/2 below it or at most 1/2 above it. -/
theorem roundHalfUp_bounds (m : Nat) (e : Int) :
    (m : ℚ) * 2 ^ e - 1 / 2 < roundHalfUp m e ∧ (roundHalfUp m e : ℚ) ≤ m * 2 ^ e + 1 / 2 := by
  unfold roundHalfUp
  split
  · next he =>
    obtain ⟨d, rfl⟩ := Int.eq_ofNat_of_zero_le he
    norm_num
  · next he =>
    obtain ⟨d, rfl⟩ : ∃ d : Nat, e = -(d : Int) := ⟨(-e).toNat, by omega⟩
    rw [neg_neg, Int.toNat_natCast, zpow_neg, zpow_natCast, ← div_eq_mul_inv]
    have hpos : 0 < 2 * 2 ^ d := by positivity
    have hle : (((2 * m + 2 ^ d) / (2 * 2 ^ d) * (2 * 2 ^ d) : Nat) : ℚ) ≤ ((2 * m + 2 ^ d : Nat) : ℚ) :=
      Nat.cast_le.mpr (Nat.div_mul_le_self _ _)
    have hlt : ((2 * m + 2 ^ d : Nat) : ℚ) < (((2 * m + 2 ^ d) / (2 * 2 ^ d) * (2 * 2 ^ d) + 2 * 2 ^ d : Nat) : ℚ) :=
      Nat.cast_lt.mpr (Nat.lt_div_mul_add hpos)
    generalize (2 * m + 2 ^ d) / (2 * 2 ^ d) = mag at hle hlt
    push_cast at hle hlt
    have hd : (0 : ℚ) < 2 ^ d := by positivity
    constructor
    · rw [sub_lt_iff_lt_add, div_lt_iff₀ hd]
      linarith
    · rw [← sub_le_iff_le_add, le_div_iff₀ hd]
      linarith

/-- A nearest integer, and at a tie the one farther from zero (R178, G3). -/
theorem roundHalfAway_nearest (neg : Bool) (m : Nat) (e : Int) :
    |(F64Val.fin neg m e).rat - roundHalfAway neg m e| ≤ 1 / 2 ∧
      (|(F64Val.fin neg m e).rat - roundHalfAway neg m e| = 1 / 2 →
        |(F64Val.fin neg m e).rat| < |(roundHalfAway neg m e : ℚ)|) := by
  obtain ⟨hlo, hhi⟩ := roundHalfUp_bounds m e
  have hx : (0 : ℚ) ≤ m * 2 ^ e := by positivity
  have hz : (0 : ℚ) ≤ roundHalfUp m e := Nat.cast_nonneg _
  -- both signs reduce to the magnitudes
  have hdist : |(F64Val.fin neg m e).rat - roundHalfAway neg m e| = |m * 2 ^ e - (roundHalfUp m e : ℚ)| := by
    cases neg
    · simp [roundHalfAway_eq, F64Val.rat]
    · rw [← abs_neg]; congr 1; simp [roundHalfAway_eq, F64Val.rat]; ring
  have habs : |(F64Val.fin neg m e).rat| = m * 2 ^ e ∧ |(roundHalfAway neg m e : ℚ)| = roundHalfUp m e := by
    cases neg <;> simp [roundHalfAway_eq, F64Val.rat, abs_of_nonneg hx]
  rw [hdist, habs.1, habs.2]
  refine ⟨abs_le.mpr ⟨by linarith, by linarith⟩, fun htie => ?_⟩
  rcases abs_eq (by norm_num) |>.mp htie with h | h <;> linarith

/-- The decoded value of the constant -2.0. -/
theorem f64Val_minusTwo : f64Val minusTwo = .fin true (2 ^ 52) (-51) := rfl

/-- Settles O42: the three outcomes of the rule, then what the sample is. -/
theorem samplegDrawsOneSignedSample : Obligations.SamplegDrawsOneSignedSample := by
  refine ⟨decode_encode .sampleg, fun s => ?outcomes, ?sample, ⟨?minusTwo, rfl⟩, ?rounding, clampI32_eq_ite⟩
  case outcomes =>
    have hrule : ruleOf .sampleg s = _ := samplegRule_eq_drawResult Config.collab s
    exact ⟨exec_drawResult_of_noContext hrule, exec_drawResult_of_exhausted hrule, fun hv hpos =>
      ⟨_, exec_drawResult_of_words hrule hv hpos, toInt_ofInt_gaussCore Config.collab _ _ s.params.sigma⟩⟩
  case sample =>
    rintro k w1 w2 sigma x rfl
    exact ⟨fun neg m e h => gaussCore_of_finite h, gaussCore_bounds k w1 w2 sigma⟩
  case minusTwo =>
    rw [f64Val_minusTwo]
    norm_num [F64Val.rat]
  case rounding =>
    rintro neg m e z v rfl rfl
    exact roundHalfAway_nearest neg m e

/-! ### RANDMAT and RANDERR (R188, R189) -/

/-- The shape of R188 and R189: a context, then the region of the array, then enough words left, then the store. -/
def drawArray (s : State) (dst words : Nat) (xs : List Nat) : Except ErrorKind State :=
  if s.rngValid = false then .error .rngUnseeded
  else if regionsOK s.params.dmemSize [⟨dst, xs.length * 4⟩] = false then .error .addressRange
  else if s.exhausted words then .error .randomGeneration
  else .ok ((s.setDmem (s.dmem.writeBytes dst (elemBytes xs))).advance words)

theorem randmatRule_eq_drawArray (k : Collaborators) (s : State) : randmatRule k s =
    drawArray s (s.arg 2) (s.arg 0 * s.arg 1)
      (uniforms k s.params.q s.rngSeed s.rngPos.toNat (s.arg 0 * s.arg 1)) := by
  simp only [drawArray, length_uniforms]
  rfl

theorem randerrRule_eq_drawArray (k : Collaborators) (s : State) : randerrRule k s =
    drawArray s (s.arg 1) (2 * s.arg 0) (errorVector k s.params s.rngSeed s.rngPos.toNat (s.arg 0)) := by
  simp only [drawArray, length_errorVector]
  rfl

section
variable {i : Instr} {s : State} {dst words cnt : Nat} {xs : List Nat}
  (hrule : ruleOf i s = drawArray s dst words xs) (hcnt : xs.length = cnt)
include hrule

theorem exec_drawArray_of_noContext (hv : s.rngValid = false) : exec i s = .next (s.afterError 0x14) :=
  exec_of_error (e := .rngUnseeded) (hrule.trans (if_pos hv))

include hcnt

theorem exec_drawArray_of_badRegion (hv : s.rngValid = true) (hne : cnt ≠ 0)
    (hsize : s.params.dmemSize < dst + cnt * 4) : exec i s = .next (s.afterError 0x11) := by
  have hreg : regionsOK s.params.dmemSize [⟨dst, cnt * 4⟩] = false :=
    regionsOK_single_eq_false.mpr ⟨by omega, hsize⟩
  refine exec_of_error (e := .addressRange) (hrule.trans ?_)
  simp [drawArray, hv, hcnt, hreg]

variable (hv : s.rngValid = true) (hsize : cnt = 0 ∨ dst + cnt * 4 ≤ s.params.dmemSize)
include hv hsize

theorem exec_drawArray_of_exhausted (hpos : 2 ^ 64 - 1 < s.rngPos.toNat + words) :
    exec i s = .next (s.afterError 0x04) := by
  have hreg := regionsOK_elements hsize
  refine exec_of_error (e := .randomGeneration) (hrule.trans ?_)
  simp [drawArray, hv, hcnt, hreg, State.exhausted_eq_true.mpr hpos]

theorem ruleOf_drawArray_of_words (hpos : s.rngPos.toNat + words ≤ 2 ^ 64 - 1) :
    ruleOf i s = .ok ((s.setDmem (s.dmem.writeBytes dst (elemBytes xs))).advance words) := by
  have hreg := regionsOK_elements hsize
  rw [hrule]
  simp [drawArray, hv, hcnt, hreg, State.exhausted_eq_false.mpr hpos]

end

/-- Word `j` that RANDMAT writes is the uniform element of stream word `j` from the position on. -/
theorem randmatRule_word {k : Collaborators} {s t : State} (h : randmatRule k s = .ok t) {j : Nat}
    (hj : j < s.arg 0 * s.arg 1) :
    t.dmem.readLE (s.arg 2 + 4 * j) 4 = uniformAt k s.params.q s.rngSeed (s.rngPos.toNat + j) := by
  obtain ⟨-, -, -, rfl⟩ := randmatRule_ok h
  have hlt : j < (uniforms k s.params.q s.rngSeed s.rngPos.toNat (s.arg 0 * s.arg 1)).length := by simpa using hj
  have hfit := (uniforms_lt (List.getElem_mem hlt)).trans s.params.q_bounds.2
  exact (Memory.readLE_writeBytes_scalars s.dmem (s.arg 2) 4 _ j hlt hfit).trans (getElem_uniforms ..)

/-- Word `j` that RANDERR writes is the reduced sample of the `j`-th pair of stream words from the position on. -/
theorem randerrRule_word {k : Collaborators} {s t : State} (h : randerrRule k s = .ok t) {j : Nat}
    (hj : j < s.arg 0) :
    t.dmem.readLE (s.arg 1 + 4 * j) 4 =
      reduceQ s.params.q (gaussAt k s.params.sigma s.rngSeed (s.rngPos.toNat + 2 * j)) := by
  obtain ⟨-, -, -, rfl⟩ := randerrRule_ok h
  have hlt : j < (errorVector k s.params s.rngSeed s.rngPos.toNat (s.arg 0)).length := by simpa using hj
  have hfit := (errorVector_lt (List.getElem_mem hlt)).trans s.params.q_bounds.2
  exact (Memory.readLE_writeBytes_scalars s.dmem (s.arg 1) 4 _ j hlt hfit).trans (getElem_errorVector ..)

/-- Settles O43: the four outcomes of the rule, then what its one store holds. -/
theorem randmatWritesUniformWords : Obligations.RandmatWritesUniformWords := by
  refine ⟨decode_encode .randmat, ?_⟩
  rintro s _ rfl
  have hrule : ruleOf .randmat s = _ := randmatRule_eq_drawArray Config.collab s
  have hcnt := length_uniforms Config.collab s.params.q s.rngSeed s.rngPos.toNat (s.arg 0 * s.arg 1)
  refine ⟨exec_drawArray_of_noContext hrule, fun hv => ⟨exec_drawArray_of_badRegion hrule hcnt hv, fun hsize =>
    ⟨exec_drawArray_of_exhausted hrule hcnt hv hsize, fun hpos => ?_⟩⟩⟩
  have hok := ruleOf_drawArray_of_words hrule hcnt hv hsize hpos
  have hexec := exec_of_ok hok
  exact ⟨_, hexec, rfl, advance_toNat (State.exhausted_eq_false.mpr hpos), fun _ => randmatRule_word hok,
    exec_sameOutside hexec⟩

/-- Settles O44: the four outcomes of the rule, then what its one store holds. -/
theorem randerrWritesReducedSamples : Obligations.RanderrWritesReducedSamples := by
  refine ⟨decode_encode .randerr, ?_⟩
  rintro s _ rfl
  have hrule : ruleOf .randerr s = _ := randerrRule_eq_drawArray Config.collab s
  have hcnt := length_errorVector Config.collab s.params s.rngSeed s.rngPos.toNat (s.arg 0)
  refine ⟨exec_drawArray_of_noContext hrule, fun hv => ⟨exec_drawArray_of_badRegion hrule hcnt hv, fun hsize =>
    ⟨exec_drawArray_of_exhausted hrule hcnt hv hsize, fun hpos => ?_⟩⟩⟩
  have hok := ruleOf_drawArray_of_words hrule hcnt hv hsize hpos
  have hexec := exec_of_ok hok
  refine ⟨_, hexec, rfl, advance_toNat (State.exhausted_eq_false.mpr hpos), fun k hk => ?_, exec_sameOutside hexec⟩
  exact (congrArg Int.ofNat (randerrRule_word hok hk)).trans (reduceQ_cast s.params.q_pos _)

/-- Settles O45: the position of word `k` is within the draw that RANDMAT checked, so SAMPLEU completes there, with the
element that RANDMAT wrote. -/
theorem randmatAgreesWithRepeatedSampleu : Obligations.RandmatAgreesWithRepeatedSampleu := by
  intro s t k _ h herr hk
  obtain ⟨u, hu, rfl⟩ := exec_ok_of_err h herr
  obtain ⟨hv, -, hdraw, -⟩ := randmatRule_ok hu
  have hend := State.exhausted_eq_false.mp hdraw
  have hpos : (s.rngPos + BitVec.ofNat 64 k).toNat = s.rngPos.toNat + k :=
    advance_toNat (State.exhausted_eq_false.mpr (by omega))
  refine ⟨_, exec_drawResult_of_words (i := .sampleu) (sampleuRule_eq_drawResult Config.collab _) hv
    (show (s.rngPos + BitVec.ofNat 64 k).toNat + 1 ≤ _ by omega), ?_⟩
  calc (BitVec.ofNat 32 (uniformAt Config.collab s.params.q s.rngSeed (s.rngPos + BitVec.ofNat 64 k).toNat)).toNat
      _ = uniformAt Config.collab s.params.q s.rngSeed (s.rngPos + BitVec.ofNat 64 k).toNat := uniformAt_toNat ..
      _ = uniformAt Config.collab s.params.q s.rngSeed (s.rngPos.toNat + k) := by rw [hpos]
      _ = u.dmem.readLE (s.arg 2 + 4 * k) 4 := (randmatRule_word hu hk).symm

/-! ### The reduction of signed samples (R182) -/

/-- Any inner remainder above `-q` serves: adding `q` makes it positive, and the outer remainder is then Euclidean. -/
theorem tmod_add_eq_emod {q r d x : Int} (hr : r + q * d = x) (hlo : -q < r) : (r + q).tmod q = x % q := by
  rw [Int.tmod_eq_emod_of_nonneg (by omega), Int.add_emod_right, ← hr, Int.add_mul_emod_self_left]

/-- Settles O46: both readings of the inner `mod` give a remainder above `-q`. -/
theorem reductionOfSignedSamplesIsTheResidue : Obligations.ReductionOfSignedSamplesIsTheResidue := by
  intro q x hq
  have hq' : (0 : Int) < q := Int.natCast_pos.mpr hq
  refine ⟨?truncated, ?floored, reduceQ_lt hq x⟩
  case truncated =>
    have hlo : -(q : Int) < x.tmod q := Int.lt_tmod_of_pos x hq'
    rw [reduceQ_cast hq, tmod_add_eq_emod (Int.tmod_add_mul_tdiv x q) hlo]
  case floored =>
    have hlo : 0 ≤ x.fmod q := Int.fmod_nonneg_of_pos x hq'
    rw [reduceQ_cast hq, tmod_add_eq_emod (Int.fmod_add_mul_fdiv x q) (by omega)]

end Sys2Proof.Machine
end

section
/-! The sampler's arithmetic (R177, R178, G4): `U01` is exact, `fmul` and `fsqrt` round correctly, and their signs,
infinities and NaNs are those of IEEE 754. -/

namespace Sys2Proof.Machine

/-! ### Finite values -/

theorem eq_fin_of_isFinite {v : F64Val} (h : v.isFinite = true) : ∃ neg m e, v = .fin neg m e := by
  cases v with
  | nan => cases h
  | inf neg => cases h
  | fin neg m e => exact ⟨neg, m, e, rfl⟩

theorem rat_fin_eq_zero_iff {neg : Bool} {m : Nat} {e : Int} : (F64Val.fin neg m e).rat = 0 ↔ m = 0 := by
  have hpow : (2 : ℚ) ^ e ≠ 0 := zpow_ne_zero e two_ne_zero
  cases neg <;> simp [F64Val.rat, hpow]

theorem rat_fin_neg_iff {neg : Bool} {m : Nat} {e : Int} : (F64Val.fin neg m e).rat < 0 ↔ neg = true ∧ m ≠ 0 := by
  have hpow : (0 : ℚ) < 2 ^ e := zpow_pos two_pos e
  cases neg
  · have hnonneg : (0 : ℚ) ≤ m * 2 ^ e := by positivity
    simpa [F64Val.rat] using hnonneg
  · simp [F64Val.rat, hpow, Nat.pos_iff_ne_zero]

theorem signFactor_mul (a b : Bool) : signFactor a * signFactor b = signFactor (xor a b) := by
  cases a <;> cases b <;> simp [signFactor]

/-- The product of two finite values, as `fmul` hands it to the rounding. -/
theorem rat_fin_mul (a b : Bool) (m m' : Nat) (e e' : Int) :
    ((F64Val.fin a m e).rat : ℝ) * ((F64Val.fin b m' e').rat : ℝ) =
      signFactor (xor a b) * (((m * m' : Nat) : ℝ) * 2 ^ (e + e')) := by
  rw [rat_fin, rat_fin, ← signFactor_mul, zpow_add₀ two_ne_zero]
  push_cast
  ring

/-! ### `roundToF64` of a zero and of a value it can hold -/

theorem roundToF64_zero (neg : Bool) (e : Int) : roundToF64 neg 0 e = BitVec.ofNat 64 (f64Sign neg) := if_pos rfl

theorem f64Val_signedZero (neg : Bool) : f64Val (BitVec.ofNat 64 (f64Sign neg)) = .fin neg 0 (-1074) := by
  cases neg <;> rfl

theorem msb_signedZero (neg : Bool) : (BitVec.ofNat 64 (f64Sign neg)).msb = neg := by
  cases neg <;> rfl

/-- A significand of at most 53 bits is held exactly, where the exponents reach neither end of the range. -/
theorem roundToF64_exact (neg : Bool) {m : Nat} {e : Int} (hm : m ≠ 0) (hm53 : m < 2 ^ 53) (hlo : -1022 ≤ e)
    (hhi : e ≤ 970) :
    ∃ m' e', f64Val (roundToF64 neg m e) = .fin neg m' e' ∧ (m' : ℝ) * (2 : ℝ) ^ e' = m * (2 : ℝ) ^ e := by
  have hlog : Nat.log2 m ≤ 52 := Nat.le_of_lt_succ ((Nat.log2_lt hm).mpr hm53)
  obtain ⟨d, hd⟩ := Nat.exists_eq_add_of_le hlog
  obtain ⟨u, hu⟩ : ∃ u : Nat, e = (u : Int) - 1074 + d := ⟨(e - d + 1074).toNat, by omega⟩
  -- shifted up by `d`, the significand fills 53 bits
  have hnormal : 2 ^ 52 ≤ m * 2 ^ d := by
    calc 2 ^ 52 = 2 ^ Nat.log2 m * 2 ^ d := by rw [← pow_add, ← hd]
      _ ≤ m * 2 ^ d := Nat.mul_le_mul_right _ (Nat.log2_self_le hm)
  have hfits : m * 2 ^ d < 2 ^ 53 := by
    calc m * 2 ^ d < 2 ^ (Nat.log2 m + 1) * 2 ^ d := Nat.mul_lt_mul_of_pos_right Nat.lt_log2_self (by positivity)
      _ = 2 ^ 53 := by rw [← pow_add, Nat.add_right_comm, ← hd]
  have hbits : u * 2 ^ 52 + m * 2 ^ d < 2047 * 2 ^ 52 := by omega
  have hform : roundToF64 neg m e = BitVec.ofNat 64 (f64Sign neg + (u * 2 ^ 52 + m * 2 ^ d)) := by
    have hulp : max ((Nat.log2 m : Int) + e - 52) (-1074) = (u : Int) - 1074 := by omega
    have hshift : (e - ((u : Int) - 1074)).toNat = d := by omega
    have hfield : ((u : Int) - 1074 + 1074).toNat = u := by omega
    have hexact : (u : Int) - 1074 ≤ e := by omega
    simp only [roundToF64, if_neg hm, hulp, hshift, hfield, if_pos hexact, if_neg (Nat.not_le.mpr hbits)]
  obtain ⟨m', e', hval, heq⟩ := rat_of_significand neg u (m * 2 ^ d) (.inr hnormal) hfits.le hbits
  refine ⟨m', e', hform ▸ hval, heq.trans ?_⟩
  rw [hu, zpow_add₀ two_ne_zero, zpow_natCast]
  push_cast
  ring

/-! ### `U01` (R177) -/

theorem u01_exact (w : Word) : ∃ (m : Nat) (e : Int), f64Val (u01 w) = .fin false m e ∧
    (m : ℚ) * (2 : ℚ) ^ e = (2 * w.toNat + 1 : ℚ) / 2 ^ 33 := by
  have hw := w.isLt
  obtain ⟨m, e, hval, heq⟩ := roundToF64_exact false (m := 2 * w.toNat + 1) (e := -33) (by omega) (by omega)
    (by norm_num) (by norm_num)
  refine ⟨m, e, hval, ?_⟩
  rw [zpow_neg, ← div_eq_mul_inv, zpow_ofNat] at heq
  apply Rat.cast_injective (α := ℝ)
  push_cast at heq ⊢
  exact heq

/-! ### `fmul` (R178) -/

section
variable {x y : F64}

theorem fmul_nan (h : f64Val x = .nan ∨ f64Val y = .nan) : fmul x y = f64NaN := by
  rcases h with h | h
  · simp only [fmul, h]
  · cases hx : f64Val x <;> simp only [fmul, hx, h]

theorem fmul_inf_inf {a b : Bool} (hx : f64Val x = .inf a) (hy : f64Val y = .inf b) : fmul x y = f64Inf (xor a b) := by
  simp only [fmul, hx, hy]

theorem fmul_inf_fin {a b : Bool} {m : Nat} {e : Int} (hx : f64Val x = .inf a) (hy : f64Val y = .fin b m e) :
    fmul x y = if m = 0 then f64NaN else f64Inf (xor a b) := by
  simp only [fmul, hx, hy]

theorem fmul_fin_inf {a b : Bool} {m : Nat} {e : Int} (hx : f64Val x = .fin a m e) (hy : f64Val y = .inf b) :
    fmul x y = if m = 0 then f64NaN else f64Inf (xor a b) := by
  simp only [fmul, hx, hy]

theorem fmul_fin_fin {a b : Bool} {m m' : Nat} {e e' : Int} (hx : f64Val x = .fin a m e) (hy : f64Val y = .fin b m' e') :
    fmul x y = roundToF64 (xor a b) (m * m') (e + e') := by
  simp only [fmul, hx, hy]

/-- An infinity times a finite value, in either order, is a NaN for a zero and else the infinity of the sign. -/
theorem f64Val_inf_or_nan {sign neg : Bool} {m : Nat} {e : Int} :
    f64Val (if m = 0 then f64NaN else f64Inf sign) =
      if (F64Val.fin neg m e).rat = 0 then .nan else .inf sign := by
  by_cases hm : m = 0
  · rw [if_pos hm, if_pos (rat_fin_eq_zero_iff.mpr hm), f64Val_nan]
  · rw [if_neg hm, if_neg (mt rat_fin_eq_zero_iff.mp hm), f64Val_inf]

/-- The product of finite values is correctly rounded, with the sign of the product. -/
theorem fmul_rounds (hx : (f64Val x).isFinite = true) (hy : (f64Val y).isFinite = true) :
    roundsTo ((f64Val x).rat * (f64Val y).rat) (fmul x y) ∧ (fmul x y).msb = xor x.msb y.msb := by
  obtain ⟨a, m, e, hx⟩ := eq_fin_of_isFinite hx
  obtain ⟨b, m', e', hy⟩ := eq_fin_of_isFinite hy
  obtain ⟨rfl, -, -⟩ := f64Val_fin_bounds hx
  obtain ⟨rfl, -, -⟩ := f64Val_fin_bounds hy
  rw [fmul_fin_fin hx hy, hx, hy, rat_fin_mul]
  by_cases hm : m * m' = 0
  · rw [hm, Nat.cast_zero, zero_mul, mul_zero, roundToF64_zero]
    exact ⟨roundsTo_zero (f64Val_signedZero _), msb_signedZero _⟩
  · exact roundToF64_rounds _ _ hm (.inl rfl)

end

/-! ### `fsqrt` (R178) -/

section
variable {x : F64}

theorem fsqrt_nan (h : (f64Val x).rat < 0 ∨ f64Val x = .nan ∨ f64Val x = .inf true) : fsqrt x = f64NaN := by
  rcases h with h | h | h
  · cases hx : f64Val x with
    | nan => simp only [fsqrt, hx]
    | inf neg => rw [hx] at h; exact absurd h (lt_irrefl 0)
    | fin neg m e =>
      rw [hx] at h
      obtain ⟨rfl, hm⟩ := rat_fin_neg_iff.mp h
      simp only [fsqrt, hx, if_neg hm, if_true]
  · simp only [fsqrt, h]
  · simp only [fsqrt, h, if_true]

theorem fsqrt_inf (h : f64Val x = .inf false) : fsqrt x = f64Inf false := by
  simp [fsqrt, h]

theorem fsqrt_zero {neg : Bool} {e : Int} (h : f64Val x = .fin neg 0 e) : fsqrt x = x := by
  simp only [fsqrt, h, if_true]

/-- The square root of a finite value that is not negative is correctly rounded, with the sign of its argument. -/
theorem fsqrt_rounds_of_nonneg (hx : (f64Val x).isFinite = true) (h0 : 0 ≤ (f64Val x).rat) :
    roundsTo (Real.sqrt (f64Val x).rat) (fsqrt x) ∧ (fsqrt x).msb = x.msb := by
  obtain ⟨neg, m, e, hx⟩ := eq_fin_of_isFinite hx
  by_cases hm : m = 0
  · subst hm
    rw [fsqrt_zero hx, hx, rat_fin_eq_zero_iff.mpr rfl, Rat.cast_zero, Real.sqrt_zero]
    exact ⟨roundsTo_zero hx, rfl⟩
  · have hpos : neg = false := by
      rw [hx] at h0
      exact Bool.eq_false_iff.mpr fun hneg => absurd (rat_fin_neg_iff.mpr ⟨hneg, hm⟩) h0.not_gt
    subst hpos
    obtain ⟨hsign, -, -⟩ := f64Val_fin_bounds hx
    obtain ⟨hround, hmsb⟩ := fsqrt_rounds hx hm
    refine ⟨?_, hmsb.trans hsign⟩
    rw [hx, rat_fin]
    simpa [signFactor] using hround

end

/-- Settles O47, operation by operation; NaNs and infinities by the branches of the definitions. -/
theorem samplerArithmeticIsCorrectlyRounded : Obligations.SamplerArithmeticIsCorrectlyRounded := by
  refine ⟨u01_exact, fun x y => ⟨fmul_rounds, fun h => ?nan, fun a b hx hy => ?infInf, fun a hx hy => ?infFin⟩,
    fun x => ⟨fsqrt_rounds_of_nonneg, fun h => ?sqrtNaN, fun h => ?sqrtInf⟩⟩
  case nan => rw [fmul_nan h, f64Val_nan]
  case infInf => rw [fmul_inf_inf hx hy, f64Val_inf]
  case infFin =>
    obtain ⟨b, m, e, hy⟩ := eq_fin_of_isFinite hy
    obtain ⟨rfl, -, -⟩ := f64Val_fin_bounds hy
    rw [fmul_inf_fin hx hy, fmul_fin_inf hy hx, hy]
    exact ⟨f64Val_inf_or_nan, f64Val_inf_or_nan⟩
  case sqrtNaN => rw [fsqrt_nan h, f64Val_nan]
  case sqrtInf => rw [fsqrt_inf h, f64Val_inf]

end Sys2Proof.Machine
end

section
/-! What the functions of the LWE engine compute (R211, R220, R227), and the honest run (R230): the sums by their
indices, then the three functions together, modulo Q. -/

namespace Sys2Proof.Machine

/-! ### Elements by their index -/

theorem getD_map_range {α : Type} (f : Nat → α) (d : α) {n j : Nat} (h : j < n) :
    ((List.range n).map f).getD j d = f j := by simp [List.getD, h]

/-- An index of an `n` by `n` matrix in row-major order (R13). -/
theorem rowMajor_lt {n i j : Nat} (hi : i < n) (hj : j < n) : i * n + j < n * n := by
  calc i * n + j
      _ < i * n + n := Nat.add_lt_add_left hj _
      _ = (i + 1) * n := (Nat.succ_mul i n).symm
      _ ≤ n * n := Nat.mul_le_mul_right n hi

theorem getD_uniforms (k : Collaborators) (q : Nat) (seed : Seed) (pos : Nat) {cnt j : Nat} (h : j < cnt) :
    (uniforms k q seed pos cnt).getD j 0 = uniformAt k q seed (pos + j) := getD_map_range _ 0 h

theorem getD_errorVector (k : Collaborators) (p : Params) (seed : Seed) (pos : Nat) {n j : Nat} (h : j < n) :
    (errorVector k p seed pos n).getD j 0 = reduceQ p.q (gaussAt k p.sigma seed (pos + 2 * j)) := by
  rw [List.getD_eq_getElem _ _ (by simpa using h), getElem_errorVector]

theorem getD_publicVector {p : Params} (a : List Nat) {s : List Nat} (e : List Nat) (hs : s.length = p.n) {i : Nat}
    (hi : i < p.n) : (publicVector p a s e).getD i 0 =
      (∑ j ∈ Finset.range p.n, a.getD (i * p.n + j) 0 * s.getD j 0 + e.getD i 0) % p.q := by
  rw [publicVector, getD_map_range _ 0 hi, dot_eq_sum p.n _ s (length_rowOf ..) hs]
  congr 2
  exact Finset.sum_congr rfl fun j hj => by rw [getD_rowOf a i (Finset.mem_range.mp hj)]

section
variable {p : Params} {r : List Nat} (hr : r.length = p.n)
include hr

theorem getD_encryptWith_v (a b : List Nat) (encoded : Nat) {j : Nat} (hj : j < p.n) :
    (encryptWith p a b r encoded).v.getD j 0 =
      (∑ i ∈ Finset.range p.n, r.getD i 0 * a.getD (i * p.n + j) 0) % p.q := by
  rw [encryptWith, getD_map_range _ 0 hj, dot_eq_sum p.n r _ hr (length_columnOf ..)]
  congr 1
  exact Finset.sum_congr rfl fun i hi => by rw [getD_columnOf a j (Finset.mem_range.mp hi)]

theorem encryptWith_c (a : List Nat) {b : List Nat} (encoded : Nat) (hb : b.length = p.n) :
    (encryptWith p a b r encoded).c = (∑ i ∈ Finset.range p.n, r.getD i 0 * b.getD i 0 + encoded) % p.q := by
  rw [encryptWith, dot_eq_sum p.n r b hr hb]

end

/-! ### Key generation and encapsulation (R211, R220) -/

/-- Settles O48: each vector by its index; the stream positions are those of `keygen_fn`. -/
theorem keyMaterialFollowsTheFormula : Obligations.KeyMaterialFollowsTheFormula := by
  rintro k p seed _ rfl
  have hlen : (keygenFn k p seed).s.length = p.n := length_errorVector ..
  refine ⟨fun i j hi hj => ?a, fun j hj => ?s, fun i hi => ?e, fun i hi => getD_publicVector _ _ hlen hi,
    length_uniforms .., length_publicVector .., hlen, length_errorVector ..⟩
  case a =>
    have ha := getD_uniforms k p.q seed 0 (rowMajor_lt hi hj)
    rwa [Nat.zero_add] at ha
  case s => exact (congrArg Nat.cast (getD_errorVector k p seed _ hj)).trans (reduceQ_cast p.q_pos _)
  case e => exact (congrArg Nat.cast (getD_errorVector k p seed _ hi)).trans (reduceQ_cast p.q_pos _)

theorem encapsFn_of_lt {k : Collaborators} {p : Params} {a b : List Nat} {eseed : Seed} {msg : List Byte}
    (h : leNat msg < p.q) : encapsFn k p a b eseed msg =
      some (encryptWith p a b (errorVector k p eseed 0 p.n) (encodeMessage p (leNat msg))) :=
  if_neg (Nat.not_le.mpr h)

/-- Settles O51: the failure is the first test of `encaps_fn`, and the pair is read by index. -/
theorem encapsulationFollowsTheFormula : Obligations.EncapsulationFollowsTheFormula := by
  intro k p a b eseed msg _ hb
  have hr := length_errorVector k p eseed 0 p.n
  exact ⟨encapsFn_eq_none.mpr, fun hlt => ⟨_, _, encapsFn_of_lt hlt, rfl, length_encryptWith ..,
    fun _ => getD_encryptWith_v hr a b _, encryptWith_c hr a _ hb⟩⟩

/-! ### Decapsulation (R226, R227) -/

/-- The comparison of R227 is one of numbers: the string of the recovered value is the message exactly when the value
is the message's. -/
theorem leBytes_eq_iff {r n : Nat} {msg : List Byte} (hlen : msg.length = n) :
    r < 256 ^ n ∧ leBytes r n = msg ↔ r = leNat msg := by
  subst hlen
  constructor
  · rintro ⟨hlt, heq⟩
    rw [← heq, leNat_leBytes_of_lt hlt]
  · rintro rfl
    exact ⟨leNat_lt msg, leBytes_leNat msg⟩

section
variable {k : Collaborators} {p : Params} {s v : List Nat} {c : Nat} {msg : List Byte} (hlen : msg.length = p.seclen)
include hlen

theorem decapsFn_of_recovered (h : recovered p s v c = leNat msg) : decapsFn k p s v c msg = some (digest k p msg) := by
  obtain ⟨hlt, heq⟩ := (leBytes_eq_iff hlen).mpr h
  simp [decapsFn, Nat.not_le.mpr hlt, heq]

theorem decapsFn_of_notRecovered (h : recovered p s v c ≠ leNat msg) : decapsFn k p s v c msg = none := by
  have hne := mt (leBytes_eq_iff hlen).mp h
  rw [not_and_or, Nat.not_lt] at hne
  exact if_pos hne

end

/-- `m'` as an integer: the outer reduction makes the inner one of `vs` disappear (R227). -/
theorem noisyMessage_cast (p : Params) (s v : List Nat) (c : Nat) :
    (noisyMessage p s v c : Int) = ((c : Int) - dot v s) % p.q := by
  rw [noisyMessage, submod_eq_reduceQ, reduceQ_cast p.q_pos, Int.natCast_mod, Int.sub_emod_emod]

/-- Settles O54: the given `m'` is the one `decaps_fn` computes, and the comparison is one of numbers. -/
theorem decapsulationFollowsTheFormula : Obligations.DecapsulationFollowsTheFormula := by
  intro k p s v c msg m' hs hv hmsg hm
  have hm' : m' = noisyMessage p s v c := by
    rw [← dot_eq_sum p.n v s hv hs, ← noisyMessage_cast] at hm
    exact Nat.cast_inj.mp hm
  subst hm'
  exact ⟨decapsFn_of_recovered hmsg, decapsFn_of_notRecovered hmsg⟩

/-! ### The honest run (R229, R230): everything modulo Q -/

/-- A reduced sample is the signed one modulo Q (R182). -/
theorem reduceQ_zmod {q : Nat} (hq : 0 < q) (x : Int) : (reduceQ q x : ZMod q) = x := by
  rw [← Int.cast_natCast, reduceQ_cast hq, ZMod.intCast_mod]

/-- The matrix cancels: `r·b - (r·A)·s = r·e` for `b = A·s + e`. -/
theorem sum_mul_sub_sum_eq {R : Type} [CommRing R] {n : Nat} (r s e b : Nat → R) (a : Nat → Nat → R)
    (hb : ∀ i, i < n → b i = ∑ j ∈ Finset.range n, a i j * s j + e i) :
    ∑ i ∈ Finset.range n, r i * b i - ∑ j ∈ Finset.range n, (∑ i ∈ Finset.range n, r i * a i j) * s j =
      ∑ i ∈ Finset.range n, r i * e i := by
  have hrb : ∑ i ∈ Finset.range n, r i * b i =
      ∑ i ∈ Finset.range n, r i * (∑ j ∈ Finset.range n, a i j * s j + e i) :=
    Finset.sum_congr rfl fun i hi => by rw [hb i (Finset.mem_range.mp hi)]
  have hswap : ∑ j ∈ Finset.range n, (∑ i ∈ Finset.range n, r i * a i j) * s j =
      ∑ i ∈ Finset.range n, r i * ∑ j ∈ Finset.range n, a i j * s j := by
    simp only [Finset.sum_mul, Finset.mul_sum, mul_assoc]
    exact Finset.sum_comm
  rw [hrb, hswap]
  simp only [mul_add, Finset.sum_add_distrib, add_sub_cancel_left]

theorem publicVector_zmod {p : Params} (a : List Nat) {s : List Nat} (e : List Nat) (hs : s.length = p.n) {i : Nat}
    (hi : i < p.n) : ((publicVector p a s e).getD i 0 : ZMod p.q) =
      ∑ j ∈ Finset.range p.n, (a.getD (i * p.n + j) 0 : ZMod p.q) * s.getD j 0 + e.getD i 0 := by
  rw [getD_publicVector a e hs hi, ZMod.natCast_mod]
  push_cast
  rfl

section
variable {p : Params} {r : List Nat} (hr : r.length = p.n) (a : List Nat) {b : List Nat} (encoded : Nat)
include hr

theorem encryptWith_c_zmod (hb : b.length = p.n) : ((encryptWith p a b r encoded).c : ZMod p.q) =
    ∑ i ∈ Finset.range p.n, (r.getD i 0 : ZMod p.q) * b.getD i 0 + encoded := by
  rw [encryptWith_c hr a encoded hb, ZMod.natCast_mod]
  push_cast
  rfl

theorem dot_encryptWith_v_zmod {s : List Nat} (hs : s.length = p.n) :
    (dot (encryptWith p a b r encoded).v s : ZMod p.q) = ∑ j ∈ Finset.range p.n,
      (∑ i ∈ Finset.range p.n, (r.getD i 0 : ZMod p.q) * a.getD (i * p.n + j) 0) * s.getD j 0 := by
  rw [dot_eq_sum p.n _ s (length_encryptWith ..) hs, Nat.cast_sum]
  refine Finset.sum_congr rfl fun j hj => ?_
  rw [getD_encryptWith_v hr a b encoded (Finset.mem_range.mp hj), Nat.cast_mul, ZMod.natCast_mod]
  push_cast
  rfl

/-- What decapsulation finds under a key `(a, b)` with `b = a·s + e`: the encoded message and the noise `r·e`. -/
theorem noisyMessage_encryptWith {s : List Nat} (e : List Nat) {ct : CipherPair}
    (hct : ct = encryptWith p a (publicVector p a s e) r encoded) (hs : s.length = p.n) :
    (noisyMessage p s ct.v ct.c : ZMod p.q) =
      encoded + ∑ i ∈ Finset.range p.n, (r.getD i 0 : ZMod p.q) * (e.getD i 0 : ZMod p.q) := by
  have hcancel := sum_mul_sub_sum_eq (fun i => (r.getD i 0 : ZMod p.q)) (fun j => (s.getD j 0 : ZMod p.q))
    (fun i => (e.getD i 0 : ZMod p.q)) _ (fun i j => (a.getD (i * p.n + j) 0 : ZMod p.q))
    fun i => publicVector_zmod a e hs (i := i)
  rw [← hcancel, hct, ← Int.cast_natCast, noisyMessage_cast, ZMod.intCast_mod, Int.cast_sub, Int.cast_natCast,
    Int.cast_natCast, encryptWith_c_zmod hr a encoded (length_publicVector ..), dot_encryptWith_v_zmod hr a encoded hs]
  ring

end

/-- The noise of R230 by its indices. -/
theorem sum_zipWith_signedErrors (k : Collaborators) (sigma : F64) (seed seed' : Seed) (pos pos' n : Nat) :
    (List.zipWith (· * ·) (signedErrors k sigma seed pos n) (signedErrors k sigma seed' pos' n)).sum =
      ∑ i ∈ Finset.range n, gaussAt k sigma seed (pos + 2 * i) * gaussAt k sigma seed' (pos' + 2 * i) := by
  rw [signedErrors, signedErrors, List.zipWith_map, List.zipWith_self]
  rfl

/-- The noise of R230 is, modulo Q, the product of the reduced error vectors. -/
theorem sum_errorVector_zmod (k : Collaborators) (p : Params) (seed seed' : Seed) (pos pos' : Nat) :
    ∑ i ∈ Finset.range p.n, ((errorVector k p seed pos p.n).getD i 0 : ZMod p.q) *
        ((errorVector k p seed' pos' p.n).getD i 0 : ZMod p.q) =
      ((List.zipWith (· * ·) (signedErrors k p.sigma seed pos p.n) (signedErrors k p.sigma seed' pos' p.n)).sum :
        Int) := by
  rw [sum_zipWith_signedErrors, Int.cast_sum]
  refine Finset.sum_congr rfl fun i hi => ?_
  have hi := Finset.mem_range.mp hi
  rw [getD_errorVector k p seed pos hi, getD_errorVector k p seed' pos' hi, reduceQ_zmod p.q_pos, reduceQ_zmod p.q_pos,
    Int.cast_mul]

/-- A residue is known by its class. -/
theorem eq_of_zmod_eq {q : Nat} {x y : Int} (h : (x : ZMod q) = y) (hx : 0 ≤ x) (hxq : x < q) (hy : 0 ≤ y)
    (hyq : y < q) : x = y := by
  have hmod := (ZMod.intCast_eq_intCast_iff' x y q).mp h
  rwa [Int.emod_eq_of_lt hx hxq, Int.emod_eq_of_lt hy hyq] at hmod

theorem noisyMessage_lt (p : Params) (s v : List Nat) (c : Nat) : noisyMessage p s v c < p.q := submod_lt p.q_pos _ _

/-- Noise inside the rounding window is rounded away (R226). -/
theorem unscale_of_window {p : Params} {m' mv : Nat} {delta : Int} (h : (m' : Int) = (mv * scale p : Nat) + delta)
    (hlo : -((scale p / 2 : Nat) : Int) ≤ delta)
    (hhi : delta ≤ (scale p : Int) - ((scale p / 2 : Nat) : Int) - 1) : unscale p m' = mv := by
  refine Nat.div_eq_of_lt_le ?_ ?_
  · omega
  · rw [Nat.succ_mul]
    omega

/-- Settles O56: modulo Q decapsulation finds `mv * SCALE + delta`; the bounds make that an equality of integers, and
the rounding gives `mv` back. -/
theorem honestDecapsulationRecoversTheSecret : Obligations.HonestDecapsulationRecoversTheSecret := by
  rintro k p seed eseed msg _ ct _ _ delta hmsg rfl hct rfl rfl hdelta hmv hlo hhi hnonneg hltq
  obtain ⟨-, hct⟩ := encapsFn_some hct
  have hfound := noisyMessage_encryptWith (length_errorVector ..) _ _ _ hct (length_errorVector ..)
  have hnoise := sum_errorVector_zmod k p eseed seed 0 (p.n * p.n + 2 * p.n)
  rw [← hdelta] at hnoise
  have hclass : (((noisyMessage p (keygenFn k p seed).s ct.v ct.c : Nat) : Int) : ZMod p.q) =
      ((leNat msg * scale p : Nat) + delta : Int) := by
    rw [encodeMessage, Nat.mod_eq_of_lt hmv] at hfound
    push_cast at hfound ⊢
    exact hfound.trans (congrArg _ hnoise)
  have heq := eq_of_zmod_eq hclass (Int.natCast_nonneg _) (Int.ofNat_lt.mpr (noisyMessage_lt ..)) hnonneg hltq
  exact decapsFn_of_recovered hmsg (unscale_of_window heq hlo hhi)

end Sys2Proof.Machine
end

section
/-! The commands of the LWE engine (R213, R225, R228): the outcomes of each in test order and what it writes. -/

namespace Sys2Proof.Machine

/-! ### Stores into checked regions -/

theorem Memory.readBytes_store (m : Memory) {a n : Nat} {bs : List Byte} (hlen : bs.length = n) :
    (m.writeBytes a bs).readBytes a n = bs := by
  subst hlen
  exact m.readBytes_writeBytes a bs

/-- Two strings stored one after the other into regions that do not overlap both read back. -/
theorem Memory.readBytes_twoStores (m : Memory) {x y : Region} {bs bs' : List Byte} (hxy : x.overlaps y = false)
    (hlen : bs.length = x.len) (hlen' : bs'.length = y.len) :
    ((m.writeBytes x.addr bs).writeBytes y.addr bs').readBytes x.addr x.len = bs ∧
      ((m.writeBytes x.addr bs).writeBytes y.addr bs').readBytes y.addr y.len = bs' := by
  refine ⟨?_, Memory.readBytes_store _ hlen'⟩
  rw [Region.overlaps_eq_false] at hxy
  rw [Memory.readBytes_writeBytes_disjoint _ _ _ _ _ fun j hj => by omega, Memory.readBytes_store m hlen]

/-- Any two of the regions that pass the check lie apart (R68). -/
theorem overlaps_eq_false_of_regionsOK {size : Nat} {rs : List Region} (h : regionsOK size rs = true) {x y : Region}
    (hxy : [x, y].Sublist rs) : x.overlaps y = false :=
  List.rel_of_pairwise_cons ((regionsOK_pairwise h).sublist hxy) (List.mem_singleton_self y)

/-- Residues fit the packed format where `Q` is at most 65536, and where they are found to (R124). -/
theorem unpackable_residues {p : Params} {xs : List Nat} (hres : ∀ x ∈ xs, x < p.q)
    (h : p.q ≤ 65536 ∨ ∀ x ∈ xs, x < 65536) : unpackable xs = false :=
  unpackable_eq_false.mpr (h.elim (fun hq x hx => (hres x hx).trans_le hq) id)

theorem finish_of_error {s : State} {r : Except ErrorKind State} {e : ErrorKind} (h : r = .error e) :
    finish s r = .next (s.afterError e.code) := by
  subst h
  rfl

/-! ### KEYGEN (R213) -/

/-- The regions of KEYGEN in the order of R213: the seed, the public key, the secret key. -/
def keygenRegions (s : State) : List Region :=
  [⟨s.arg 0, s.arg 1⟩, ⟨s.arg 2, pkLen s.params⟩, ⟨s.arg 3, skLen s.params⟩]

section
variable {k : Collaborators} {s : State}

theorem keygenRule_of_shortSeed (hlen : s.arg 1 < 32) : keygenRule k s = .error .randomGeneration := if_pos hlen

variable (hlen : 32 ≤ s.arg 1)
include hlen

theorem keygenRule_of_badRegions (hreg : regionsOK s.params.dmemSize (keygenRegions s) = false) :
    keygenRule k s = .error .addressRange := by
  unfold keygenRegions at hreg
  simp [keygenRule, Nat.not_lt.mpr hlen, hreg]

variable (hreg : regionsOK s.params.dmemSize (keygenRegions s) = true) {m : KeyMaterial}
  (hm : m = keygenFn k s.params (s.dmem.readSeed (s.arg 0)))
include hreg hm

theorem keygenRule_of_wideElement (hwide : unpackable (m.a ++ m.b ++ m.s) = true) :
    keygenRule k s = .error .encodeRange := by
  unfold keygenRegions at hreg
  subst hm
  simp only [keygenRule, Nat.not_lt.mpr hlen, hreg, hwide, if_true, if_false, Bool.true_eq_false]

theorem keygenRule_of_fittingElements (hfit : unpackable (m.a ++ m.b ++ m.s) = false) :
    ∃ t, keygenRule k s = .ok t := by
  unfold keygenRegions at hreg
  subst hm
  simp only [keygenRule, Nat.not_lt.mpr hlen, hreg, hfit, if_false, Bool.true_eq_false, Bool.false_eq_true]
  exact ⟨_, rfl⟩

end

/-- The two keys that KEYGEN writes, from the seed alone. -/
theorem keygenRule_keys {k : Collaborators} {s t : State} (h : keygenRule k s = .ok t) {seed : Seed}
    (hseed : seed = s.dmem.readSeed (s.arg 0)) :
    t.dmem.readBytes (s.arg 2) (pkLen s.params) = publicKeyBytes (keygenFn k s.params seed) seed ∧
      t.dmem.readBytes (s.arg 3) (skLen s.params) = secretKeyBytes (keygenFn k s.params seed) seed := by
  obtain ⟨-, hreg, _, rfl, -, rfl⟩ := keygenRule_ok h
  subst hseed
  have hapart := overlaps_eq_false_of_regionsOK hreg (List.drop_sublist 1 (keygenRegions s))
  exact s.dmem.readBytes_twoStores hapart (length_publicKeyBytes ..) (length_secretKeyBytes ..)

/-- Settles O49: the outcomes of the rule in test order, then what its two stores are. -/
theorem keygenWritesTheKeyPair : Obligations.KeygenWritesTheKeyPair := by
  refine ⟨decode_encode .keygen, ?outcomes, ?wide, fun _ => rfl⟩
  case outcomes =>
    rintro s _ rfl
    refine ⟨fun hlen => exec_of_error (i := .keygen) (keygenRule_of_shortSeed hlen), fun hlen hreg =>
      exec_of_error (i := .keygen) (keygenRule_of_badRegions hlen hreg), ?_⟩
    rintro hlen hreg seed m hseed rfl hfits
    have hfit := unpackable_residues (fun x => keygenFn_lt rfl) hfits
    obtain ⟨u, hu⟩ := keygenRule_of_fittingElements hlen hreg (congrArg _ hseed) hfit
    have hexec : exec .keygen s = .next u.afterSuccess := exec_of_ok hu
    obtain ⟨hpk, hsk⟩ := keygenRule_keys hu hseed
    refine ⟨_, hexec, ?_, hpk, hsk, exec_sameOutside hexec⟩
    obtain ⟨-, -, _, -, -, rfl⟩ := keygenRule_ok hu
    rfl
  case wide =>
    rintro k s hlen hreg ⟨m, hm, hwide⟩
    exact finish_of_error (keygenRule_of_wideElement hlen hreg hm (unpackable_eq_true.mpr hwide))

/-- Settles O50: both runs write the keys of one and the same seed. -/
theorem keygenIsDeterminedByItsSeed : Obligations.KeygenIsDeterminedByItsSeed := by
  intro s s' t t' hp _ _ hseed h h' herr herr'
  obtain ⟨u, hu, rfl⟩ := exec_ok_of_err h herr
  obtain ⟨u', hu', rfl⟩ := exec_ok_of_err h' herr'
  obtain ⟨hpk, hsk⟩ := keygenRule_keys hu rfl
  obtain ⟨hpk', hsk'⟩ := keygenRule_keys hu' (Memory.readSeed_congr hseed)
  rw [← hp] at hpk' hsk'
  exact ⟨hpk.trans hpk'.symm, hsk.trans hsk'.symm⟩

/-! ### ENCAPS (R225) -/

/-- The ciphertext and the shared secret that ENCAPS writes. -/
theorem encapsRule_outputs {k : Collaborators} {s t : State} {ct : CipherPair} (h : encapsRule k s = .ok t)
    (hct : encapsPair k s = some ct) :
    t.dmem.readBytes (s.arg 5) (ctLen s.params) =
        ciphertextBytes ct (s.dmem.readBytes (s.arg 4) s.params.seclen) ∧
      t.dmem.readBytes (s.arg 6) s.params.seclen =
        digest k s.params (s.dmem.readBytes (s.arg 4) s.params.seclen) := by
  obtain ⟨-, -, hreg, ct', hct', -, rfl⟩ := encapsRule_ok h
  obtain rfl : ct' = ct := Option.some.inj (hct'.symm.trans hct)
  have hapart := overlaps_eq_false_of_regionsOK hreg (List.drop_sublist 3 (encapsRegions s))
  exact s.dmem.readBytes_twoStores hapart (length_ciphertextBytes hct _ (by simp)) (length_digest ..)

theorem encapsFn_lt {k : Collaborators} {p : Params} {a b : List Nat} {eseed : Seed} {msg : List Byte} {ct : CipherPair}
    (h : encapsFn k p a b eseed msg = some ct) : ∀ x ∈ ct.c :: ct.v, x < p.q := by
  obtain ⟨-, rfl⟩ := encapsFn_some h
  exact fun x => encryptWith_lt

/-- Settles O52: the outcomes of the rule in test order, then what its two stores are. -/
theorem encapsWritesCiphertextAndSecret : Obligations.EncapsWritesCiphertextAndSecret := by
  refine ⟨decode_encode .encaps, ?_, fun _ => rfl⟩
  rintro k s _ rfl _ _ _ _ rfl rfl rfl rfl
  refine ⟨fun hpk => exec_of_error (i := .encaps) (encapsRule_of_wrongKeyLength hpk),
    fun hpk hes => exec_of_error (i := .encaps) (encapsRule_of_shortSeed hpk hes),
    fun hpk hes hreg => exec_of_error (i := .encaps) (encapsRule_of_badRegions hpk hes hreg),
    fun hpk hes hreg => ⟨fun hmsg => ?noPair, fun ct hct hwide => ?wide, fun ct hct hfits hk => ?ok⟩⟩
  case noPair =>
    exact exec_of_error (i := .encaps) (encapsRule_of_noPair hpk hes hreg (encapsPair_eq_none.mpr hmsg))
  case wide =>
    exact finish_of_error (encapsRule_of_wideScalar hpk hes hreg hct (unpackable_eq_true.mpr hwide))
  case ok =>
    subst hk
    have hfit := unpackable_residues (encapsFn_lt hct) hfits
    obtain ⟨u, hu⟩ := encapsRule_of_fittingScalars hpk hes hreg hct hfit
    have hexec : exec .encaps s = .next u.afterSuccess := exec_of_ok hu
    obtain ⟨hctdst, hssdst⟩ := encapsRule_outputs hu hct
    refine ⟨_, hexec, ?_, hctdst, hssdst, exec_sameOutside hexec⟩
    obtain ⟨-, -, -, _, -, -, rfl⟩ := encapsRule_ok hu
    rfl

/-! ### DECAPS (R228) -/

/-- The regions of DECAPS in the order of R228: the secret key, the ciphertext, the shared secret. -/
def decapsRegions (s : State) : List Region :=
  [⟨s.arg 0, skLen s.params⟩, ⟨s.arg 2, ctLen s.params⟩, ⟨s.arg 4, s.params.seclen⟩]

section
variable {k : Collaborators} {s : State}

theorem decapsRule_of_wrongKeyLength (hsk : s.arg 1 ≠ skLen s.params) :
    decapsRule k s = .error .invalidKeyFormat := if_pos hsk

variable (hsk : s.arg 1 = skLen s.params)
include hsk

theorem decapsRule_of_wrongCiphertextLength (hct : s.arg 3 ≠ ctLen s.params) :
    decapsRule k s = .error .invalidCiphertextFormat := by
  simp [decapsRule, hsk, hct]

variable (hct : s.arg 3 = ctLen s.params)
include hct

theorem decapsRule_of_badRegions (hreg : regionsOK s.params.dmemSize (decapsRegions s) = false) :
    decapsRule k s = .error .addressRange := by
  unfold decapsRegions at hreg
  simp [decapsRule, hsk, hct, hreg]

variable (hreg : regionsOK s.params.dmemSize (decapsRegions s) = true)
include hreg

theorem decapsRule_of_noSecret (hss : decapsSecret k s = none) : decapsRule k s = .error .decapsulation := by
  unfold decapsRegions at hreg
  unfold decapsSecret at hss
  simp [decapsRule, hsk, hct, hreg, hss]

theorem decapsRule_of_secret {ss : List Byte} (hss : decapsSecret k s = some ss) :
    decapsRule k s = .ok (s.setDmem (s.dmem.writeBytes (s.arg 4) ss)) := by
  unfold decapsRegions at hreg
  unfold decapsSecret at hss
  simp [decapsRule, hsk, hct, hreg, hss]

end

/-- The scalar `c` and the message of the ciphertext stand in memory after the vector `v` (R132). -/
theorem decapsSecret_eq (k : Collaborators) (s : State) : decapsSecret k s =
    decapsFn k s.params (unpack (s.dmem.readBytes (s.arg 0) (skLen s.params)) s.params.n)
      (unpack (s.dmem.readBytes (s.arg 2) (ctLen s.params)) s.params.n)
      (s.dmem.readLE (s.arg 2 + s.params.n * 2) 2)
      (s.dmem.readBytes (s.arg 2 + s.params.n * 2 + 2) s.params.seclen) := by
  have hlen : s.params.n * 2 + 2 + s.params.seclen = ctLen s.params := rfl
  rw [decapsSecret, scalarAt_readBytes _ _ _ _ (by omega), Memory.drop_take_readBytes _ _ _ _ _ hlen.le]
  rfl

/-- Settles O55: the outcomes of the rule in test order, then what its one store is. -/
theorem decapsWritesTheSharedSecret : Obligations.DecapsWritesTheSharedSecret := by
  refine ⟨decode_encode .decaps, ?_⟩
  rintro s _ rfl _ _ _ _ _ rfl rfl rfl rfl rfl
  have hmsg := s.dmem.length_readBytes (s.arg 2 + s.params.n * 2 + 2) s.params.seclen
  refine ⟨fun hsk => exec_of_error (i := .decaps) (decapsRule_of_wrongKeyLength hsk),
    fun hsk hct => exec_of_error (i := .decaps) (decapsRule_of_wrongCiphertextLength hsk hct),
    fun hsk hct hreg => exec_of_error (i := .decaps) (decapsRule_of_badRegions hsk hct hreg),
    fun hsk hct hreg => ⟨fun hne => ?noSecret, fun heq => ?secret⟩⟩
  case noSecret =>
    have hss := (decapsSecret_eq Config.collab s).trans (decapsFn_of_notRecovered hmsg hne)
    exact exec_of_error (i := .decaps) (decapsRule_of_noSecret hsk hct hreg hss)
  case secret =>
    have hss := (decapsSecret_eq Config.collab s).trans (decapsFn_of_recovered hmsg heq)
    have hexec := exec_of_ok (i := .decaps) (decapsRule_of_secret hsk hct hreg hss)
    exact ⟨_, hexec, rfl, s.dmem.readBytes_store (length_digest ..), exec_sameOutside hexec⟩

end Sys2Proof.Machine
end

section
/-! The housekeeping commands (R250, R251): what NOP does from its issue on, and the two outcomes of ZEROIZE. -/

namespace Sys2Proof.Machine

/-! ### NOP (R250) -/

/-- The rule is empty, so what is left is the completion (R93). -/
theorem exec_nop (s : State) : exec .nop s = .next s.afterSuccess := exec_of_ok (i := .nop) rfl

/-- A core with NOP in CMD completes it at its next move. -/
theorem step_core_nop {s : State} {rest : List Event} (hcmd : s.cmd = 0x00000000) (hb : s.busy = true)
    (hev : s.events = .core :: rest) : step s = .next (State.afterSuccess { s with events := rest }) := by
  have hdec : decode s.cmd = .ok .nop := hcmd ▸ decode_encode .nop
  calc step s
    _ = completion { s with events := rest } := step_core_of_busy hb hev
    _ = exec .nop { s with events := rest } := completion_of_decode_ok hdec
    _ = .next (State.afterSuccess { s with events := rest }) := exec_nop _

/-- Settles O28: the issue clears ERR and ERRCODE and latches the word, which the core's move then completes. -/
theorem nopChangesOnlyStatus : Obligations.NopChangesOnlyStatus := by
  refine ⟨decode_encode .nop, exec_nop, fun s rest hb hev => ?_⟩
  have hissue : step s = .next (State.issue { s with events := .core :: rest } 0x00000000) :=
    step_regWrite_of_idle hev hb
  exact ⟨_, hissue, rfl, step_core_nop rfl rfl rfl⟩

/-! ### ZEROIZE (R251) -/

section
variable {s : State}

theorem zeroizeRule_of_badRegion (hreg : regionsOK s.params.dmemSize [⟨s.arg 0, s.arg 1⟩] = false) :
    zeroizeRule s = .error .addressRange := if_pos hreg

theorem zeroizeRule_of_goodRegion (hreg : regionsOK s.params.dmemSize [⟨s.arg 0, s.arg 1⟩] = true) :
    zeroizeRule s = .ok (s.setDmem (s.dmem.writeBytes (s.arg 0) (List.replicate (s.arg 1) 0))) :=
  if_neg (by simp [hreg])

end

theorem Memory.read_writeBytes_zeros (m : Memory) {addr len a : Nat} (ha : inBytes addr len a) :
    (m.writeBytes addr (List.replicate len 0)).read a = 0 := by
  obtain ⟨hlo, hhi⟩ := ha
  have hidx : a - addr < len := by omega
  rw [Memory.read_writeBytes, List.length_replicate, if_pos ⟨hlo, hhi⟩, List.getD_replicate _ hidx]

/-- Settles O29: the two outcomes of the rule, then what its one store does. -/
theorem zeroizeClearsItsRegion : Obligations.ZeroizeClearsItsRegion := by
  refine ⟨decode_encode .zeroize, fun s => ⟨fun hgood => ?inRange, fun hlen hsize => ?notInRange⟩⟩
  case inRange =>
    have hreg := regionsOK_single (r := ⟨s.arg 0, s.arg 1⟩).mpr hgood
    have hexec := exec_of_ok (i := .zeroize) (zeroizeRule_of_goodRegion hreg)
    exact ⟨_, hexec, rfl, fun a ha => s.dmem.read_writeBytes_zeros ha, exec_sameOutside hexec⟩
  case notInRange =>
    have hreg := regionsOK_single_eq_false.mpr ⟨hlen, hsize⟩
    exact exec_of_error (i := .zeroize) (zeroizeRule_of_badRegion hreg)

end Sys2Proof.Machine
end

section
/-! Fragments of byte buffers (R263 to R267): which mismatches a list of fragments has, what reconstruction answers for
it, and the pieces a fragmentation makes. -/

namespace Sys2Proof.Machine

/-! ### The three validations (R266) -/

/-- Every total is the number of fragments. -/
def CountsRight (fs : List Fragment) : Prop := ∀ f ∈ fs, f.total.toNat = fs.length

/-- Every index below the number of fragments is there. -/
def IndicesRight (fs : List Fragment) : Prop := ∀ i, i < fs.length → ∃ f ∈ fs, f.index.toNat = i

/-- Every fragment verifies. -/
def DigestsRight (k : Collaborators) (p : Params) (fs : List Fragment) : Prop := ∀ f ∈ fs, f.verify k p = true

theorem countsAgree_eq_true {fs : List Fragment} : countsAgree fs = true ↔ CountsRight fs := by
  simp [countsAgree, CountsRight]

theorem coversAll_eq_true {fs : List Fragment} {total : Nat} :
    coversAll fs total = true ↔ fs.length = total ∧ ∀ i, i < total → ∃ f ∈ fs, f.index.toNat = i := by
  simp [coversAll]

/-- Covering every total takes right totals as well: a wrong one is not the number of indices. -/
theorem all_coversAll_eq_true {fs : List Fragment} (hne : fs ≠ []) :
    (fs.all fun f => coversAll fs f.total.toNat) = true ↔ CountsRight fs ∧ IndicesRight fs := by
  simp only [List.all_eq_true, coversAll_eq_true]
  constructor
  · intro h
    obtain ⟨f, hf⟩ := List.exists_mem_of_ne_nil fs hne
    obtain ⟨hlen, hidx⟩ := h f hf
    exact ⟨fun g hg => (h g hg).1.symm, fun i hi => hidx i (hlen ▸ hi)⟩
  · rintro ⟨hcount, hidx⟩ f hf
    rw [hcount f hf]
    exact ⟨rfl, hidx⟩

theorem all_verify_eq_true {k : Collaborators} {p : Params} {fs : List Fragment} :
    fs.all (Fragment.verify k p) = true ↔ DigestsRight k p fs := List.all_eq_true

section
variable {k : Collaborators} {p : Params} {fs : List Fragment}

theorem count_mem_mismatches : .count ∈ mismatches k p fs ↔ ¬CountsRight fs := by
  simp [mismatches, ← countsAgree_eq_true]

theorem hash_mem_mismatches : .hash ∈ mismatches k p fs ↔ ¬DigestsRight k p fs := by
  simp [mismatches, ← all_verify_eq_true]

variable (hne : fs ≠ [])
include hne

theorem index_mem_mismatches : .index ∈ mismatches k p fs ↔ ¬(CountsRight fs ∧ IndicesRight fs) := by
  simp [mismatches, ← all_coversAll_eq_true hne]

theorem mismatches_eq_nil :
    mismatches k p fs = [] ↔ CountsRight fs ∧ IndicesRight fs ∧ DigestsRight k p fs := by
  have hnil : mismatches k p fs = [] ↔ countsAgree fs = true ∧
      (fs.all fun f => coversAll fs f.total.toNat) = true ∧ fs.all (Fragment.verify k p) = true := by
    simp [mismatches]
  rw [hnil, countsAgree_eq_true, all_coversAll_eq_true hne, all_verify_eq_true, and_assoc, and_self_left]

/-! ### What reconstruction answers (R266) -/

theorem reconstructData_of_right (h : CountsRight fs ∧ IndicesRight fs ∧ DigestsRight k p fs) :
    reconstructData k p fs = .ok ((List.range fs.length).flatMap (dataAt fs)) := by
  rcases reconstructData_cases k p hne with ⟨-, hok⟩ | ⟨e, he, -⟩
  · exact hok
  · simp [(mismatches_eq_nil hne).mpr h] at he

theorem exists_reconstructData_eq_ok :
    (∃ bytes, reconstructData k p fs = .ok bytes) ↔ CountsRight fs ∧ IndicesRight fs ∧ DigestsRight k p fs := by
  refine ⟨fun ⟨bytes, hok⟩ => ?_, fun h => ⟨_, reconstructData_of_right hne h⟩⟩
  rcases reconstructData_cases k p hne with ⟨hnil, -⟩ | ⟨e, -, herr⟩
  · exact (mismatches_eq_nil hne).mp hnil
  · cases hok.symm.trans herr

theorem mem_mismatches_of_reconstructData_error {e : Mismatch} (h : reconstructData k p fs = .error e) :
    e ∈ mismatches k p fs := by
  rcases reconstructData_cases k p hne with ⟨-, hok⟩ | ⟨e', he', herr⟩
  · cases hok.symm.trans h
  · cases herr.symm.trans h
    exact he'

theorem exists_reconstructData_eq_error {e : Mismatch} (he : e ∈ mismatches k p fs) :
    ∃ e', reconstructData k p fs = .error e' := by
  rcases reconstructData_cases k p hne with ⟨hnil, -⟩ | ⟨e', -, herr⟩
  · simp [hnil] at he
  · exact ⟨e', herr⟩

/-- Where digests alone are wrong, every choice among the mismatches is the hash. -/
theorem reconstructData_of_onlyDigestsWrong (hc : CountsRight fs) (hi : IndicesRight fs)
    (hd : ¬DigestsRight k p fs) : reconstructData k p fs = .error .hash := by
  obtain ⟨e, herr⟩ := exists_reconstructData_eq_error hne (hash_mem_mismatches.mpr hd)
  have he := mem_mismatches_of_reconstructData_error hne herr
  cases e with
  | count => exact absurd hc (count_mem_mismatches.mp he)
  | index => exact absurd ⟨hc, hi⟩ ((index_mem_mismatches hne).mp he)
  | hash => exact herr

/-- Where an index alone is missing, every choice among the mismatches is the index. -/
theorem reconstructData_of_onlyIndicesWrong (hc : CountsRight fs) (hi : ¬IndicesRight fs)
    (hd : DigestsRight k p fs) : reconstructData k p fs = .error .index := by
  obtain ⟨e, herr⟩ := exists_reconstructData_eq_error hne ((index_mem_mismatches hne).mpr fun h => hi h.2)
  have he := mem_mismatches_of_reconstructData_error hne herr
  cases e with
  | count => exact absurd hc (count_mem_mismatches.mp he)
  | index => exact herr
  | hash => exact absurd hd (hash_mem_mismatches.mp he)

end

/-! ### Tampering (R267) -/

theorem verify_eq_true {k : Collaborators} {p : Params} {f : Fragment} :
    f.verify k p = true ↔ f.hash = digest k p f.data := decide_eq_true_iff

/-- Data of another digest than the fragment's, under the hash the fragment had. -/
theorem verify_of_tampered {k : Collaborators} {p : Params} {f : Fragment} {data : List Byte}
    (hv : f.verify k p = true) (hdata : k.hash p.seclen data ≠ k.hash p.seclen f.data) :
    ({ f with data := data } : Fragment).verify k p = false := by
  refine Bool.eq_false_iff.mpr fun hv' => hdata ?_
  have h : digest k p data = digest k p f.data := (verify_eq_true.mp hv').symm.trans (verify_eq_true.mp hv)
  exact Vector.toList_inj.mp h

/-- Writing an element over one with the same image under `g` changes no image. -/
theorem map_set_of_eq {α β : Type} (g : α → β) (l : List α) (j : Fin l.length) {b : α} (h : g b = g l[j]) :
    (l.set j b).map g = l.map g := by
  rw [List.map_set, h, Fin.getElem_fin, ← List.getElem_map g (h := by simp), List.set_getElem_self]

/-- Other data in one fragment leaves the counts as right as they were. -/
theorem CountsRight.set_data {fs : List Fragment} (h : CountsRight fs) (j : Fin fs.length) (data : List Byte) :
    CountsRight (fs.set j { fs[j] with data := data }) := by
  intro f hf
  rw [List.length_set]
  rcases List.mem_or_eq_of_mem_set hf with hf | rfl
  · exact h f hf
  · exact h fs[j] (List.getElem_mem j.isLt)

/-- Other data in one fragment leaves every index where it was. -/
theorem IndicesRight.set_data {fs : List Fragment} (h : IndicesRight fs) (j : Fin fs.length) (data : List Byte) :
    IndicesRight (fs.set j { fs[j] with data := data }) := by
  intro i hi
  have hmem : i ∈ fs.map (·.index.toNat) := List.mem_map.mpr (h i (by simpa using hi))
  rw [← map_set_of_eq (·.index.toNat) fs j (b := { fs[j] with data := data }) rfl] at hmem
  exact List.mem_map.mp hmem

/-- Settles O58: tampering makes one digest wrong and leaves counts and indices; an error is a mismatch there is. -/
theorem tamperedFragmentsAreRejected : Obligations.TamperedFragmentsAreRejected := by
  constructor
  · intro k p fs j data hv hdata
    have hbad := verify_of_tampered hv hdata
    have hmem : ({ fs[j] with data := data } : Fragment) ∈ fs.set j { fs[j] with data := data } :=
      List.mem_set j.isLt _
    have hne := List.ne_nil_of_mem hmem
    have hd : ¬DigestsRight k p (fs.set j { fs[j] with data := data }) := fun h =>
      absurd (h _ hmem) (ne_true_of_eq_false hbad)
    refine ⟨hbad, exists_reconstructData_eq_error hne (hash_mem_mismatches.mpr hd), fun bytes hok => ?_⟩
    obtain ⟨hc, hi, -⟩ := (exists_reconstructData_eq_ok fun h => by simp [h] at hne).mp ⟨bytes, hok⟩
    exact reconstructData_of_onlyDigestsWrong hne (hc.set_data j data) (hi.set_data j data) hd
  · intro k p fs counts indices digests hne hcounts hindices hdigests
    obtain rfl : counts = CountsRight fs := propext hcounts
    obtain rfl : indices = IndicesRight fs := propext hindices
    obtain rfl : digests = DigestsRight k p fs := propext hdigests
    exact ⟨(exists_reconstructData_eq_ok hne).symm,
      fun h => count_mem_mismatches.mp (mem_mismatches_of_reconstructData_error hne h),
      fun h => (index_mem_mismatches hne).mp (mem_mismatches_of_reconstructData_error hne h),
      fun h => hash_mem_mismatches.mp (mem_mismatches_of_reconstructData_error hne h),
      reconstructData_of_onlyDigestsWrong hne, reconstructData_of_onlyIndicesWrong hne⟩

/-! ### Fragmentation (R265, R267) -/

/-- Piece `i` of the bytes. -/
def pieceAt (fp : FragmentParams) (bytes : List Byte) (i : Nat) : List Byte :=
  (bytes.drop (i * fp.fragmentSize)).take fp.fragmentSize

/-- Fragment `i` of the bytes. -/
def fragmentAt (k : Collaborators) (p : Params) (fp : FragmentParams) (bytes : List Byte) (i : Nat) : Fragment where
  index := BitVec.ofNat 32 i
  total := BitVec.ofNat 32 (fragmentCount fp bytes.length)
  data := pieceAt fp bytes i
  hash := digest k p (pieceAt fp bytes i)

/-- The fragments of the bytes, in index order. -/
def fragmentsOf (k : Collaborators) (p : Params) (fp : FragmentParams) (bytes : List Byte) : List Fragment :=
  (List.range (fragmentCount fp bytes.length)).map (fragmentAt k p fp bytes)

theorem fragmentData_eq_none {k : Collaborators} {p : Params} {fp : FragmentParams} {bytes : List Byte}
    (h : bytes = [] ∨ fp.maxFragments < fragmentCount fp bytes.length) : fragmentData k p fp bytes = none := if_pos h

theorem fragmentData_eq_some {k : Collaborators} {p : Params} {fp : FragmentParams} {bytes : List Byte}
    (hne : bytes ≠ []) (hle : fragmentCount fp bytes.length ≤ fp.maxFragments) :
    fragmentData k p fp bytes = some (fragmentsOf k p fp bytes) := if_neg (by simp [hne, hle])

/-- The pieces hold every byte. -/
theorem length_le_fragmentCount_mul (fp : FragmentParams) (len : Nat) :
    len ≤ fragmentCount fp len * fp.fragmentSize :=
  Nat.mul_comm .. ▸ le_smul_ceilDiv (a := fp.fragmentSize) fp.size_ok

/-- The first `n` pieces, one after the other, are the first bytes. -/
theorem flatMap_pieceAt (fp : FragmentParams) (bytes : List Byte) (n : Nat) :
    (List.range n).flatMap (pieceAt fp bytes) = bytes.take (n * fp.fragmentSize) := by
  induction n with
  | zero => simp
  | succ n ih => simp [List.range_succ, ih, pieceAt, Nat.succ_mul, List.take_add]

section
variable (k : Collaborators) (p : Params) {fp : FragmentParams} {bytes : List Byte}

theorem length_fragmentsOf : (fragmentsOf k p fp bytes).length = fragmentCount fp bytes.length := by
  simp [fragmentsOf]

theorem fragmentsOf_ne_nil (hne : bytes ≠ []) : fragmentsOf k p fp bytes ≠ [] := by
  have hpos := List.length_pos_of_ne_nil hne
  have hle := length_le_fragmentCount_mul fp bytes.length
  refine List.ne_nil_of_length_pos ?_
  rw [length_fragmentsOf]
  exact Nat.pos_of_mul_pos_right (hpos.trans_le hle)

theorem digestsRight_fragmentsOf : DigestsRight k p (fragmentsOf k p fp bytes) :=
  List.forall_mem_map.mpr fun _ _ => verify_eq_true.mpr rfl

variable (hle : fragmentCount fp bytes.length ≤ fp.maxFragments)
include hle

/-- The u32 of the index does not wrap. -/
theorem toNat_index_fragmentAt {i : Nat} (hi : i < fragmentCount fp bytes.length) :
    (fragmentAt k p fp bytes i).index.toNat = i := by
  have := fp.max_ok
  exact Nat.mod_eq_of_lt (by omega)

theorem countsRight_fragmentsOf : CountsRight (fragmentsOf k p fp bytes) := by
  refine List.forall_mem_map.mpr fun i _ => ?_
  rw [length_fragmentsOf]
  exact Nat.mod_eq_of_lt (hle.trans_lt fp.max_ok)

theorem indicesRight_fragmentsOf : IndicesRight (fragmentsOf k p fp bytes) := by
  intro i hi
  rw [length_fragmentsOf] at hi
  exact ⟨_, List.mem_map.mpr ⟨i, List.mem_range.mpr hi, rfl⟩, toNat_index_fragmentAt k p hle hi⟩

theorem dataAt_fragmentsOf {i : Nat} (hi : i < fragmentCount fp bytes.length) :
    dataAt (fragmentsOf k p fp bytes) i = pieceAt fp bytes i := by
  have hfind : (fragmentsOf k p fp bytes).find? (fun f => decide (f.index.toNat = i)) =
      some (fragmentAt k p fp bytes i) := by
    rw [fragmentsOf, List.find?_map]
    refine congrArg (Option.map _) (List.find?_range_eq_some.mpr ⟨?_, List.mem_range.mpr hi, fun j hj => ?_⟩)
    · simpa using toNat_index_fragmentAt k p hle hi
    · simpa [toNat_index_fragmentAt k p hle (hj.trans hi)] using hj.ne
  simp [dataAt, hfind, fragmentAt]

/-- The data in index order are the pieces, which hold every byte. -/
theorem reconstructData_fragmentsOf (hne : bytes ≠ []) :
    reconstructData k p (fragmentsOf k p fp bytes) = .ok bytes := by
  rw [reconstructData_of_right (fragmentsOf_ne_nil k p hne)
    ⟨countsRight_fragmentsOf k p hle, indicesRight_fragmentsOf k p hle, digestsRight_fragmentsOf k p⟩]
  congr 1
  calc (List.range (fragmentsOf k p fp bytes).length).flatMap (dataAt (fragmentsOf k p fp bytes))
    _ = (List.range (fragmentCount fp bytes.length)).flatMap (pieceAt fp bytes) := by
      rw [length_fragmentsOf]
      exact List.flatMap_congr fun i hi => dataAt_fragmentsOf k p hle (List.mem_range.mp hi)
    _ = bytes.take (fragmentCount fp bytes.length * fp.fragmentSize) := flatMap_pieceAt ..
    _ = bytes := List.take_of_length_le (length_le_fragmentCount_mul ..)

end

/-- Settles O57: the fragments of the bytes are right in count, index and digest, and their data are the pieces. -/
theorem reconstructAfterFragmentRestoresTheBytes : Obligations.ReconstructAfterFragmentRestoresTheBytes :=
  fun k p _ _ => ⟨fun hne hle => ⟨_, fragmentData_eq_some hne hle, reconstructData_fragmentsOf k p hle hne⟩,
    fragmentData_eq_none⟩

end Sys2Proof.Machine
end

section
/-! The fragmented KEM (R268 to R271): what its operations answer, by the list of their components. -/

namespace Sys2Proof.Machine

/-- R268: out of bounds is below the least or above the greatest number of components. -/
theorem fragmentBounds_eq_false {fp : FragmentParams} {count : Nat} :
    fragmentBounds fp count = false ↔ count < fp.minFragments ∨ fp.maxFragments < count := by
  simp only [fragmentBounds, Bool.and_eq_false_iff, decide_eq_false_iff_not, Nat.not_le]

section
variable {k : Collaborators} {p : Params} {fp : FragmentParams}

theorem fragmentedKeygen_of_outOfBounds {count : Nat} (h : fragmentBounds fp count = false) (seeds : Nat → Seed) :
    fragmentedKeygen k p fp count seeds = .error .fragmentationError := if_neg (by simp [h])

/-- An encapsulation that succeeds has a ciphertext and a secret for every component. -/
theorem components_of_fragmentedEncaps {fpk : FragmentedPublicKey fp p} {draws : Nat → Seed × SecretBytes p}
    {fct : FragmentedCiphertext fp p} {secret : SecretBytes p}
    (h : fragmentedEncaps k p fp fpk draws = .ok (fct, secret)) :
    ∃ rs : List (Ciphertext p × SecretBytes p),
      fpk.parts.mapIdx (fun j pk => componentEncaps k p pk (draws j).1 (draws j).2) = rs.map .ok ∧
      fct.parts = rs.map Prod.fst ∧ secret = combineSecrets k p (rs.map Prod.snd) := by
  unfold fragmentedEncaps at h
  split at h
  · cases h
  · next rs hrs =>
    split at h
    · next hmake =>
      cases h
      exact ⟨rs, allComponents_eq_ok.mp hrs, makeFragmented_eq_ok.mp hmake, rfl⟩
    · cases h

theorem fragmentedDecaps_of_unequalCounts {fsk : FragmentedSecretKey fp p} {fct : FragmentedCiphertext fp p}
    (h : fsk.parts.length ≠ fct.parts.length) :
    fragmentedDecaps k p fp fsk fct = .error .fragmentationError := if_pos h

theorem fragmentedDecaps_of_components {fsk : FragmentedSecretKey fp p} {fct : FragmentedCiphertext fp p}
    {secrets : List (SecretBytes p)} (hlen : fsk.parts.length = fct.parts.length)
    (h : List.zipWith (componentDecaps k p) fsk.parts fct.parts = secrets.map .ok) :
    fragmentedDecaps k p fp fsk fct = .ok (combineSecrets k p secrets) := by
  rw [fragmentedDecaps, if_neg (not_not_intro hlen), allComponents_eq_ok.mpr h]

end

/-- Settles O59: component by component decapsulation finds the secrets of the encapsulation, hence their hash. -/
theorem fragmentedKemAgreesOnTheSecret : Obligations.FragmentedKemAgreesOnTheSecret := by
  intro k p fp
  refine ⟨fun fpk draws fsk fct secret henc hlen hround => ?agree,
    fun fsk fct h => fragmentedDecaps_of_unequalCounts h, fun count hcount => ?bounds⟩
  case agree =>
    obtain ⟨rs, hrs, hct, rfl⟩ := components_of_fragmentedEncaps henc
    have hrslen : fpk.parts.length = rs.length := by simpa using congrArg List.length hrs
    have hparts : List.zipWith (componentDecaps k p) fsk.parts fct.parts = (rs.map Prod.snd).map .ok := by
      rw [hct]
      refine List.ext_getElem (by simp [hlen, hrslen]) fun j _ hj => ?_
      have hjr : j < rs.length := by simpa using hj
      have henc : componentEncaps k p fpk.parts[j] (draws j).1 (draws j).2 = .ok rs[j] := by
        rw [← List.getElem_mapIdx (f := fun j pk => componentEncaps k p pk (draws j).1 (draws j).2)
          (h := by simpa [hrslen] using hjr), List.getElem_of_eq hrs, List.getElem_map]
      have hdec := hround j _ fsk.parts[j] _ _ (List.getElem?_eq_getElem _) (List.getElem?_eq_getElem _) henc
      simpa using hdec
    exact fragmentedDecaps_of_components (by simp [hct, hlen, hrslen]) hparts
  case bounds =>
    have hout := fragmentBounds_eq_false.mpr hcount
    exact ⟨fragmentedKeygen_of_outOfBounds hout, fun _ _ hparts => makeFragmented_eq_error (hparts ▸ hout)⟩

end Sys2Proof.Machine
end

section
/-! What remains after a command that ends in error (R306, R309), and the independence of the cores of a platform
(R272, R322). -/

namespace Sys2Proof.Machine

/-! ### Errors (R301, R306) -/

/-- The code 0x10 names `IllegalCommand` alone (R301). -/
theorem ErrorKind.code_eq_illegalCommand_iff {e : ErrorKind} : e.code = 0x10 ↔ e = .illegalCommand := by
  cases e <;> decide

/-- Settles O22: a rule that ends without error keeps ERR = 0, so ERR = 1 comes from an error that the rule raises. -/
theorem errorsChangeOnlyStatus : Obligations.ErrorsChangeOnlyStatus := by
  intro i s t hs h ht
  obtain ⟨u, hr, rfl⟩ | ⟨e, hr, rfl⟩ := exec_cases h
  · have hu : u.err = false := (ruleOf_err hr).trans hs
    rw [State.afterSuccess_err, hu] at ht
    cases ht
  · obtain ⟨hfragmentation, hillegal⟩ := ruleOf_error hr
    exact ⟨rfl, ErrorKind.code_mem_producedCodes hfragmentation, mt ErrorKind.code_eq_illegalCommand_iff.mp hillegal⟩

/-! ### Steps of the cores of a platform (R322) -/

section
variable {cores : List State} {k : Nat} {x t : State}

theorem platformStep_of_step (hx : cores[k]? = some x) (h : step x = .next t) :
    platformStep k cores = .next (cores.set k t) := by
  simp only [platformStep, hx, h]

theorem platformRun_cons_of_step (hx : cores[k]? = some x) (h : step x = .next t) (rest : List Nat) :
    platformRun (k :: rest) cores = platformRun rest (cores.set k t) := by
  simp only [platformRun, platformStep_of_step hx h]

end

/-- The first step leaves the second core as it was, so the second core's step is the one it had (R272). -/
theorem platformRun_pair {cores : List State} {i j : Nat} {x y s s' : State} (hij : i ≠ j)
    (hx : cores[i]? = some x) (hs : step x = .next s) (hy : cores[j]? = some y) (hs' : step y = .next s') :
    platformRun [i, j] cores = .next ((cores.set i s).set j s') := by
  have hy' : (cores.set i s)[j]? = some y := (List.getElem?_set_ne hij).trans hy
  calc platformRun [i, j] cores
    _ = platformRun [j] (cores.set i s) := platformRun_cons_of_step hx hs _
    _ = platformRun [] ((cores.set i s).set j s') := platformRun_cons_of_step hy' hs' _
    _ = .next ((cores.set i s).set j s') := rfl

/-- Settles O60: each order is a run of two steps of different cores, and writes at different places commute. -/
theorem stepsOfDifferentCoresCommute : Obligations.StepsOfDifferentCoresCommute := by
  intro cores i j s s' hij ⟨x, hx, hs⟩ ⟨y, hy, hs'⟩
  refine ⟨platformRun_pair hij hx hs hy hs', ?_⟩
  rw [List.set_comm _ _ hij]
  exact platformRun_pair hij.symm hy hs' hx hs

end Sys2Proof.Machine
end

section
/-! The ends of a command in flight: every command completes (R93, R352), and a reset abandons it (R39, R340). -/

namespace Sys2Proof.Machine

/-! ### Completion (R93, R352) -/

/-- Both ways to complete clear BUSY and set DONE (R93, R306). -/
theorem State.complete_flags (s : State) (r : Except ErrorKind State) :
    (s.complete r).busy = false ∧ (s.complete r).done = true := by
  cases r with
  | ok t => exact ⟨t.completeOk_busy, t.completeOk_done⟩
  | error e => exact ⟨s.completeError_busy e, s.completeError_done e⟩

/-- Settles O20: a command answers the completion of its rule, whatever the rule gives. -/
theorem everyCommandCompletes : Obligations.EveryCommandCompletes := fun i s =>
  ⟨s.complete (ruleOf i s), exec_eq i s, s.complete_flags (ruleOf i s)⟩

/-! ### Reset (R39, R340) -/

/-- A reset looks neither at BUSY nor at the command in flight: the reset values, with the configuration and the host's
own fields kept (R340). -/
theorem step_reset {s : State} {rest : List Event} (hev : s.events = .reset :: rest) :
    step s = .next { State.reset with params := s.params, events := rest, replies := s.replies } := by
  simp only [step, hev, hostReset]

/-- Settles O16: every field that the reset does not keep is the one of the reset state. -/
theorem resetAtAnyTimeClearsEverything : Obligations.ResetAtAnyTimeClearsEverything := by
  intro s rest hev
  obtain ⟨hcmd, hbusy, hdone, herr, hcode, hargs, hres0, hvalid, hseed, hpos, hdmem, -, -⟩ :=
    resetStateHoldsTheResetValues
  exact ⟨_, step_reset hev, hcmd, hbusy, hdone, herr, hcode, hargs, hres0, hvalid, hseed, hpos, hdmem, rfl, rfl, rfl⟩

end Sys2Proof.Machine
end
